-- ==== Sys2Proof/Word.lean ====
section
/-! DEFINITION. The word types of the Buffered Serial Dispatch block: bytes, index registers, port words, slot and
peripheral numbers. Widths are those of 00_scope.md R5 (`BYTEW`, `IDXW`) and 30_encoding.md R90, R91. -/

namespace Sys2Proof

/-- One byte, `BYTEW = 8` bits (00_scope.md R5, 20_memory.md R61). -/
abbrev Byte := BitVec 8

/-- An index register or a capacity, `IDXW = 16` bits (10_state.md R23, R24). -/
abbrev Idx := BitVec 16

/-- A word of the command, interrupt or environment port, and a result word (30_encoding.md R90, R97). -/
abbrev Word := BitVec 32

/-- A request word of the hardware port (30_encoding.md R99). -/
abbrev Request := BitVec 16

/-- A channel slot number, 0 to 15 (30_encoding.md R91, field `CH`). -/
abbrev Slot := Fin 16

/-- A peripheral identity, 0 to 15 (10_state.md R22, field `PID`). -/
abbrev Pid := Fin 16

end Sys2Proof
end

