-- ==== Sys2Proof/Syntax.lean ====
section
/-! DEFINITION. The instruction set: one constructor per row of spec/opcode_table.json, that is the twelve words of
30_encoding.md R94 and the four request words of 30_encoding.md R99. -/

namespace Sys2Proof

/-- The four ports of the block (30_encoding.md R90). -/
inductive Port where
  | command
  | interrupt
  | environment
  | hardware
deriving DecidableEq, Repr

/-- Which call's answer HWINJ forces (30_encoding.md R93, field `SEL`): `rx` is `hw_receive_arm`, `tx` is
`hw_transmit_byte`. -/
inductive InjSel where
  | rx
  | tx
deriving DecidableEq, Repr

/-- The operations of the block and of its hardware port. -/
inductive Instr where
  /-- CONSTRUCT `ch<c>, p<k>, <N>` (41_channel_commands.md R141). -/
  | construct (c : Slot) (k : Pid) (n : Idx)
  /-- BEGIN `ch<c>` (41_channel_commands.md R142). -/
  | beginCh (c : Slot)
  /-- READ `ch<c>` (41_channel_commands.md R143). -/
  | read (c : Slot)
  /-- WRITE `ch<c>, <byte>` (41_channel_commands.md R144). -/
  | write (c : Slot) (b : Byte)
  /-- AVAIL `ch<c>` (41_channel_commands.md R146). -/
  | avail (c : Slot)
  /-- RCOUNT `ch<c>` (41_channel_commands.md R147). -/
  | rcount (c : Slot)
  /-- FLUSHRX `ch<c>` (41_channel_commands.md R148). -/
  | flushRx (c : Slot)
  /-- FLUSHTX `ch<c>` (41_channel_commands.md R149). -/
  | flushTx (c : Slot)
  /-- IRQRX `p<k>` (43_registry_dispatch.md R193). -/
  | irqRx (k : Pid)
  /-- IRQTX `p<k>` (43_registry_dispatch.md R194). -/
  | irqTx (k : Pid)
  /-- HWRXD `p<k>, <byte>` (44_hardware_layer.md R222). -/
  | hwrxd (k : Pid) (b : Byte)
  /-- HWINJ `p<k>, rx|tx, <status>` (44_hardware_layer.md R223); `st` is the field `ST`. -/
  | hwinj (k : Pid) (sel : InjSel) (st : BitVec 2)
  /-- Request word `hw_receive_arm(p<p>, ch<c>)` (44_hardware_layer.md R211). -/
  | hwReceiveArm (p : Pid) (c : Slot)
  /-- Request word `hw_transmit_byte(p<p>, <byte>)` (44_hardware_layer.md R212). -/
  | hwTransmitByte (p : Pid) (b : Byte)
  /-- Request word `hw_is_ready(p<p>)` (44_hardware_layer.md R213). -/
  | hwIsReady (p : Pid)
  /-- Request word `hw_unlock_and_abort_receive(p<p>)` (44_hardware_layer.md R214). -/
  | hwUnlockAndAbortReceive (p : Pid)
deriving DecidableEq, Repr

end Sys2Proof
end

