-- ==== Sys2Proof/WellFormed.lean ====
section
/-! DEFINITION. Which terms of `Instr` are instructions. Every field is as wide as its encoding, so one check is left:
an HWINJ word that carries `ST = 3` is illegal (30_encoding.md R95). Operands out of range (30_encoding.md R96) are
well formed: each has a defined outcome. -/

namespace Sys2Proof

/-- The check of 30_encoding.md R95 that the types do not make: HWINJ's status field is not 3. -/
def Instr.wellFormed : Instr → Bool
  | .hwinj _ _ st => st != 3
  | .construct _ _ _ | .beginCh _ | .read _ | .write _ _ | .avail _ | .rcount _ | .flushRx _ | .flushTx _ => true
  | .irqRx _ | .irqTx _ | .hwrxd _ _ => true
  | .hwReceiveArm _ _ | .hwTransmitByte _ _ | .hwIsReady _ | .hwUnlockAndAbortReceive _ => true

end Sys2Proof
end

