-- ==== Sys2Proof/Decode.lean ====
section
/-! DEFINITION. The decoder of the port words and request words (30_encoding.md R91 to R95, R99), total and rejecting
by name, and the encoder written from the same tables. -/

namespace Sys2Proof

/-! ### Fields -/

/-- `OP = W[31:24]` (30_encoding.md R91). -/
def opField (w : Word) : BitVec 8 := w.extractLsb' 24 8

/-- `CH = W[23:20]` (30_encoding.md R91). -/
def chField (w : Word) : BitVec 4 := w.extractLsb' 20 4

/-- `PID = W[19:16]` (30_encoding.md R91). -/
def pidField (w : Word) : BitVec 4 := w.extractLsb' 16 4

/-- `IMM = W[15:0]` (30_encoding.md R91). -/
def immField (w : Word) : BitVec 16 := w.extractLsb' 0 16

/-- The number a four-bit field names: a slot or a peripheral identity (30_encoding.md R93). -/
def numberOf (b : BitVec 4) : Fin 16 := ⟨b.toNat, b.isLt⟩

/-- The four bits that name a slot or a peripheral identity. -/
def bitsOf (n : Fin 16) : BitVec 4 := BitVec.ofFin n

/-! ### Formats -/

/-- The formats of 30_encoding.md R92, and `Q` for the request words of R99. -/
inductive Format where
  | K | C | B | P | D | J | Q
deriving DecidableEq, Repr

/-- The mask of a format of a 32-bit word (30_encoding.md R92): the bits that are fixed. -/
def Format.mask : Format → Word
  | .K => 0xFF000000
  | .C => 0xFF0FFFFF
  | .B => 0xFF0FFF00
  | .P => 0xFFF0FFFF
  | .D => 0xFFF0FF00
  | .J => 0xFFF0FEFC
  | .Q => 0

/-- The port an operation belongs to (30_encoding.md R90, R94). -/
def Instr.port : Instr → Port
  | .construct _ _ _ | .beginCh _ | .read _ | .write _ _ | .avail _ | .rcount _ | .flushRx _ | .flushTx _ => .command
  | .irqRx _ | .irqTx _ => .interrupt
  | .hwrxd _ _ | .hwinj _ _ _ => .environment
  | .hwReceiveArm _ _ | .hwTransmitByte _ _ | .hwIsReady _ | .hwUnlockAndAbortReceive _ => .hardware

/-- The format of an operation (30_encoding.md R94, R99). -/
def Instr.format : Instr → Format
  | .construct _ _ _ => .K
  | .beginCh _ | .read _ | .avail _ | .rcount _ | .flushRx _ | .flushTx _ => .C
  | .write _ _ => .B
  | .irqRx _ | .irqTx _ => .P
  | .hwrxd _ _ => .D
  | .hwinj _ _ _ => .J
  | .hwReceiveArm _ _ | .hwTransmitByte _ _ | .hwIsReady _ | .hwUnlockAndAbortReceive _ => .Q

/-! ### Decoder -/

/-- Why a word is no operation (30_encoding.md R95, R99). -/
inductive DecodeError where
  /-- `OP` is not in the map of 30_encoding.md R94. -/
  | unknownOpcode
  /-- A field the format requires to be zero is not zero. -/
  | nonzeroField
  /-- An HWINJ word with `ST = 3`. -/
  | reservedStatus
  /-- The word stands on a port other than the one `OP[7:4]` names. -/
  | wrongPort
  /-- A request word whose `FN` is 4 to 15, never sent (30_encoding.md R99). -/
  | unknownRequest
deriving DecidableEq, Repr

/-- The instruction if the fields the format does not use are zero (30_encoding.md R92, R95). -/
def ifZero (zero : Bool) (i : Instr) : Except DecodeError Instr :=
  if zero then .ok i else .error .nonzeroField

/-- HWINJ's selector bit `IMM[8]` (30_encoding.md R93). -/
def selOf (b : Bool) : InjSel := if b then .tx else .rx

/-- Decode a 32-bit word by its `OP`, whatever port it stands on (30_encoding.md R92 to R95). -/
def decodeWord (w : Word) : Except DecodeError Instr :=
  let c := numberOf (chField w)
  let k := numberOf (pidField w)
  let imm := immField w
  let low := imm.extractLsb' 0 8
  let onlyCh := pidField w == 0 && imm == 0
  let onlyPid := chField w == 0 && imm == 0
  match (opField w).toNat with
  | 0x01 => .ok (.construct c k imm)
  | 0x02 => ifZero onlyCh (.beginCh c)
  | 0x03 => ifZero onlyCh (.read c)
  | 0x04 => ifZero (pidField w == 0 && imm.extractLsb' 8 8 == 0) (.write c low)
  | 0x05 => ifZero onlyCh (.avail c)
  | 0x06 => ifZero onlyCh (.rcount c)
  | 0x07 => ifZero onlyCh (.flushRx c)
  | 0x08 => ifZero onlyCh (.flushTx c)
  | 0x10 => ifZero onlyPid (.irqRx k)
  | 0x11 => ifZero onlyPid (.irqTx k)
  | 0x20 => ifZero (chField w == 0 && imm.extractLsb' 8 8 == 0) (.hwrxd k low)
  | 0x21 =>
    if imm.extractLsb' 0 2 == 3 then .error .reservedStatus
    else ifZero (chField w == 0 && imm.extractLsb' 9 7 == 0 && imm.extractLsb' 2 6 == 0)
      (.hwinj k (selOf (imm.getLsbD 8)) (imm.extractLsb' 0 2))
  | _ => .error .unknownOpcode

/-- Decode a 16-bit request word of the hardware port (30_encoding.md R99). -/
def decodeRequest (q : Request) : Except DecodeError Instr :=
  let p := numberOf (q.extractLsb' 8 4)
  let arg := q.extractLsb' 0 8
  match (q.extractLsb' 12 4).toNat with
  | 0 => ifZero (q.extractLsb' 4 4 == 0) (.hwReceiveArm p (numberOf (q.extractLsb' 0 4)))
  | 1 => .ok (.hwTransmitByte p arg)
  | 2 => ifZero (arg == 0) (.hwIsReady p)
  | 3 => ifZero (arg == 0) (.hwUnlockAndAbortReceive p)
  | _ => .error .unknownRequest

/-- Decode the word `w` presented on port `p`: a word of another port is illegal there (30_encoding.md R95). On the
hardware port the low 16 bits are the request. -/
def decodeOn (p : Port) (w : Word) : Except DecodeError Instr :=
  match p with
  | .hardware => decodeRequest (w.setWidth 16)
  | p =>
    match decodeWord w with
    | .ok i => if i.port = p then .ok i else .error .wrongPort
    | .error e => .error e

/-- The instruction the decoder reads from a table row's bits (rows of 32 and of 16 bits); `none` where it refuses. -/
def decodeTableWord (nbits w : Nat) : Option Instr :=
  let answer :=
    if nbits = 16 then decodeRequest (BitVec.ofNat 16 w) else decodeWord (BitVec.ofNat 32 w)
  match answer with
  | .ok i => some i
  | .error _ => none

/-! ### Encoder -/

/-- `OP << 24 | CH << 20 | PID << 16 | IMM` (30_encoding.md R91). -/
def packWord (op : BitVec 8) (ch pid : BitVec 4) (imm : BitVec 16) : Word := op ++ ch ++ pid ++ imm

/-- `FN << 12 | PID << 8 | ARG` (30_encoding.md R99). -/
def packRequest (fn pid : BitVec 4) (arg : BitVec 8) : Request := fn ++ pid ++ arg

/-- `IMM` of an HWINJ word: `SEL` in bit 8, `ST` in bits 1 and 0 (30_encoding.md R92). -/
def injImm (sel : InjSel) (st : BitVec 2) : BitVec 16 :=
  let bit : BitVec 1 := match sel with | .rx => 0 | .tx => 1
  (0 : BitVec 7) ++ bit ++ (0 : BitVec 6) ++ st

/-- The word of an instruction: 32 bits for the three word ports (30_encoding.md R94), and a request word in the low
16 bits for the hardware port (30_encoding.md R99). -/
def encode : Instr → Word
  | .construct c k n => packWord 0x01 (bitsOf c) (bitsOf k) n
  | .beginCh c => packWord 0x02 (bitsOf c) 0 0
  | .read c => packWord 0x03 (bitsOf c) 0 0
  | .write c b => packWord 0x04 (bitsOf c) 0 (b.setWidth 16)
  | .avail c => packWord 0x05 (bitsOf c) 0 0
  | .rcount c => packWord 0x06 (bitsOf c) 0 0
  | .flushRx c => packWord 0x07 (bitsOf c) 0 0
  | .flushTx c => packWord 0x08 (bitsOf c) 0 0
  | .irqRx k => packWord 0x10 0 (bitsOf k) 0
  | .irqTx k => packWord 0x11 0 (bitsOf k) 0
  | .hwrxd k b => packWord 0x20 0 (bitsOf k) (b.setWidth 16)
  | .hwinj k sel st => packWord 0x21 0 (bitsOf k) (injImm sel st)
  | .hwReceiveArm p c => (packRequest 0 (bitsOf p) ((bitsOf c).setWidth 8)).setWidth 32
  | .hwTransmitByte p b => (packRequest 1 (bitsOf p) b).setWidth 32
  | .hwIsReady p => (packRequest 2 (bitsOf p) 0).setWidth 32
  | .hwUnlockAndAbortReceive p => (packRequest 3 (bitsOf p) 0).setWidth 32

end Sys2Proof
end

