-- ==== Sys2Proof/Config.lean ====
section
/-! DEFINITION. The implementation parameters of 00_scope.md R5, the treatment of bytes nothing has written
(93_implementation_defined.md U7), and the free values. The choices the spec leaves OPEN are values a state carries
(log 1, log 27), so that a claim over all states is a claim over each of them. -/

namespace Sys2Proof.Config

/-- Which index a buffer reset stores first (40_buffer_engine.md R126); left OPEN by 92_eei_decisions.md D11. -/
inductive FlushOrder where
  | headFirst
  | tailFirst
deriving DecidableEq, Repr

/-- How the hardware layer answers (44_hardware_layer.md R216, R217); left OPEN by 92_eei_decisions.md D19. -/
inductive HwModel where
  | free
  | reference
deriving DecidableEq, Repr

/-- What a read of a storage or scratch byte that nothing has written does (93_implementation_defined.md U7; log 27):
U7 gives the treatment `fault`, and lets a reader take any value for storage and scratch instead. -/
inductive UnwrittenRead where
  | fault
  | anyValue
deriving DecidableEq, Repr

/-- The parameters a model takes as an argument (00_scope.md R5; 93_implementation_defined.md U7 for the last one). `N` is not among them: it is an operand of
CONSTRUCT, held in `CAP[c]`. -/
structure Params where
  /-- `NP`, the registry's capacity. -/
  np : Nat
  /-- `NCH`, the number of channel slots. -/
  nch : Nat
  flushOrder : FlushOrder
  hwModel : HwModel
  unwritten : UnwrittenRead
deriving DecidableEq, Repr

/-- The legal ranges of 00_scope.md R5: `NP` and `NCH` from 1 to 16. -/
abbrev Params.wf (p : Params) : Prop := 1 ≤ p.np ∧ p.np ≤ 16 ∧ 1 ≤ p.nch ∧ p.nch ≤ 16

/-- `NP = 6` and `NCH = 16` are the spec's defaults (00_scope.md R5). DESIGN CHOICE (log 1): the two open parameters
take the values 95_test_vectors.md section 0 uses unless a vector says otherwise. A byte nothing has written has
any value, so that every instruction runs on it, as 42_interrupt_handlers.md R170 and R175 have it (log 27). -/
def Params.standard : Params := ⟨6, 16, .headFirst, .reference, .anyValue⟩

/-- The capacity CONSTRUCT takes when the line names none (30_encoding.md R102). -/
def defaultCapacity : Idx := 256

/-- FREE VALUE (44_hardware_layer.md R216, 93_implementation_defined.md U8; log 8): the two answer bits of the n-th
free answer of the hardware layer. Nothing constrains it. -/
opaque freeAnswer : Nat → BitVec 2

/-- FREE VALUE (93_implementation_defined.md U7; log 27): the byte that stands at a place of the storage nothing has
written, where such a read has any value. Nothing constrains it. -/
opaque initialByte : Nat → Byte

end Sys2Proof.Config
end

