-- ==== Sys2Proof/Machine/State.lean ====
section
/-! DEFINITION. The state: the block's registers and storage (10_state.md R20), the hardware layer's state
(44_hardware_layer.md R217), what is observed (00_scope.md R10), and the inputs still to come (log 5). -/

namespace Sys2Proof.Machine

/-! ### Memory -/

/-- The bytes written so far, by address, strictly rising. The three kinds of spaces of 20_memory.md R60 share the
list; `Space.addr` gives each byte its place (log 4). -/
abbrev Memory := List Host.Cell

/-- What an unlisted address reads as: no value, since nothing has written it (10_state.md R40, log 3). What a read of
such a byte does is `State.byteAt`. -/
def Memory.unlisted : Option Byte := none

/-- The canonical form: addresses strictly rising, and no entry equal to what an unlisted address reads as. DESIGN
CHOICE (log 4): the form is the model's. -/
abbrev Memory.wf (m : Memory) : Prop :=
  (m.map Prod.fst).Pairwise (· < ·) ∧ ∀ e ∈ m, some e.2 ≠ Memory.unlisted

/-! ### The block's registers -/

/-- The registers of one channel slot (10_state.md R21 to R24). `SCR[c]` is a one-byte space of the memory
(20_memory.md R60). -/
structure Chan where
  /-- `VALID[c]` -/
  valid : Bool
  /-- `HANDLE[c]` -/
  handle : Pid
  /-- `CAP[c]` -/
  cap : Idx
  /-- `RXH[c]` -/
  rxh : Idx
  /-- `RXT[c]` -/
  rxt : Idx
  /-- `TXH[c]` -/
  txh : Idx
  /-- `TXT[c]` -/
  txt : Idx
deriving DecidableEq, Repr

/-- `UPC` (10_state.md R33): `idle`, or the command in progress, the number of its next micro-step and the locals
bound so far. Step numbers and locals are those of the step lists of 41_channel_commands.md. -/
inductive Upc where
  | idle
  | construct1 (c : Slot) (k : Pid) (n : Idx)
  | begin1 (c : Slot)
  | read1 (c : Slot)
  | read2 (c : Slot) (h : Idx)
  | read3 (c : Slot) (h t : Idx)
  | read4 (c : Slot) (h t : Idx) (v : Byte)
  | write1 (c : Slot) (b : Byte)
  | write2 (c : Slot) (b : Byte) (h : Idx)
  | write3 (c : Slot) (b : Byte) (h t : Idx)
  | write4 (c : Slot) (b : Byte) (h t : Idx)
  | write5 (c : Slot) (b : Byte) (h t : Idx)
  | write6 (c : Slot) (b : Byte) (h t : Idx) (r : Bool)
  | write7 (c : Slot) (b : Byte) (h t : Idx) (r : Bool) (h2 : Idx)
  | write8 (c : Slot) (b : Byte) (h t : Idx) (r : Bool) (h2 t2 : Idx)
  | write9 (c : Slot) (b : Byte) (h t : Idx) (r : Bool) (h2 t2 : Idx) (v : Byte)
  | write10 (c : Slot) (b : Byte) (h t : Idx) (r : Bool) (h2 t2 : Idx) (v : Byte)
  | avail1 (c : Slot)
  | avail2 (c : Slot) (h : Idx)
  | rcount1 (c : Slot)
  | rcount2 (c : Slot) (h : Idx)
  | flushRx1 (c : Slot)
  | flushRx2 (c : Slot)
  | flushTx1 (c : Slot)
  | flushTx2 (c : Slot)
deriving DecidableEq, Repr

/-! ### The hardware layer -/

/-- `status{ok, busy, error}` (00_scope.md R8, 30_encoding.md R99). -/
inductive HwStatus where
  | ok
  | busy
  | error
deriving DecidableEq, Repr

/-- The environment's state for one peripheral (44_hardware_layer.md R217). -/
structure Periph where
  /-- `RXARM[p]` -/
  rxArm : Option Slot
  /-- `RXDONE[p]` -/
  rxDone : Bool
  /-- `TXBUSY[p]` -/
  txBusy : Bool
  /-- `TXCUR[p]` -/
  txCur : Byte
  /-- `LINE[p]`, oldest first -/
  line : List Byte
  /-- `INJRX[p]`, oldest first -/
  injRx : List HwStatus
  /-- `INJTX[p]`, oldest first -/
  injTx : List HwStatus
deriving DecidableEq, Repr

/-- One record of `HWLOG`: the call, its arguments and its answer (44_hardware_layer.md R215). -/
inductive HwRecord where
  | receiveArm (p : Pid) (c : Slot) (answer : HwStatus)
  | transmitByte (p : Pid) (b : Byte) (answer : HwStatus)
  | isReady (p : Pid) (answer : Bool)
  | unlockAndAbortReceive (p : Pid)
deriving DecidableEq, Repr

/-! ### Inputs still to come -/

/-- What the issuer of the normal context will issue (log 5, log 14): a word on the command port, or the
pseudo-instruction WRITEN (41_channel_commands.md R145) with the bytes left to issue and the count so far;
`writenAsked` is WRITEN while one of its WRITE commands runs. -/
inductive Issue where
  | word (w : Word)
  | writen (c : Slot) (bs : List Byte) (count : Nat)
  | writenAsked (c : Slot) (bs : List Byte) (count : Nat)
deriving DecidableEq, Repr

/-- Who takes a step (00_scope.md R10; log 5): the normal context, an event word on the interrupt port, a word on the
environment port, or a request word that the hardware layer answers by itself (log 9). -/
inductive Turn where
  | normal
  | interrupt (w : Word)
  | environment (w : Word)
  | hardware (q : Request)
deriving DecidableEq, Repr

/-! ### The whole state -/

/-- Everything the spec gives the machine. Slots `c ≥ NCH` and identities `k ≥ NP` have a place in the vectors that
no rule writes (log 15). -/
structure State where
  /-- The parameters of 00_scope.md R5; no step changes them (log 1). -/
  par : Config.Params
  /-- The channel slots' registers (10_state.md R20). -/
  chans : Vector Chan 16
  /-- `REG` (10_state.md R31). -/
  reg : Vector (Option Slot) 16
  /-- `UPC` (10_state.md R33). -/
  upc : Upc
  /-- `RXMEM`, `TXMEM` and `SCR` (20_memory.md R60). -/
  mem : Memory
  /-- The hardware layer, one entry per peripheral (44_hardware_layer.md R217). -/
  periphs : Vector Periph 16
  /-- `ENVFAULT` (44_hardware_layer.md R225). -/
  envFault : Bool
  /-- How many free answers have been drawn: the model's own field (log 8). -/
  draws : Nat
  /-- `HWLOG`, oldest first (44_hardware_layer.md R215; log 13). -/
  hwlog : List HwRecord
  /-- The result words returned on the command port, oldest first (00_scope.md R10; log 13). -/
  results : List Word
  /-- The counts WRITEN gave, oldest first (41_channel_commands.md R145; log 13). -/
  counts : List Nat
  /-- What the issuer will issue, oldest first (log 5). -/
  cmdQ : List Issue
  /-- Who takes the coming steps; when it is empty, the normal context (log 5). -/
  turns : List Turn
deriving DecidableEq, Repr

/-! ### How a step can stop -/

/-- Why the machine stops. -/
inductive Fault where
  /-- A storage or scratch byte that nothing has written is read where `par.unwritten` makes such a read a fault
  (10_state.md R40, 93_implementation_defined.md U7; log 27), which `State.reset` does not. Raised by the byte loads of
  READ, WRITE, IRQRX and IRQTX. Safe. -/
  | unwrittenByte
  /-- An operation on a buffer one of whose indices is not in `[0, CAP[c])`, or an access to an index that does not
  exist (20_memory.md R63, 93_implementation_defined.md U11). Raised by every buffer access. Safe. -/
  | indexOutOfRange
  /-- A step from a state with `ENVFAULT = 1` under the reference model (44_hardware_layer.md R225). Raised by `step`.
  Safe. -/
  | envFault
deriving DecidableEq, Repr

/-- Why a word has no meaning. -/
inductive Refusal where
  /-- An instruction of the table without a meaning yet; no arm of `exec` uses it. Safe. -/
  | notModelled (mnemonic : String)
  /-- A word on the hardware port that is none of the four requests: it is never sent and the spec gives it no effect
  (30_encoding.md R99, 93_implementation_defined.md U6). Raised by `step`. Safe. -/
  | illegalRequest
deriving DecidableEq, Repr

/-! ### Reset -/

/-- A channel slot after reset: `VALID = 0`; the others are unspecified and stand at 0 (DESIGN CHOICE, log 2). -/
def Chan.reset : Chan := ⟨false, 0, 0, 0, 0, 0, 0⟩

/-- A peripheral at the start (44_hardware_layer.md R217); `TXCUR` is unspecified and stands at 0 (log 2). -/
def Periph.start : Periph := ⟨none, false, false, 0, [], [], []⟩

/-- The state after reset under given parameters (10_state.md R40, 70_reset_and_hazards.md R280). -/
def State.resetWith (p : Config.Params) : State :=
  { par := p
    chans := Vector.replicate 16 Chan.reset
    reg := Vector.replicate 16 none
    upc := .idle
    mem := []
    periphs := Vector.replicate 16 Periph.start
    envFault := false
    draws := 0
    hwlog := []
    results := []
    counts := []
    cmdQ := []
    turns := [] }

/-- The machine right after reset, with the parameters of `Config.Params.standard` (log 1). -/
def State.reset : State := State.resetWith Config.Params.standard

end Sys2Proof.Machine
end

