-- ==== Sys2Proof/Machine/Flags.lean ====
section
/-! DEFINITION. The index arithmetic and the two derived conditions (10_state.md R28, 40_buffer_engine.md R124, R125,
R128), and the codes of the result word (30_encoding.md R97, R98). Sums are formed over the integers and reduced
where the rule writes `mod` (00_scope.md R6). -/

namespace Sys2Proof.Machine

/-- `(x + 1) mod N` (40_buffer_engine.md R128). -/
def idxSucc (x n : Idx) : Idx := BitVec.ofNat 16 ((x.toNat + 1) % n.toNat)

/-- `EMPTY`: `head == tail` (10_state.md R28). -/
def isEmptyAt (h t : Idx) : Bool := h == t

/-- `FULL`: `(head + 1) mod N == tail` (10_state.md R28, 40_buffer_engine.md R124). -/
def isFullAt (h t n : Idx) : Bool := idxSucc h n == t

/-- `(h - t + N) mod N` (40_buffer_engine.md R125). -/
def occupancyAt (h t n : Idx) : Idx :=
  BitVec.ofNat 16 ((((h.toNat : Int) - t.toNat + n.toNat) % n.toNat).toNat)

/-- The status codes of 30_encoding.md R98. -/
inductive Status where
  | ok
  | full
  | empty
  | rejected
  | nochan
  | illegal
deriving DecidableEq, Repr

/-- The number of a status (30_encoding.md R98). -/
def Status.code : Status → BitVec 8
  | .ok => 0x00
  | .full => 0x01
  | .empty => 0x02
  | .rejected => 0x03
  | .nochan => 0x04
  | .illegal => 0x05

/-- `R[31:24] = STATUS`, `R[23:16] = 0`, `R[15:0] = VALUE` (30_encoding.md R97). -/
def resultWord (st : Status) (v : BitVec 16) : Word := st.code ++ (0 : BitVec 8) ++ v

/-- The status code of a result word (30_encoding.md R97). -/
def statusField (r : Word) : BitVec 8 := r.extractLsb' 24 8

/-- The status a two-bit answer stands for; a handed 3 is treated as error (30_encoding.md R99). -/
def HwStatus.ofBits (a : BitVec 2) : HwStatus :=
  match a.toNat with
  | 0 => .ok
  | 1 => .busy
  | _ => .error

/-- The two bits of a status answer (30_encoding.md R99). -/
def HwStatus.bits : HwStatus → BitVec 2
  | .ok => 0
  | .busy => 1
  | .error => 2

end Sys2Proof.Machine
end

