-- ==== Sys2Proof/Machine/Ops.lean ====
section
/-! DEFINITION. The named operations over registers and memory, how a meaning ends, how a command runs, and the one
shared operation that takes an interrupt event. -/

namespace Sys2Proof.Machine

/-- The outcome of a step of this machine. -/
abbrev Res := Host.Outcome State Fault Refusal

/-- Why an operation does not end: a fault of the model, or the double arm of 44_hardware_layer.md R218, which stops
the operation where it stands (log 11). -/
inductive Stop where
  | fault (r : Fault)
  | envFault (s : State)
deriving DecidableEq, Repr

/-- How a meaning ends. A double arm answers the state it stopped in with `ENVFAULT = 1`; `step` faults on that state
(44_hardware_layer.md R218, R225; log 11). -/
def finish : Except Stop State → Res
  | .ok s => .next s
  | .error (.fault r) => .fault r
  | .error (.envFault s) => .next { s with envFault := true }

/-! ### Registers -/

/-- The registers of slot `c`. -/
def State.chan (s : State) (c : Slot) : Chan := s.chans[c.val]

/-- Write the registers of slot `c`. -/
def State.setChan (s : State) (c : Slot) (x : Chan) : State := { s with chans := s.chans.set c.val x }

/-- `REG[k]`. -/
def State.regAt (s : State) (k : Pid) : Option Slot := s.reg[k.val]

/-- `REG[k] <- v`. -/
def State.setReg (s : State) (k : Pid) (v : Option Slot) : State := { s with reg := s.reg.set k.val v }

/-- The hardware layer's state for peripheral `p`. -/
def State.periph (s : State) (p : Pid) : Periph := s.periphs[p.val]

/-- Write the hardware layer's state for peripheral `p`. -/
def State.setPeriph (s : State) (p : Pid) (x : Periph) : State := { s with periphs := s.periphs.set p.val x }

/-- `upc <- u` (00_scope.md R7). -/
def State.setUpc (s : State) (u : Upc) : State := { s with upc := u }

/-- Append a record to `HWLOG` (44_hardware_layer.md R215). -/
def State.log (s : State) (r : HwRecord) : State := { s with hwlog := s.hwlog ++ [r] }

/-- Put a result word on the command port (30_encoding.md R97). -/
def State.putResult (s : State) (st : Status) (v : BitVec 16) : State :=
  { s with results := s.results ++ [resultWord st v] }

/-- `result(ST, v)` (00_scope.md R7): the result word is returned and `UPC` is `idle` again (10_state.md R33). -/
def State.endCommand (s : State) (st : Status) (v : BitVec 16) : State := (s.putResult st v).setUpc .idle

/-! ### Memory -/

/-- The byte at address `x`; what an unlisted address reads as where nothing is listed. -/
def Memory.read : Memory → Nat → Option Byte
  | [], _ => Memory.unlisted
  | (a, v) :: m, x => if a = x then some v else Memory.read m x

/-- Write byte `v` at address `x`, keeping the canonical form. -/
def Memory.write : Memory → Nat → Byte → Memory
  | [], x, v => [(x, v)]
  | (a, w) :: m, x, v =>
    if x < a then (x, v) :: (a, w) :: m
    else if x = a then (x, v) :: m
    else (a, w) :: Memory.write m x v

/-- The storage spaces of 20_memory.md R60. -/
inductive Space where
  | rxmem (c : Slot)
  | txmem (c : Slot)
  | scr (c : Slot)
deriving DecidableEq, Repr

/-- The place of byte `i` of a space in the memory list (DESIGN CHOICE, log 4): slot `c` has the `2 ^ 18` places from
`c * 2 ^ 18`, RX storage first, then TX storage, then the scratch byte. No port reaches an address. -/
def Space.addr : Space → Idx → Nat
  | .rxmem c, i => c.val * 262144 + i.toNat
  | .txmem c, i => c.val * 262144 + 65536 + i.toNat
  | .scr c, i => c.val * 262144 + 131072 + i.toNat

/-- How many bytes a space has (10_state.md R30, 20_memory.md R60). -/
def State.size (s : State) : Space → Nat
  | .rxmem c => (s.chan c).cap.toNat
  | .txmem c => (s.chan c).cap.toNat
  | .scr _ => 1

/-- Whether anything has written byte `i` of a space. -/
def State.written (s : State) (sp : Space) (i : Idx) : Bool := (s.mem.read (sp.addr i)).isSome

/-- What place `a` of the storage holds while nothing has written it: no value, or any value, as
93_implementation_defined.md U7 has it (log 27). -/
def State.unwrittenByte (s : State) (a : Nat) : Option Byte :=
  match s.par.unwritten with
  | .fault => none
  | .anyValue => some (Config.initialByte a)

/-- The byte that stands at index `i` of a space, if it has a value. -/
def State.byteAt (s : State) (sp : Space) (i : Idx) : Option Byte :=
  (s.mem.read (sp.addr i)).or (s.unwrittenByte (sp.addr i))

/-- `MemRead(S:i, 1)` (00_scope.md R7). A byte has no value only while nothing has written it and `par.unwritten` is
`fault`; its read is then the fault of 10_state.md R40 and 93_implementation_defined.md U7 (log 27). -/
def State.memRead (s : State) (sp : Space) (i : Idx) : Except Stop Byte :=
  if i.toNat < s.size sp then
    match s.byteAt sp i with
    | some v => .ok v
    | none => .error (.fault .unwrittenByte)
  else .error (.fault .indexOutOfRange)

/-- `MemWrite(S:i, 1, v)` (00_scope.md R7). -/
def State.memWrite (s : State) (sp : Space) (i : Idx) (v : Byte) : Except Stop State :=
  if i.toNat < s.size sp then .ok { s with mem := s.mem.write (sp.addr i) v }
  else .error (.fault .indexOutOfRange)

/-! ### Commands -/

/-- The command in progress, if any (10_state.md R33). -/
def Upc.command : Upc → Option Instr
  | .idle => none
  | .construct1 c k n => some (.construct c k n)
  | .begin1 c => some (.beginCh c)
  | .read1 c | .read2 c _ | .read3 c _ _ | .read4 c _ _ _ => some (.read c)
  | .write1 c b | .write2 c b _ | .write3 c b _ _ | .write4 c b _ _ | .write5 c b _ _ => some (.write c b)
  | .write6 c b _ _ _ | .write7 c b _ _ _ _ | .write8 c b _ _ _ _ _ => some (.write c b)
  | .write9 c b _ _ _ _ _ _ | .write10 c b _ _ _ _ _ _ => some (.write c b)
  | .avail1 c | .avail2 c _ => some (.avail c)
  | .rcount1 c | .rcount2 c _ => some (.rcount c)
  | .flushRx1 c | .flushRx2 c => some (.flushRx c)
  | .flushTx1 c | .flushTx2 c => some (.flushTx c)

/-- The number of the next micro-step of the command in progress, 0 when idle (10_state.md R33). -/
def Upc.stepNumber : Upc → Nat
  | .idle => 0
  | .construct1 _ _ _ | .begin1 _ | .read1 _ | .write1 _ _ | .avail1 _ | .rcount1 _ | .flushRx1 _ | .flushTx1 _ => 1
  | .read2 _ _ | .write2 _ _ _ | .avail2 _ _ | .rcount2 _ _ | .flushRx2 _ | .flushTx2 _ => 2
  | .read3 _ _ _ | .write3 _ _ _ _ => 3
  | .read4 _ _ _ _ | .write4 _ _ _ _ => 4
  | .write5 _ _ _ _ => 5
  | .write6 _ _ _ _ _ => 6
  | .write7 _ _ _ _ _ _ => 7
  | .write8 _ _ _ _ _ _ _ => 8
  | .write9 _ _ _ _ _ _ _ _ => 9
  | .write10 _ _ _ _ _ _ _ _ => 10

/-- A command's turn. When `UPC` is `idle` the command starts: `UPC` takes its step 1 (00_scope.md R10, 10_state.md
R33; log 6). When it is the command in progress, its next micro-step is done. While another command is in progress it
is not accepted and nothing changes (92_eei_decisions.md D28; log 7). -/
def runCommand (i : Instr) (first : Upc) (micro : State → Except Stop State) (s : State) : Res :=
  match s.upc.command with
  | none => .next (s.setUpc first)
  | some j => if j = i then finish (micro s) else .next s

/-! ### Taking an interrupt event, and the return -/

/-- `lookup(k)` (43_registry_dispatch.md R191). -/
def lookup (k : Pid) (s : State) : Option Slot := if k.val < s.par.np then s.regAt k else none

/-- The return from an event (60_exceptions.md R252): there is no return instruction and nothing is restored, because
nothing was saved; the normal context stands where it stood. -/
def returnFromEvent (s : State) : State := s

/-- Taking an interrupt event (60_exceptions.md R251, 43_registry_dispatch.md R196): `layer` is the reference layer's
part, done first in the same step (44_hardware_layer.md R224); nothing is saved; control goes to the handler of the
channel `lookup` finds, or nothing else happens (60_exceptions.md R245). -/
def takeEvent (k : Pid) (layer : State → State) (handler : Slot → State → Except Stop State) (s : State) :
    Except Stop State :=
  let s := layer s
  match lookup k s with
  | none => .ok (returnFromEvent s)
  | some c =>
    match handler c s with
    | .ok s => .ok (returnFromEvent s)
    | .error e => .error e

end Sys2Proof.Machine
end

