-- ==== Sys2Proof/Machine/Operands.lean ====
section
/-! DEFINITION. The operand forms: the channel slot a command names (41_channel_commands.md R140) and the buffers of a
channel with their index registers and storage (40_buffer_engine.md R120). -/

namespace Sys2Proof.Machine

/-- Channel selection: the slot exists and holds a channel (41_channel_commands.md R140). -/
def State.selects (s : State) (c : Slot) : Bool := decide (c.val < s.par.nch) && (s.chan c).valid

/-- The two buffers of a channel. -/
inductive Side where
  | rx
  | tx
deriving DecidableEq, Repr

/-- A buffer: the RX or TX buffer of a slot (40_buffer_engine.md R120). -/
structure Buf where
  c : Slot
  side : Side
deriving DecidableEq, Repr

/-- `B.mem` (40_buffer_engine.md R120). -/
def Buf.space (b : Buf) : Space :=
  match b.side with
  | .rx => .rxmem b.c
  | .tx => .txmem b.c

/-- `B.head`, the next write position. -/
def State.head (s : State) (b : Buf) : Idx :=
  match b.side with
  | .rx => (s.chan b.c).rxh
  | .tx => (s.chan b.c).txh

/-- `B.tail`, the next read position. -/
def State.tail (s : State) (b : Buf) : Idx :=
  match b.side with
  | .rx => (s.chan b.c).rxt
  | .tx => (s.chan b.c).txt

/-- `N = CAP[c]` (10_state.md R23). -/
def State.cap (s : State) (c : Slot) : Idx := (s.chan c).cap

/-- `B.head <- v`. -/
def State.setHead (s : State) (b : Buf) (v : Idx) : State :=
  match b.side with
  | .rx => s.setChan b.c { s.chan b.c with rxh := v }
  | .tx => s.setChan b.c { s.chan b.c with txh := v }

/-- `B.tail <- v`. -/
def State.setTail (s : State) (b : Buf) (v : Idx) : State :=
  match b.side with
  | .rx => s.setChan b.c { s.chan b.c with rxt := v }
  | .tx => s.setChan b.c { s.chan b.c with txt := v }

/-- Both indices of a buffer are in `[0, CAP[c])` (10_state.md R25). -/
def State.bufOk (s : State) (b : Buf) : Bool :=
  decide ((s.head b).toNat < (s.cap b.c).toNat) && decide ((s.tail b).toNat < (s.cap b.c).toNat)

/-- Any operation on a buffer with an index out of range is a fault (92_eei_decisions.md D29; log 16). -/
def State.onBuf (s : State) (b : Buf) {α : Type} (k : Except Stop α) : Except Stop α :=
  if s.bufOk b then k else .error (.fault .indexOutOfRange)

end Sys2Proof.Machine
end

