-- ==== Sys2Proof/Machine/Buffer.lean ====
section
/-! DEFINITION. The circular byte buffer index engine (40_buffer_engine.md): the single accesses that the micro-steps
are made of, and the primitives run whole, as a handler runs them (20_memory.md R70). -/

namespace Sys2Proof.Machine

/-! ### Single accesses (40_buffer_engine.md R130) -/

/-- `h <- B.head`: steps P.1, Q.1, E.1, O.1. -/
def loadHead (b : Buf) (s : State) : Except Stop Idx := s.onBuf b (.ok (s.head b))

/-- `t <- B.tail`: steps P.2, Q.2, E.2, O.2. -/
def loadTail (b : Buf) (s : State) : Except Stop Idx := s.onBuf b (.ok (s.tail b))

/-- `MemWrite(B.mem:h, 1, v)`: step P.3. -/
def storeByte (b : Buf) (h : Idx) (v : Byte) (s : State) : Except Stop State := s.onBuf b (s.memWrite b.space h v)

/-- `v <- MemRead(B.mem:t, 1)`: step Q.3. -/
def loadByte (b : Buf) (t : Idx) (s : State) : Except Stop Byte := s.onBuf b (s.memRead b.space t)

/-- `B.head <- (h + 1) mod N`: step P.4. -/
def advanceHead (b : Buf) (h : Idx) (s : State) : Except Stop State :=
  s.onBuf b (.ok (s.setHead b (idxSucc h (s.cap b.c))))

/-- `B.tail <- (t + 1) mod N`: step Q.4. -/
def advanceTail (b : Buf) (t : Idx) (s : State) : Except Stop State :=
  s.onBuf b (.ok (s.setTail b (idxSucc t (s.cap b.c))))

/-- The first store of a buffer reset: step Z.1 (40_buffer_engine.md R126). -/
def resetFirst (b : Buf) (s : State) : Except Stop State :=
  s.onBuf b (.ok (match s.par.flushOrder with
    | .headFirst => s.setHead b 0
    | .tailFirst => s.setTail b 0))

/-- The second store of a buffer reset: step Z.2 (40_buffer_engine.md R126). -/
def resetSecond (b : Buf) (s : State) : Except Stop State :=
  s.onBuf b (.ok (match s.par.flushOrder with
    | .headFirst => s.setTail b 0
    | .tailFirst => s.setHead b 0))

/-! ### Primitives run whole -/

/-- `push(B, v)` (40_buffer_engine.md R121). -/
def push (b : Buf) (v : Byte) (s : State) : Except Stop (Bool × State) := do
  let h ← loadHead b s
  let t ← loadTail b s
  if isFullAt h t (s.cap b.c) then
    return (false, s)
  else
    let s ← storeByte b h v s
    let s ← advanceHead b h s
    return (true, s)

/-- `pop(B)` (40_buffer_engine.md R122). -/
def pop (b : Buf) (s : State) : Except Stop (Option Byte × State) := do
  let h ← loadHead b s
  let t ← loadTail b s
  if isEmptyAt h t then
    return (none, s)
  else
    let v ← loadByte b t s
    let s ← advanceTail b t s
    return (some v, s)

/-- `is_empty(B)` (40_buffer_engine.md R123). -/
def isEmpty (b : Buf) (s : State) : Except Stop Bool := do
  let h ← loadHead b s
  let t ← loadTail b s
  return isEmptyAt h t

/-- `is_full(B)` (40_buffer_engine.md R124). -/
def isFull (b : Buf) (s : State) : Except Stop Bool := do
  let h ← loadHead b s
  let t ← loadTail b s
  return isFullAt h t (s.cap b.c)

/-- `occupancy(B)` (40_buffer_engine.md R125). -/
def occupancy (b : Buf) (s : State) : Except Stop Idx := do
  let h ← loadHead b s
  let t ← loadTail b s
  return occupancyAt h t (s.cap b.c)

/-- `reset(B)` (40_buffer_engine.md R126). -/
def resetBuf (b : Buf) (s : State) : Except Stop State := do
  let s ← resetFirst b s
  resetSecond b s

end Sys2Proof.Machine
end

