-- ==== Sys2Proof/Machine/HwLayer.lean ====
section
/-! DEFINITION. The hardware layer: its four calls under both environment models (44_hardware_layer.md R210 to R221),
its part in the interrupt events (R224), the environment words HWRXD and HWINJ (R222, R223), and the four request
words taken by themselves (log 9). -/

namespace Sys2Proof.Machine

/-! ### Free answers (44_hardware_layer.md R216; log 8) -/

/-- A free status answer: any of ok, busy, error. -/
def drawStatus (s : State) : HwStatus × State :=
  (HwStatus.ofBits (Config.freeAnswer s.draws), { s with draws := s.draws + 1 })

/-- A free answer of `hw_is_ready`: 0 or 1. -/
def drawReady (s : State) : Bool × State :=
  ((Config.freeAnswer s.draws).getLsbD 0, { s with draws := s.draws + 1 })

/-- The reference model answers a call for `p`: the model is `reference`, and the layer has the peripheral
(44_hardware_layer.md R217; log 10). -/
def State.answersByReference (s : State) (p : Pid) : Bool :=
  decide (s.par.hwModel = .reference) && decide (p.val < s.par.np)

/-- Take the next forced answer, if any (44_hardware_layer.md R218, R219): the answer if it is a failure, and the list
without it. A forced ok lets the natural answer through (R223). -/
def takeForced : List HwStatus → Option HwStatus × List HwStatus
  | [] => (none, [])
  | .ok :: rest => (none, rest)
  | st :: rest => (some st, rest)

/-- `RXARM[p] <- v`, for a peripheral the layer has (44_hardware_layer.md R217). -/
def State.setRxArm (s : State) (p : Pid) (v : Option Slot) : State :=
  if p.val < s.par.np then s.setPeriph p { s.periph p with rxArm := v } else s

/-! ### The four calls -/

/-- The reference answer of `hw_receive_arm(p, c)` (44_hardware_layer.md R218). -/
def referenceArm (p : Pid) (c : Slot) (s : State) : Except Stop (HwStatus × State) :=
  let (forced, rest) := takeForced (s.periph p).injRx
  let s := s.setPeriph p { s.periph p with injRx := rest }
  match forced with
  | some st => .ok (st, s)
  | none =>
    match (s.periph p).rxArm with
    | some _ => .error (.envFault s)
    | none => .ok (.ok, s.setPeriph p { s.periph p with rxArm := some c })

/-- The free answer of `hw_receive_arm(p, c)`: an `ok` arms (44_hardware_layer.md R216, R217). -/
def freeArm (p : Pid) (c : Slot) (s : State) : HwStatus × State :=
  let (st, s) := drawStatus s
  (st, if st = .ok then s.setRxArm p (some c) else s)

/-- `call hw_receive_arm(p, c)` (44_hardware_layer.md R211, R215). -/
def hwReceiveArm (p : Pid) (c : Slot) (s : State) : Except Stop (HwStatus × State) := do
  let (st, s) ← if s.answersByReference p then referenceArm p c s else .ok (freeArm p c s)
  return (st, s.log (.receiveArm p c st))

/-- The reference answer of `hw_transmit_byte(p, b)` (44_hardware_layer.md R219). -/
def referenceTransmit (p : Pid) (b : Byte) (s : State) : HwStatus × State :=
  let (forced, rest) := takeForced (s.periph p).injTx
  let s := s.setPeriph p { s.periph p with injTx := rest }
  match forced with
  | some st => (st, s)
  | none =>
    if (s.periph p).txBusy then (.busy, s)
    else (.ok, s.setPeriph p { s.periph p with txBusy := true, txCur := b })

/-- `call hw_transmit_byte(p, b)` (44_hardware_layer.md R212, R215). -/
def hwTransmitByte (p : Pid) (b : Byte) (s : State) : HwStatus × State :=
  let (st, s) := if s.answersByReference p then referenceTransmit p b s else drawStatus s
  (st, s.log (.transmitByte p b st))

/-- `call hw_is_ready(p)` (44_hardware_layer.md R213, R215, R220). -/
def hwIsReady (p : Pid) (s : State) : Bool × State :=
  let (r, s) := if s.answersByReference p then (!(s.periph p).txBusy, s) else drawReady s
  (r, s.log (.isReady p r))

/-- `call hw_unlock_and_abort_receive(p)` (44_hardware_layer.md R214, R215, R217, R221). -/
def hwUnlockAndAbortReceive (p : Pid) (s : State) : State := (s.setRxArm p none).log (.unlockAndAbortReceive p)

/-! ### The reference layer's part in the events (44_hardware_layer.md R224) -/

/-- IRQRX consumes the pending completion. -/
def layerRx (p : Pid) (s : State) : State :=
  if s.answersByReference p && (s.periph p).rxDone then s.setPeriph p { s.periph p with rxDone := false } else s

/-- IRQTX completes the transmission in flight. -/
def layerTx (p : Pid) (s : State) : State :=
  if s.answersByReference p && (s.periph p).txBusy then
    s.setPeriph p { s.periph p with line := (s.periph p).line ++ [(s.periph p).txCur], txBusy := false }
  else s

/-! ### The environment words -/

/-- HWRXD `p<k>, <b>` (44_hardware_layer.md R222). DESIGN CHOICE (log 26): a slot that a request word by itself armed is
written whether or not it holds a channel. -/
def deliver (k : Pid) (b : Byte) (s : State) : Except Stop State :=
  if k.val < s.par.np then
    match (s.periph k).rxArm with
    | none => .ok s
    | some c => do
      let s ← s.memWrite (.scr c) 0 b
      return s.setPeriph k { s.periph k with
        rxArm := none, rxDone := (s.periph k).rxDone || decide (s.par.hwModel = .reference) }
  else .ok s

/-- The meaning of HWRXD (44_hardware_layer.md R222). -/
def execHwrxd (k : Pid) (b : Byte) (s : State) : Res := finish (deliver k b s)

/-- Append a forced answer (44_hardware_layer.md R223). -/
def inject (k : Pid) (sel : InjSel) (st : HwStatus) (s : State) : State :=
  match sel with
  | .rx => s.setPeriph k { s.periph k with injRx := (s.periph k).injRx ++ [st] }
  | .tx => s.setPeriph k { s.periph k with injTx := (s.periph k).injTx ++ [st] }

/-- The meaning of HWINJ (44_hardware_layer.md R223): dropped for `PID >= NP`, under `HwModel = free`, and for
`ST = 3`, which no word that decodes carries (30_encoding.md R95; log 18). -/
def execHwinj (k : Pid) (sel : InjSel) (st : BitVec 2) (s : State) : Res :=
  if s.answersByReference k && st != 3 then .next (inject k sel (HwStatus.ofBits st) s) else .next s

/-! ### The request words taken by themselves (log 9) -/

/-- The hardware layer takes the request `hw_receive_arm(p, ch c)` (44_hardware_layer.md R211). DESIGN CHOICE (log 26):
the layer does not ask whether slot `c` exists or holds a channel. -/
def execHwReceiveArm (p : Pid) (c : Slot) (s : State) : Res :=
  finish (do
    let (_, s) ← hwReceiveArm p c s
    return s)

/-- The hardware layer takes the request `hw_transmit_byte(p, b)` (44_hardware_layer.md R212). -/
def execHwTransmitByte (p : Pid) (b : Byte) (s : State) : Res := .next (hwTransmitByte p b s).2

/-- The hardware layer takes the request `hw_is_ready(p)` (44_hardware_layer.md R213). -/
def execHwIsReady (p : Pid) (s : State) : Res := .next (hwIsReady p s).2

/-- The hardware layer takes the request `hw_unlock_and_abort_receive(p)` (44_hardware_layer.md R214). -/
def execHwUnlockAndAbortReceive (p : Pid) (s : State) : Res := .next (hwUnlockAndAbortReceive p s)

end Sys2Proof.Machine
end

