-- ==== Sys2Proof/Machine/Handlers.lean ====
section
/-! DEFINITION. The interrupt-completion handlers of a channel (42_interrupt_handlers.md R170 to R172). -/

namespace Sys2Proof.Machine

/-- The handler's hardware part: arm, and on a failure unlock, abort and retry once, the second answer discarded
(42_interrupt_handlers.md R170, R171). -/
def rearm (p : Pid) (c : Slot) (s : State) : Except Stop State := do
  let (s1, s) ← hwReceiveArm p c s
  if s1 = .ok then
    return s
  else
    let s := hwUnlockAndAbortReceive p s
    let (_, s) ← hwReceiveArm p c s
    return s

/-- Read `SCR[c]` (10_state.md R27). -/
def loadScratch (c : Slot) (s : State) : Except Stop Byte := s.memRead (.scr c) 0

/-- `on_receive_complete(c)` (42_interrupt_handlers.md R170): the byte is dropped when the buffer is full, and the
re-arm is made in either case. -/
def onReceiveComplete (c : Slot) (s : State) : Except Stop State := do
  let v ← loadScratch c s
  let (_, s) ← push ⟨c, .rx⟩ v s
  rearm (s.chan c).handle c s

/-- `on_transmit_complete(c)` (42_interrupt_handlers.md R172). -/
def onTransmitComplete (c : Slot) (s : State) : Except Stop State := do
  let (r, s) ← pop ⟨c, .tx⟩ s
  match r with
  | none => return s
  | some v => return (hwTransmitByte (s.chan c).handle v s).2

end Sys2Proof.Machine
end

