-- ==== Sys2Proof/Machine/Registry.lean ====
section
/-! DEFINITION. The registry's write and the two interrupt events (43_registry_dispatch.md R190, R193, R194). `lookup`
and the taking of an event stand in Machine/Ops.lean. -/

namespace Sys2Proof.Machine

/-- `register(k, c)` (43_registry_dispatch.md R190). -/
def register (k : Pid) (c : Slot) (s : State) : State := s.setReg k (some c)

/-- The meaning of IRQRX (43_registry_dispatch.md R193). -/
def execIrqRx (k : Pid) (s : State) : Res := finish (takeEvent k (layerRx k) onReceiveComplete s)

/-- The meaning of IRQTX (43_registry_dispatch.md R194). -/
def execIrqTx (k : Pid) (s : State) : Res := finish (takeEvent k (layerTx k) onTransmitComplete s)

end Sys2Proof.Machine
end

