-- ==== Sys2Proof/Machine/Channel.lean ====
section
/-! DEFINITION. The eight commands of the normal context (41_channel_commands.md). Each `…Micro` does the micro-step at
which `UPC` stands, as the command's step list gives it; each `exec…` is the meaning, through `runCommand`. -/

namespace Sys2Proof.Machine

/-- The first micro-step of every command but CONSTRUCT: channel selection, and NOCHAN where it fails
(41_channel_commands.md R140). -/
def selecting (c : Slot) (k : Except Stop State) (s : State) : Except Stop State :=
  if s.selects c then k else .ok (s.endCommand .nochan 0)

/-! ### CONSTRUCT -/

/-- The four refusals of 41_channel_commands.md R141. -/
def constructRejected (c : Slot) (k : Pid) (n : Idx) (s : State) : Bool :=
  decide (s.par.nch ≤ c.val) || (s.chan c).valid || decide (s.par.np ≤ k.val) || n == 0

/-- Step K.1 (41_channel_commands.md R141). -/
def constructMicro (s : State) : Except Stop State :=
  match s.upc with
  | .construct1 c k n =>
    if constructRejected c k n s then .ok (s.endCommand .rejected 0)
    else
      let s := s.setChan c { valid := true, handle := k, cap := n, rxh := 0, rxt := 0, txh := 0, txt := 0 }
      .ok ((register k c s).endCommand .ok 0)
  | _ => .ok s

/-- The meaning of CONSTRUCT (41_channel_commands.md R141). -/
def execConstruct (c : Slot) (k : Pid) (n : Idx) (s : State) : Res :=
  runCommand (.construct c k n) (.construct1 c k n) constructMicro s

/-! ### BEGIN -/

/-- Step B.1 (41_channel_commands.md R142). -/
def beginMicro (s : State) : Except Stop State :=
  match s.upc with
  | .begin1 c => selecting c (do
      let (_, s) ← hwReceiveArm (s.chan c).handle c s
      return s.endCommand .ok 0) s
  | _ => .ok s

/-- The meaning of BEGIN (41_channel_commands.md R142). -/
def execBegin (c : Slot) (s : State) : Res := runCommand (.beginCh c) (.begin1 c) beginMicro s

/-! ### READ -/

/-- Steps R.1 to R.4 (41_channel_commands.md R143). -/
def readMicro (s : State) : Except Stop State :=
  match s.upc with
  | .read1 c => selecting c (do
      let h ← loadHead ⟨c, .rx⟩ s
      return s.setUpc (.read2 c h)) s
  | .read2 c h => do
      let t ← loadTail ⟨c, .rx⟩ s
      return if isEmptyAt h t then s.endCommand .empty 0 else s.setUpc (.read3 c h t)
  | .read3 c h t => do
      let v ← loadByte ⟨c, .rx⟩ t s
      return s.setUpc (.read4 c h t v)
  | .read4 c _ t v => do
      let s ← advanceTail ⟨c, .rx⟩ t s
      return s.endCommand .ok (v.setWidth 16)
  | _ => .ok s

/-- The meaning of READ (41_channel_commands.md R143). -/
def execRead (c : Slot) (s : State) : Res := runCommand (.read c) (.read1 c) readMicro s

/-! ### AVAIL -/

/-- Steps A.1 and A.2 (41_channel_commands.md R146). -/
def availMicro (s : State) : Except Stop State :=
  match s.upc with
  | .avail1 c => selecting c (do
      let h ← loadHead ⟨c, .rx⟩ s
      return s.setUpc (.avail2 c h)) s
  | .avail2 c h => do
      let t ← loadTail ⟨c, .rx⟩ s
      return s.endCommand .ok (if isEmptyAt h t then 0 else 1)
  | _ => .ok s

/-- The meaning of AVAIL (41_channel_commands.md R146). -/
def execAvail (c : Slot) (s : State) : Res := runCommand (.avail c) (.avail1 c) availMicro s

/-! ### RCOUNT -/

/-- Steps C.1 and C.2 (41_channel_commands.md R147). -/
def rcountMicro (s : State) : Except Stop State :=
  match s.upc with
  | .rcount1 c => selecting c (do
      let h ← loadHead ⟨c, .rx⟩ s
      return s.setUpc (.rcount2 c h)) s
  | .rcount2 c h => do
      let t ← loadTail ⟨c, .rx⟩ s
      return s.endCommand .ok (occupancyAt h t (s.cap c))
  | _ => .ok s

/-- The meaning of RCOUNT (41_channel_commands.md R147). -/
def execRcount (c : Slot) (s : State) : Res := runCommand (.rcount c) (.rcount1 c) rcountMicro s

/-! ### FLUSHRX and FLUSHTX -/

/-- Steps F.1 and F.2 (41_channel_commands.md R148). -/
def flushRxMicro (s : State) : Except Stop State :=
  match s.upc with
  | .flushRx1 c => selecting c (do
      let s ← resetFirst ⟨c, .rx⟩ s
      return s.setUpc (.flushRx2 c)) s
  | .flushRx2 c => do
      let s ← resetSecond ⟨c, .rx⟩ s
      return s.endCommand .ok 0
  | _ => .ok s

/-- The meaning of FLUSHRX (41_channel_commands.md R148). -/
def execFlushRx (c : Slot) (s : State) : Res := runCommand (.flushRx c) (.flushRx1 c) flushRxMicro s

/-- Steps G.1 and G.2 (41_channel_commands.md R149). -/
def flushTxMicro (s : State) : Except Stop State :=
  match s.upc with
  | .flushTx1 c => selecting c (do
      let s ← resetFirst ⟨c, .tx⟩ s
      return s.setUpc (.flushTx2 c)) s
  | .flushTx2 c => do
      let s ← resetSecond ⟨c, .tx⟩ s
      return s.endCommand .ok 0
  | _ => .ok s

/-- The meaning of FLUSHTX (41_channel_commands.md R149). -/
def execFlushTx (c : Slot) (s : State) : Res := runCommand (.flushTx c) (.flushTx1 c) flushTxMicro s

/-! ### WRITE -/

/-- Steps W.1 to W.10 (41_channel_commands.md R144). -/
def writeMicro (s : State) : Except Stop State :=
  match s.upc with
  | .write1 c b => selecting c (do
      let h ← loadHead ⟨c, .tx⟩ s
      return s.setUpc (.write2 c b h)) s
  | .write2 c b h => do
      let t ← loadTail ⟨c, .tx⟩ s
      return if isFullAt h t (s.cap c) then s.endCommand .full 0 else s.setUpc (.write3 c b h t)
  | .write3 c b h t => do
      let s ← storeByte ⟨c, .tx⟩ h b s
      return s.setUpc (.write4 c b h t)
  | .write4 c b h t => do
      let s ← advanceHead ⟨c, .tx⟩ h s
      return s.setUpc (.write5 c b h t)
  | .write5 c b h t =>
      let (r, s) := hwIsReady (s.chan c).handle s
      .ok (if r then s.setUpc (.write6 c b h t r) else s.endCommand .ok 0)
  | .write6 c b h t r => do
      let h2 ← loadHead ⟨c, .tx⟩ s
      return s.setUpc (.write7 c b h t r h2)
  | .write7 c b h t r h2 => do
      let t2 ← loadTail ⟨c, .tx⟩ s
      return if isEmptyAt h2 t2 then s.endCommand .ok 0 else s.setUpc (.write8 c b h t r h2 t2)
  | .write8 c b h t r h2 t2 => do
      let v ← loadByte ⟨c, .tx⟩ t2 s
      return s.setUpc (.write9 c b h t r h2 t2 v)
  | .write9 c b h t r h2 t2 v => do
      let s ← advanceTail ⟨c, .tx⟩ t2 s
      return s.setUpc (.write10 c b h t r h2 t2 v)
  | .write10 c _ _ _ _ _ _ v =>
      .ok ((hwTransmitByte (s.chan c).handle v s).2.endCommand .ok 0)
  | _ => .ok s

/-- The meaning of WRITE (41_channel_commands.md R144). -/
def execWrite (c : Slot) (b : Byte) (s : State) : Res := runCommand (.write c b) (.write1 c b) writeMicro s

end Sys2Proof.Machine
end

