-- ==== Sys2Proof/Machine/Dispatch.lean ====
section
/-! DEFINITION. One arm per constructor of `Instr`, each one direct call of the instruction's meaning. -/

namespace Sys2Proof.Machine

def exec (i : Instr) (s : State) : Host.Outcome State Fault Refusal :=
  match i with
  | .construct c k n => Sys2Proof.Machine.execConstruct c k n s
  | .beginCh c => Sys2Proof.Machine.execBegin c s
  | .read c => Sys2Proof.Machine.execRead c s
  | .write c b => Sys2Proof.Machine.execWrite c b s
  | .avail c => Sys2Proof.Machine.execAvail c s
  | .rcount c => Sys2Proof.Machine.execRcount c s
  | .flushRx c => Sys2Proof.Machine.execFlushRx c s
  | .flushTx c => Sys2Proof.Machine.execFlushTx c s
  | .irqRx k => Sys2Proof.Machine.execIrqRx k s
  | .irqTx k => Sys2Proof.Machine.execIrqTx k s
  | .hwrxd k b => Sys2Proof.Machine.execHwrxd k b s
  | .hwinj k sel st => Sys2Proof.Machine.execHwinj k sel st s
  | .hwReceiveArm p c => Sys2Proof.Machine.execHwReceiveArm p c s
  | .hwTransmitByte p b => Sys2Proof.Machine.execHwTransmitByte p b s
  | .hwIsReady p => Sys2Proof.Machine.execHwIsReady p s
  | .hwUnlockAndAbortReceive p => Sys2Proof.Machine.execHwUnlockAndAbortReceive p s

end Sys2Proof.Machine
end

