-- ==== Sys2Proof/Machine/Ports.lean ====
section
/-! DEFINITION. How words reach the block (30_encoding.md R90; log 5): the issuer and the normal context's turn, the
words of the other ports, and the placing of one word where the next step takes it. -/

namespace Sys2Proof.Machine

/-! ### The issuer (41_channel_commands.md R145, log 14) -/

/-- WRITEN is over: its count is `n`, and the issuer goes on with `rest`. -/
def endWriten (n : Nat) (rest : List Issue) (s : State) : Res :=
  .next { s with counts := s.counts ++ [n], cmdQ := rest }

/-- Issue WRITEN's next WRITE command, or end it when no byte is left. -/
def issueWriten (c : Slot) (bs : List Byte) (n : Nat) (rest : List Issue) (s : State) : Res :=
  match bs with
  | [] => endWriten n rest s
  | b :: bs => exec (.write c b) { s with cmdQ := .writenAsked c bs n :: rest }

/-- The status of the last result word is OK. -/
def State.lastOk (s : State) : Bool :=
  match s.results.getLast? with
  | some r => statusField r == Status.ok.code
  | none => false

/-- A word on the command port while `UPC = idle`: the instruction it decodes to, or ILLEGAL (30_encoding.md R95). -/
def commandWord (w : Word) (s : State) : Res :=
  match decodeOn .command w with
  | .ok i => exec i s
  | .error _ => .next (s.putResult .illegal 0)

/-- The issuer's next issue, while no command is in progress; with nothing to issue the block waits
(70_reset_and_hazards.md R280). -/
def issueNext (s : State) : Res :=
  match s.cmdQ with
  | [] => .next s
  | .word w :: rest => commandWord w { s with cmdQ := rest }
  | .writen c bs n :: rest => issueWriten c bs n rest s
  | .writenAsked c bs n :: rest => if s.lastOk then issueWriten c bs (n + 1) rest s else endWriten n rest s

/-- The normal context's turn: the next micro-step of the command in progress, else the issuer's next issue
(00_scope.md R10, 92_eei_decisions.md D28). -/
def normalTurn (s : State) : Res :=
  match s.upc.command with
  | some i => exec i s
  | none => issueNext s

/-! ### The other ports -/

/-- A word on the interrupt or environment port: an illegal one is dropped without trace (30_encoding.md R95). -/
def eventWord (p : Port) (w : Word) (s : State) : Res :=
  match decodeOn p w with
  | .ok i => exec i s
  | .error _ => .next s

/-- A request word that the hardware layer takes by itself (log 9); a word that is no request is never sent
(30_encoding.md R99; log 12). -/
def requestWord (q : Request) (s : State) : Res :=
  match decodeRequest q with
  | .ok i => exec i s
  | .error _ => .refused .illegalRequest

/-- The turn at the head of the list, the others left for later; with none the normal context goes on. -/
def takeTurn (s : State) : Res :=
  match s.turns with
  | [] => normalTurn s
  | .normal :: ts => normalTurn { s with turns := ts }
  | .interrupt w :: ts => eventWord .interrupt w { s with turns := ts }
  | .environment w :: ts => eventWord .environment w { s with turns := ts }
  | .hardware q :: ts => requestWord q { s with turns := ts }

/-- A state with `ENVFAULT = 1` is a fault (44_hardware_layer.md R225); the bit is the reference layer's (R217). -/
def State.faulted (s : State) : Bool := s.envFault && decide (s.par.hwModel = .reference)

/-- One step of a run (00_scope.md R10). -/
def oneStep (s : State) : Res := if s.faulted then .fault .envFault else takeTurn s

/-! ### Placing a word where the next step takes it -/

/-- Put a table word where the next step takes it: a request word or an event or environment word at the head of the
turn list; a command word at the head of the issuer's queue, with the turn to the normal context and no command in
progress, since a command is accepted only then (log 5). -/
def placeWord (s : State) (nbits w : Nat) : State :=
  if nbits = 16 then { s with turns := .hardware (BitVec.ofNat 16 w) :: s.turns }
  else
    let word : Word := BitVec.ofNat 32 w
    match (opField word).extractLsb' 4 4 |>.toNat with
    | 1 => { s with turns := .interrupt word :: s.turns }
    | 2 => { s with turns := .environment word :: s.turns }
    | _ => { s with upc := .idle, cmdQ := .word word :: s.cmdQ, turns := .normal :: s.turns }

end Sys2Proof.Machine
end

