-- ==== Sys2Proof/Machine/Step.lean ====
section
/-! DEFINITION. The step, and the placing of a word where the next step takes it. -/

namespace Sys2Proof.Machine

/-- One step of a run (00_scope.md R10): a micro-step of the command in progress, the start of a command, an event, an
environment word or a request word. -/
def step (s : State) : Host.Outcome State Fault Refusal := oneStep s

/-- `s` with a table word placed where the next step takes it (log 5). -/
def State.withFetchWord (s : State) (nbits w : Nat) : State := placeWord s nbits w

end Sys2Proof.Machine
end

