-- ==== Sys2Proof/Machine/Conditions.lean ====
section
/-! DEFINITION. The five named conditions (60_exceptions.md R240 to R245): `cond <Name>` changes no state and transfers
no control (00_scope.md R7), so a condition is a function of the operation and the state it runs in (log 19). -/

namespace Sys2Proof.Machine

/-- The conditions of 60_exceptions.md R241 to R245. -/
inductive Condition where
  | bufferFull
  | bufferEmpty
  | receiveOverrun
  | hardwareBusyOnRearm
  | unregisteredPeripheral
deriving DecidableEq, Repr

/-- BufferFull, raised by WRITE at step W.2 (60_exceptions.md R241). DESIGN CHOICE (log 31): not where that step
faults. -/
def writeConditions (c : Slot) (b : Byte) (s : State) : List Condition :=
  match s.upc with
  | .write2 c' b' h =>
    match loadTail ⟨c, .tx⟩ s with
    | .ok t => if c' = c ∧ b' = b ∧ isFullAt h t (s.cap c) then [.bufferFull] else []
    | .error _ => []
  | _ => []

/-- BufferEmpty, raised by READ at step R.2 (60_exceptions.md R242). DESIGN CHOICE (log 31): not where that step
faults. -/
def readConditions (c : Slot) (s : State) : List Condition :=
  match s.upc with
  | .read2 c' h =>
    match loadTail ⟨c, .rx⟩ s with
    | .ok t => if c' = c ∧ isEmptyAt h t then [.bufferEmpty] else []
    | .error _ => []
  | _ => []

/-- HardwareBusyOnRearm: the handler's first arm answers busy or error (60_exceptions.md R244). DESIGN CHOICE (log 31):
not where that arm is a double arm, which gets no answer. -/
def rearmConditions (p : Pid) (c : Slot) (s : State) : List Condition :=
  match hwReceiveArm p c s with
  | .ok (st, _) => if st = .ok then [] else [.hardwareBusyOnRearm]
  | .error _ => []

/-- ReceiveOverrun, HardwareBusyOnRearm and UnregisteredPeripheral, raised by IRQRX (60_exceptions.md R243 to R245):
ReceiveOverrun when the handler's push returns false. DESIGN CHOICE (log 31): where the handler faults before its push
has an answer, on a scratch byte without a value or an index out of range, it raises none. -/
def irqRxConditions (k : Pid) (s : State) : List Condition :=
  match lookup k s with
  | none => [.unregisteredPeripheral]
  | some c =>
    match loadScratch c s >>= fun v => push ⟨c, .rx⟩ v s with
    | .ok (pushed, s) => (if pushed then [] else [.receiveOverrun]) ++ rearmConditions (s.chan c).handle c s
    | .error _ => []

/-- UnregisteredPeripheral, raised by IRQTX (60_exceptions.md R245). -/
def irqTxConditions (k : Pid) (s : State) : List Condition :=
  match lookup k s with
  | none => [.unregisteredPeripheral]
  | some _ => []

/-- The conditions an operation raises in a state; every other operation raises none (60_exceptions.md R246). -/
def conditions (i : Instr) (s : State) : List Condition :=
  match i with
  | .write c b => writeConditions c b s
  | .read c => readConditions c s
  | .irqRx k => irqRxConditions k s
  | .irqTx k => irqTxConditions k s
  | .construct _ _ _ | .beginCh _ | .avail _ | .rcount _ | .flushRx _ | .flushTx _ => []
  | .hwrxd _ _ | .hwinj _ _ _ => []
  | .hwReceiveArm _ _ | .hwTransmitByte _ _ | .hwIsReady _ | .hwUnlockAndAbortReceive _ => []

end Sys2Proof.Machine
end

