-- ==== Sys2Proof/Safety.lean ====
section
/-! DEFINITION. The terms the statements use: the invariant of the machine, the ghosts of the spec, the queue a buffer
holds, uninterrupted runs, and what the spec asks of a well-formed environment and a well-booted program. -/

namespace Sys2Proof.Machine

/-! ### Ghosts and names of the spec -/

/-- A state is quiescent when no command is in progress (00_scope.md R10). -/
def State.quiescent (s : State) : Prop := s.upc = .idle

/-- The transmit states of the source's state machine (42_interrupt_handlers.md R173). -/
inductive TxState where
  | idle
  | transmitting
deriving DecidableEq, Repr

/-- The ghost `TXSTATE[c]` (10_state.md R34), which under the reference model is `TXBUSY[HANDLE[c]]`
(42_interrupt_handlers.md R173). DESIGN CHOICE (log 28): it has no value under `HwModel = free`, where a transmit in
flight is not modelled (10_state.md R35) and the spec does not say what the ghost is, nor for a slot without a channel. -/
def State.txState (s : State) (c : Slot) : Option TxState :=
  if (s.chan c).valid && s.answersByReference (s.chan c).handle then
    some (if (s.periph (s.chan c).handle).txBusy then .transmitting else .idle)
  else none

/-- A completion that nothing stands behind (44_hardware_layer.md R224): the reference hardware never produces one.
DESIGN CHOICE (log 30): an event for an identity that is not supported, which has neither bit (44_hardware_layer.md
R217), counts as spurious, and so does any event under `HwModel = free`, where the bits are not kept. -/
def spurious (i : Instr) (s : State) : Bool :=
  match i with
  | .irqRx k => !(s.periph k).rxDone
  | .irqTx k => !(s.periph k).txBusy
  | _ => false

/-! ### What a run takes, and well-booted runs (70_reset_and_hazards.md R282) -/

/-- The instruction the issuer's next issue starts, if it starts one. -/
def State.nextIssue (s : State) : Option Instr :=
  match s.cmdQ with
  | .word w :: _ => (decodeOn .command w).toOption
  | .writen c (b :: _) _ :: _ => some (.write c b)
  | .writenAsked c (b :: _) _ :: _ => if s.lastOk then some (.write c b) else none
  | _ => none

/-- The instruction that the step from `s` runs: the command in progress at its next micro-step, a command it starts, an
event, an environment word or a request word. -/
def State.runs (s : State) : Option Instr :=
  match s.turns with
  | [] | .normal :: _ => s.upc.command <|> s.nextIssue
  | .interrupt w :: _ => (decodeOn .interrupt w).toOption
  | .environment w :: _ => (decodeOn .environment w).toOption
  | .hardware q :: _ => (decodeRequest q).toOption

/-- What a run does that its boot requirements speak of: a command starts; CONSTRUCT does its one micro-step K.1 and so
ends; an event, an environment word or a request word is taken. -/
inductive Happening where
  | starts (i : Instr)
  | builds (c : Slot) (k : Pid) (n : Idx)
  | takes (i : Instr)
deriving DecidableEq, Repr

/-- What happens in the step from `s`, if it is one of these. -/
def State.happens (s : State) : Option Happening :=
  match s.runs with
  | none => none
  | some i =>
    if i.port ≠ .command then some (.takes i)
    else if s.upc = .idle then some (.starts i)
    else match i with
      | .construct c k n => some (.builds c k n)
      | _ => none

/-- What happens in the first `n` steps from `s`, in order. -/
def happenings : Nat → State → List Happening
  | 0, _ => []
  | n + 1, s =>
    s.happens.toList ++
      match step s with
      | .next t => happenings n t
      | .fault _ => []
      | .refused _ => []

/-- The operands of a CONSTRUCT that starts. -/
def Happening.toBuild : Happening → Option (Slot × Pid × Idx)
  | .starts (.construct c k n) => some (c, k, n)
  | _ => none

/-- The operands of a CONSTRUCT that has ended. -/
def Happening.built : Happening → Option (Slot × Pid × Idx)
  | .builds c k n => some (c, k, n)
  | _ => none

/-- A request word taken by itself is no step of a run (00_scope.md R10, log 9). -/
def Happening.isRequest : Happening → Bool
  | .takes i => i.port == .hardware
  | _ => false

/-- What may happen in boot step (2): CONSTRUCTs start and end, and environment words come, which report no
completion. -/
def Happening.constructing : Happening → Bool
  | .starts i => (Happening.starts i).toBuild.isSome
  | .builds _ _ _ => true
  | .takes i => i.port == .environment

/-- What may happen in boot step (3), until the last BEGIN: a BEGIN or a WRITE (which does not need BEGIN) starts, and
events and environment words come. DESIGN CHOICE (log 29): READ, AVAIL, RCOUNT and the flushes may not start before the
last BEGIN; 70_reset_and_hazards.md R282 does not say whether they may. -/
def Happening.beginning : Happening → Bool
  | .starts (.beginCh _) | .starts (.write _ _) => true
  | .starts _ | .builds _ _ _ => false
  | .takes i => i.port != .hardware

/-- What happens before the first happening of a later boot step than (2). -/
def bootStep2 (l : List Happening) : List Happening := l.takeWhile Happening.constructing

/-- What happens from boot step (3) on. -/
def afterStep2 (l : List Happening) : List Happening := l.dropWhile Happening.constructing

/-- What happens in a run, in order, is well-booted (70_reset_and_hazards.md R282): first one CONSTRUCT with legal
operands for each channel, each with its own slot and its own supported peripheral, all of them ended before any
completion event comes and any other command starts; then BEGIN exactly once for each of these channels, before any
command but WRITE; and no CONSTRUCT and no second BEGIN of a channel afterwards. No request word is taken by itself. Boot
step (1) is the platform's. DESIGN CHOICE (log 29), where R282 does not say: a CONSTRUCT after step (2) breaks it, a
refused one too, as do the commands `Happening.beginning` shuts out. -/
def wellBooted (p : Config.Params) (l : List Happening) : Bool :=
  let chans := (bootStep2 l).filterMap Happening.toBuild
  chans == (bootStep2 l).filterMap Happening.built &&
    (chans.map (·.1)).Nodup && (chans.map (·.2.1)).Nodup &&
    chans.all (fun x => x.1.val < p.nch && x.2.1.val < p.np && x.2.2 != 0) &&
    (afterStep2 l).all (fun h => h.toBuild.isNone && h.built.isNone) &&
    chans.all (fun x => ((afterStep2 l).takeWhile Happening.beginning).count (.starts (.beginCh x.1)) == 1 &&
      ((afterStep2 l).dropWhile Happening.beginning).count (.starts (.beginCh x.1)) == 0) &&
    l.all (fun h => !h.isRequest)

/-- The first `n` steps from `s` are a well-booted run: it starts with no channel and no command in progress. -/
def WellBootedFor (n : Nat) (s : State) : Prop :=
  (∀ c, (s.chan c).valid = false) ∧ s.quiescent ∧ wellBooted s.par (happenings n s) = true

/-- The first `n` steps from `s` take no spurious event: a well-formed reference run (44_hardware_layer.md R224; what is
spurious for an unsupported identity is log 30). DESIGN CHOICE (log 30): a request word taken by itself, which is the
model's own step (log 9) and none of 00_scope.md R10, is part of no such run, so that nothing but the block starts a
transmit, as 70_reset_and_hazards.md R286 says of these runs. -/
def WellFormedFor : Nat → State → Prop
  | 0, _ => True
  | n + 1, s =>
    (∀ i, s.runs = some i → spurious i s = false ∧ i.port ≠ .hardware) ∧ ∀ t, step s = .next t → WellFormedFor n t

/-! ### The block's part of the state -/

/-- Two states agree on the block's registers, registry, storage and micro-step position (10_state.md R20). -/
structure SameBlock (s t : State) : Prop where
  chans : t.chans = s.chans
  reg : t.reg = s.reg
  mem : t.mem = s.mem
  upc : t.upc = s.upc

/-- Two states agree on the hardware layer's state (44_hardware_layer.md R217) and on `HWLOG`. -/
structure SameLayer (s t : State) : Prop where
  periphs : t.periphs = s.periphs
  envFault : t.envFault = s.envFault
  draws : t.draws = s.draws
  hwlog : t.hwlog = s.hwlog

/-- Two states agree on the inputs still to come, the parameters and the counts of WRITEN. -/
structure SameInputs (s t : State) : Prop where
  par : t.par = s.par
  counts : t.counts = s.counts
  cmdQ : t.cmdQ = s.cmdQ
  turns : t.turns = s.turns

/-- The normal context has the turn, and `ts` are the turns left after it: the head of the list, or any step when the
list is empty (log 5). -/
def NormalTurn (s : State) (ts : List Turn) : Prop := s.turns = [] ∧ ts = [] ∨ s.turns = .normal :: ts

/-- The forced answers waiting hold no failure for the next call, and `rest` is what waits after it: nothing waits, or a
forced ok is consumed (44_hardware_layer.md R218, R219, R223). -/
def NoFailureForced (waiting rest : List HwStatus) : Prop := waiting = [] ∧ rest = [] ∨ waiting = .ok :: rest

/-- What a double arm leaves (44_hardware_layer.md R218, R225; log 11): `ENVFAULT` is set, the forced ok consumed, the
receive armed before is still armed, no record is logged and no result returned, and the next step is a fault. -/
structure EndsInDoubleArm (p : Pid) (rest : List HwStatus) (s t : State) : Prop where
  envFault : t.envFault = true
  injRx : (t.periph p).injRx = rest
  rxArm : (t.periph p).rxArm = (s.periph p).rxArm
  hwlog : t.hwlog = s.hwlog
  results : t.results = s.results
  step : step t = .fault .envFault

/-- Every byte of memory reads as before. -/
def SameMemory (s t : State) : Prop := ∀ sp i, t.byteAt sp i = s.byteAt sp i

/-- Every byte of memory but byte `i` of space `sp` reads as before. -/
def SameMemoryBut (sp : Space) (i : Idx) (s t : State) : Prop :=
  ∀ sp' i', ¬(sp' = sp ∧ i' = i) → t.byteAt sp' i' = s.byteAt sp' i'

/-- Every peripheral's environment state but `p`'s is as before. -/
def SamePeriphsBut (p : Pid) (s t : State) : Prop := ∀ q, q ≠ p → t.periph q = s.periph q

/-- Every slot's registers but `c`'s are as before. -/
def SameChansBut (c : Slot) (s t : State) : Prop := ∀ d, d ≠ c → t.chan d = s.chan d

/-! ### The queue a buffer holds -/

/-- The live indices `tail, tail+1, ..., head-1` taken mod `N` (20_memory.md R79). -/
def liveIndices (h t n : Idx) : List Idx :=
  (List.range (occupancyAt h t n).toNat).map fun j => BitVec.ofNat 16 ((t.toNat + j) % n.toNat)

/-- The unread bytes of a buffer, oldest first. -/
def contents (b : Buf) (s : State) : List (Option Byte) :=
  (liveIndices (s.head b) (s.tail b) (s.cap b.c)).map (s.byteAt b.space)

/-- A complete primitive on a buffer (40_buffer_engine.md R129). -/
inductive BufOp where
  | push (v : Byte)
  | pop
deriving DecidableEq, Repr

/-- Run complete primitives on one buffer: the bytes accepted, the bytes popped, and the state at the end. -/
def runBuf (b : Buf) : List BufOp → State → Except Stop (List Byte × List Byte × State)
  | [], s => .ok ([], [], s)
  | .push v :: ops, s => do
    let (ok, s) ← push b v s
    let (accepted, popped, s) ← runBuf b ops s
    return (if ok then v :: accepted else accepted, popped, s)
  | .pop :: ops, s => do
    let (r, s) ← pop b s
    let (accepted, popped, s) ← runBuf b ops s
    return (accepted, r.toList ++ popped, s)

/-! ### Uninterrupted runs -/

/-- `n` turns of the instruction `i`, one after the other, with nothing in between. -/
def turnsOf (i : Instr) : Nat → State → Res
  | 0, s => .next s
  | n + 1, s =>
    match exec i s with
    | .next t => turnsOf i n t
    | .fault r => .fault r
    | .refused r => .refused r

/-! ### The invariant -/

/-- The slot a command in progress has selected: `none` before its first micro-step has run. -/
def Upc.selected : Upc → Option Slot
  | .idle | .construct1 _ _ _ | .begin1 _ | .read1 _ | .write1 _ _ | .avail1 _ | .rcount1 _ => none
  | .flushRx1 _ | .flushTx1 _ => none
  | .read2 c _ | .read3 c _ _ | .read4 c _ _ _ | .avail2 c _ | .rcount2 c _ => some c
  | .write2 c _ _ | .write3 c _ _ _ | .write4 c _ _ _ | .write5 c _ _ _ | .write6 c _ _ _ _ => some c
  | .write7 c _ _ _ _ _ | .write8 c _ _ _ _ _ _ | .write9 c _ _ _ _ _ _ _ | .write10 c _ _ _ _ _ _ _ => some c
  | .flushRx2 c | .flushTx2 c => some c

/-- The indices the command in progress keeps in its locals (10_state.md R33). -/
def Upc.indices : Upc → List Idx
  | .idle | .construct1 _ _ _ | .begin1 _ | .read1 _ | .write1 _ _ | .avail1 _ | .rcount1 _ => []
  | .flushRx1 _ | .flushTx1 _ | .flushRx2 _ | .flushTx2 _ => []
  | .read2 _ h | .avail2 _ h | .rcount2 _ h | .write2 _ _ h => [h]
  | .read3 _ h t | .read4 _ h t _ | .write3 _ _ h t | .write4 _ _ h t | .write5 _ _ h t | .write6 _ _ h t _ => [h, t]
  | .write7 _ _ h t _ h2 => [h, t, h2]
  | .write8 _ _ h t _ h2 t2 | .write9 _ _ h t _ h2 t2 _ | .write10 _ _ h t _ h2 t2 _ => [h, t, h2, t2]

/-- A constructed channel lies in a slot the block holds, its handle is a supported identity (10_state.md R22), and its
four indices are in range (10_state.md R25). -/
def ChanInv (s : State) : Prop :=
  ∀ c, (s.chan c).valid = true →
    c.val < s.par.nch ∧ (s.chan c).handle.val < s.par.np ∧ s.bufOk ⟨c, .rx⟩ = true ∧ s.bufOk ⟨c, .tx⟩ = true

/-- The registry invariant (10_state.md R32). -/
def RegInv (s : State) : Prop :=
  ∀ k c, s.regAt k = some c → k.val < s.par.np ∧ (s.chan c).valid = true ∧ (s.chan c).handle = k

/-- A command past its first micro-step runs on a constructed channel, and the indices in its locals are in range. -/
def UpcInv (s : State) : Prop :=
  ∀ c, s.upc.selected = some c →
    (s.chan c).valid = true ∧ ∀ x ∈ s.upc.indices, x.toNat < (s.cap c).toNat

/-- Storage bytes are written only of constructed channels, and only below their capacity (10_state.md R30). -/
def StorageInv (s : State) : Prop :=
  ∀ c i, (s.written (.rxmem c) i = true ∨ s.written (.txmem c) i = true) →
    (s.chan c).valid = true ∧ i.toNat < (s.cap c).toNat

/-- The invariant of the machine. -/
structure Inv (s : State) : Prop where
  par : s.par.wf
  mem : s.mem.wf
  chan : ChanInv s
  reg : RegInv s
  upc : UpcInv s
  storage : StorageInv s

/-- A run is safe for `n` steps when none of them faults or is refused. -/
def SafeFor (n : Nat) (s : State) : Prop :=
  match n with
  | 0 => True
  | n + 1 => ∃ t, step s = .next t ∧ SafeFor n t

end Sys2Proof.Machine
end

