-- ==== Sys2Proof/Certificates/Slice0/Obligations.lean ====
section
/-! DEFINITION. The statements for the provers. Result words are written as numbers (30_encoding.md R97, R98):
0x00000000 is OK, 0x01000000 FULL, 0x02000000 EMPTY, 0x03000000 REJECTED, 0x04000000 NOCHAN, 0x05000000 ILLEGAL. -/

open Sys2Proof Sys2Proof.Machine

/-! ### Reset and encoding -/

/-- 70_reset_and_hazards.md R280 and 10_state.md R40: what reset leaves, whatever the parameters: an empty registry, no
valid slot, an idle `UPC`, no byte of storage or scratch written, the environment of 44_hardware_layer.md R217, a block
that does nothing by itself and for which an event is a no-op of the block. The values of the registers the spec leaves
unspecified (log 2) are not stated. -/
def Obligations.ResetLeavesTheBlockEmptyAndIdle : Prop :=
  ∀ p : Config.Params,
    (∀ k, (State.resetWith p).regAt k = none) ∧
    (∀ c, ((State.resetWith p).chan c).valid = false) ∧
    (State.resetWith p).upc = .idle ∧
    (∀ sp i, (State.resetWith p).written sp i = false) ∧
    (∀ q, ((State.resetWith p).periph q).rxArm = none ∧ ((State.resetWith p).periph q).rxDone = false ∧
      ((State.resetWith p).periph q).txBusy = false ∧ ((State.resetWith p).periph q).line = [] ∧
      ((State.resetWith p).periph q).injRx = [] ∧ ((State.resetWith p).periph q).injTx = []) ∧
    (State.resetWith p).envFault = false ∧
    step (State.resetWith p) = .next (State.resetWith p) ∧
    (∀ k, exec (.irqRx k) (State.resetWith p) = .next (State.resetWith p)) ∧
    (∀ k, exec (.irqTx k) (State.resetWith p) = .next (State.resetWith p))

/-- 30_encoding.md R94, R99: words written out from the encoding tables decode to the operations they stand for. -/
def Obligations.WordsDecodeAsTheTablesSay : Prop :=
  decodeOn .command 0x01F5FFFF = .ok (.construct 15 5 65535) ∧
  decodeOn .command 0x02100000 = .ok (.beginCh 1) ∧
  decodeOn .command 0x03000000 = .ok (.read 0) ∧
  decodeOn .command 0x04100041 = .ok (.write 1 0x41) ∧
  decodeOn .command 0x05000000 = .ok (.avail 0) ∧
  decodeOn .command 0x06000000 = .ok (.rcount 0) ∧
  decodeOn .command 0x07000000 = .ok (.flushRx 0) ∧
  decodeOn .command 0x08300000 = .ok (.flushTx 3) ∧
  decodeOn .interrupt 0x10020000 = .ok (.irqRx 2) ∧
  decodeOn .interrupt 0x11000000 = .ok (.irqTx 0) ∧
  decodeOn .environment 0x2000000A = .ok (.hwrxd 0 0x0A) ∧
  decodeOn .environment 0x21000102 = .ok (.hwinj 0 .tx 2) ∧
  decodeRequest 0x0201 = .ok (.hwReceiveArm 2 1) ∧
  decodeRequest 0x1041 = .ok (.hwTransmitByte 0 0x41) ∧
  decodeRequest 0x2500 = .ok (.hwIsReady 5) ∧
  decodeRequest 0x3200 = .ok (.hwUnlockAndAbortReceive 2)

/-- Decoding the word an instruction encodes to, on the instruction's own port, gives the instruction back: for every
well-formed instruction, with every operand at every value (30_encoding.md R91 to R94, R99). -/
def Obligations.DecodeOfEncodeIsTheInstruction : Prop :=
  ∀ i : Instr, i.wellFormed = true → decodeOn i.port (encode i) = .ok i

/-- 30_encoding.md R95: a word that decodes on a port is exactly the word its instruction encodes to, the instruction
is well formed and belongs to that port; every other word is illegal there. -/
def Obligations.OnlyEncodedWordsDecode : Prop :=
  (∀ (p : Port) (w : Word) (i : Instr), p ≠ .hardware → decodeOn p w = .ok i →
    encode i = w ∧ i.wellFormed = true ∧ i.port = p) ∧
  ∀ (q : Request) (i : Instr), decodeRequest q = .ok i → (encode i).setWidth 16 = q ∧ i.port = .hardware

/-- 30_encoding.md R92: a word that decodes has its format's shape, `W & mask == OP << 24`. -/
def Obligations.DecodedWordsHaveTheirFormatsShape : Prop :=
  ∀ (w : Word) (i : Instr), decodeWord w = .ok i →
    w &&& i.format.mask = (opField w).setWidth 32 <<< 24

/-- 30_encoding.md R95: an illegal word returns ILLEGAL on the command port and is dropped on the interrupt and
environment ports; it changes no state beside that and makes no hardware call. Queue and turns are the model's (log 5). -/
def Obligations.IllegalWordsChangeNothing : Prop :=
  ∀ (s : State) (w : Word) (e : DecodeError) (ts : List Turn), s.faulted = false →
    (∀ q : List Issue, decodeOn .command w = .error e → s.upc = .idle → s.cmdQ = .word w :: q → NormalTurn s ts →
      step s = .next { s with cmdQ := q, turns := ts, results := s.results ++ [0x05000000] }) ∧
    (decodeOn .interrupt w = .error e → s.turns = .interrupt w :: ts → step s = .next { s with turns := ts }) ∧
    (decodeOn .environment w = .error e → s.turns = .environment w :: ts → step s = .next { s with turns := ts })

/-! ### The step -/

/-- A step runs the decoded instruction: a command word at the head of the issuer's queue when no command is in
progress, the command in progress at the normal context's turn (whatever waits in the queue), and an event,
environment or request word at its turn, whatever `UPC` is (00_scope.md R10, 20_memory.md R71). How turns and queue
are held is the model's choice (log 5), and so is a turn of its own for a request word (log 9). -/
def Obligations.StepRunsTheDecodedInstruction : Prop :=
  ∀ (s : State) (i : Instr) (ts : List Turn), s.faulted = false →
    (∀ (w : Word) (q : List Issue), decodeOn .command w = .ok i → s.upc = .idle → s.cmdQ = .word w :: q →
      NormalTurn s ts → step s = exec i { s with cmdQ := q, turns := ts }) ∧
    (s.upc.command = some i → NormalTurn s ts → step s = exec i { s with turns := ts }) ∧
    (∀ w : Word, decodeOn .interrupt w = .ok i → s.turns = .interrupt w :: ts →
      step s = exec i { s with turns := ts }) ∧
    (∀ w : Word, decodeOn .environment w = .ok i → s.turns = .environment w :: ts →
      step s = exec i { s with turns := ts }) ∧
    (∀ q : Request, decodeRequest q = .ok i → s.turns = .hardware q :: ts →
      step s = exec i { s with turns := ts })

/-- The word placed by `withFetchWord` is the one the very next step runs (log 5; a request word by itself is
log 9). -/
def Obligations.PlacedWordIsRunByTheNextStep : Prop :=
  ∀ (s : State) (nbits w : Nat) (i : Instr), s.faulted = false → nbits = 32 ∨ nbits = 16 →
    decodeTableWord nbits w = some i →
    step (s.withFetchWord nbits w) = exec i (if i.port = .command then { s with upc := .idle } else s)

/-- 10_state.md R33: a command starts only when `UPC = idle`, and its start sets `UPC` to its step 1; nothing else
changes. -/
def Obligations.CommandsStartAtTheirFirstStep : Prop :=
  ∀ (s : State), s.upc = .idle → ∀ (c : Slot) (k : Pid) (n : Idx) (b : Byte),
    exec (.construct c k n) s = .next { s with upc := .construct1 c k n } ∧
    exec (.beginCh c) s = .next { s with upc := .begin1 c } ∧
    exec (.read c) s = .next { s with upc := .read1 c } ∧
    exec (.write c b) s = .next { s with upc := .write1 c b } ∧
    exec (.avail c) s = .next { s with upc := .avail1 c } ∧
    exec (.rcount c) s = .next { s with upc := .rcount1 c } ∧
    exec (.flushRx c) s = .next { s with upc := .flushRx1 c } ∧
    exec (.flushTx c) s = .next { s with upc := .flushTx1 c }

/-- 41_channel_commands.md R140: every command but CONSTRUCT, at its first micro-step, is refused with NOCHAN when its
slot does not exist or holds no channel; no other state changes and no hardware call is made. -/
def Obligations.CommandsOnNoChannelAreRefused : Prop :=
  ∀ (s : State) (c : Slot) (b : Byte), s.par.nch ≤ c.val ∨ (s.chan c).valid = false →
    (s.upc = .begin1 c → exec (.beginCh c) s = .next { s with upc := .idle, results := s.results ++ [0x04000000] }) ∧
    (s.upc = .read1 c → exec (.read c) s = .next { s with upc := .idle, results := s.results ++ [0x04000000] }) ∧
    (s.upc = .write1 c b →
      exec (.write c b) s = .next { s with upc := .idle, results := s.results ++ [0x04000000] }) ∧
    (s.upc = .avail1 c → exec (.avail c) s = .next { s with upc := .idle, results := s.results ++ [0x04000000] }) ∧
    (s.upc = .rcount1 c → exec (.rcount c) s = .next { s with upc := .idle, results := s.results ++ [0x04000000] }) ∧
    (s.upc = .flushRx1 c →
      exec (.flushRx c) s = .next { s with upc := .idle, results := s.results ++ [0x04000000] }) ∧
    (s.upc = .flushTx1 c →
      exec (.flushTx c) s = .next { s with upc := .idle, results := s.results ++ [0x04000000] })

/-! ### CONSTRUCT and BEGIN -/

/-- 41_channel_commands.md R141: CONSTRUCT at its one micro-step. With a free slot, a supported peripheral and a
capacity it sets the slot's registers and the registry entry (replacing any earlier one, 43_registry_dispatch.md R190)
and returns OK; otherwise it returns REJECTED. Every other slot, registry entry, byte of memory, the hardware layer,
the call log and the inputs are as before. -/
def Obligations.ConstructBuildsTheChannelOrIsRejected : Prop :=
  ∀ (s : State) (c : Slot) (k : Pid) (n : Idx), s.upc = .construct1 c k n →
    (c.val < s.par.nch → (s.chan c).valid = false → k.val < s.par.np → n ≠ 0 →
      ∃ t, exec (.construct c k n) s = .next t ∧
        t.chan c = { valid := true, handle := k, cap := n, rxh := 0, rxt := 0, txh := 0, txt := 0 } ∧
        SameChansBut c s t ∧ t.regAt k = some c ∧ (∀ j, j ≠ k → t.regAt j = s.regAt j) ∧
        t.upc = .idle ∧ t.results = s.results ++ [0x00000000] ∧
        SameMemory s t ∧ SameLayer s t ∧ SameInputs s t) ∧
    (s.par.nch ≤ c.val ∨ (s.chan c).valid = true ∨ s.par.np ≤ k.val ∨ n = 0 →
      exec (.construct c k n) s = .next { s with upc := .idle, results := s.results ++ [0x03000000] })

/-- 41_channel_commands.md R142: BEGIN on a constructed channel, under the reference layer, with nothing armed and no
failure forced (a forced ok is consumed): one arm request for the channel's scratch byte, answered ok, and OK is
returned. Nothing of the block but `UPC` changes. -/
def Obligations.BeginArmsTheScratchByte : Prop :=
  ∀ (s : State) (c : Slot) (rest : List HwStatus), s.upc = .begin1 c → c.val < s.par.nch → (s.chan c).valid = true →
    (s.chan c).handle.val < s.par.np → s.par.hwModel = .reference →
    (s.periph (s.chan c).handle).rxArm = none → NoFailureForced (s.periph (s.chan c).handle).injRx rest →
    ∃ t, exec (.beginCh c) s = .next t ∧
      t.hwlog = s.hwlog ++ [.receiveArm (s.chan c).handle c .ok] ∧
      t.periph (s.chan c).handle = { s.periph (s.chan c).handle with rxArm := some c, injRx := rest } ∧
      SamePeriphsBut (s.chan c).handle s t ∧ t.envFault = s.envFault ∧ t.draws = s.draws ∧
      t.upc = .idle ∧ t.results = s.results ++ [0x00000000] ∧
      t.chans = s.chans ∧ t.reg = s.reg ∧ SameMemory s t ∧ SameInputs s t

/-- The status of BEGIN's arm request is discarded (41_channel_commands.md R142, 92_eei_decisions.md D17): whatever a
forced answer or a free layer says, BEGIN makes one call, logs it, and returns OK. -/
def Obligations.BeginReturnsOkWhateverTheLayerAnswers : Prop :=
  ∀ (s : State) (c : Slot), s.upc = .begin1 c → c.val < s.par.nch → (s.chan c).valid = true →
    s.par.hwModel = .free ∨
      (∃ st rest, (s.periph (s.chan c).handle).injRx = st :: rest ∧ st ≠ .ok) →
    ∃ t st, exec (.beginCh c) s = .next t ∧ t.hwlog = s.hwlog ++ [.receiveArm (s.chan c).handle c st] ∧
      t.upc = .idle ∧ t.results = s.results ++ [0x00000000] ∧ t.chans = s.chans ∧ t.reg = s.reg ∧ SameMemory s t

/-- 44_hardware_layer.md R225, R218: a state with `ENVFAULT = 1` under the reference layer is a fault, whatever comes
next, so no step clears the bit. Every arm request made while a receive is armed, with no failure forced (a forced ok
is consumed first), sets it, is given no answer (no record is logged, no result returned), and no step is possible
afterwards: BEGIN twice or between a delivery and its event (70_reset_and_hazards.md R284), the handler's arm in IRQRX,
and an arm request by itself (log 9), whatever slot it names (log 26). How the operation ends is log 11. -/
def Obligations.DoubleArmFaultsTheRun : Prop :=
  (∀ s : State, s.par.hwModel = .reference → s.envFault = true → step s = .fault .envFault) ∧
  ∀ (s : State) (p : Pid) (c : Slot) (rest : List HwStatus), p.val < s.par.np → s.par.hwModel = .reference →
    (s.periph p).rxArm ≠ none → NoFailureForced (s.periph p).injRx rest →
    (s.upc = .begin1 c → c.val < s.par.nch → (s.chan c).valid = true → (s.chan c).handle = p →
      ∃ t, exec (.beginCh c) s = .next t ∧ t.upc = s.upc ∧ EndsInDoubleArm p rest s t) ∧
    (∀ k v, k.val < s.par.np → s.regAt k = some c → (s.chan c).handle = p → s.bufOk ⟨c, .rx⟩ = true →
      s.byteAt (.scr c) 0 = some v →
      ∃ t, exec (.irqRx k) s = .next t ∧ EndsInDoubleArm p rest s t) ∧
    ∃ t, exec (.hwReceiveArm p c) s = .next t ∧ EndsInDoubleArm p rest s t

/-! ### The receive side of the normal context -/

/-- 41_channel_commands.md R143: the four micro-steps of READ, each with all it changes. -/
def Obligations.ReadFollowsItsStepList : Prop :=
  ∀ (s : State) (c : Slot), s.bufOk ⟨c, .rx⟩ = true →
    (s.upc = .read1 c → c.val < s.par.nch → (s.chan c).valid = true →
      exec (.read c) s = .next { s with upc := .read2 c (s.chan c).rxh }) ∧
    (∀ h, s.upc = .read2 c h → h = (s.chan c).rxt →
      exec (.read c) s = .next { s with upc := .idle, results := s.results ++ [0x02000000] }) ∧
    (∀ h, s.upc = .read2 c h → h ≠ (s.chan c).rxt →
      exec (.read c) s = .next { s with upc := .read3 c h (s.chan c).rxt }) ∧
    (∀ h t v, s.upc = .read3 c h t → t.toNat < (s.chan c).cap.toNat → s.byteAt (.rxmem c) t = some v →
      exec (.read c) s = .next { s with upc := .read4 c h t v }) ∧
    (∀ h t v, s.upc = .read4 c h t v →
      exec (.read c) s = .next { s.setChan c { s.chan c with
          rxt := BitVec.ofNat 16 ((t.toNat + 1) % (s.chan c).cap.toNat) } with
        upc := .idle, results := s.results ++ [v.setWidth 32] })

/-- 41_channel_commands.md R143: READ with nothing in between. On a non-empty buffer it takes its start and four
micro-steps, returns the oldest byte and advances `RXT`; on an empty one it takes its start and two micro-steps and
returns EMPTY. Nothing else changes: no storage byte, no other register, no hardware call. -/
def Obligations.ReadReturnsTheOldestByteOrEmpty : Prop :=
  ∀ (s : State) (c : Slot), s.upc = .idle → c.val < s.par.nch → (s.chan c).valid = true →
    s.bufOk ⟨c, .rx⟩ = true →
    (∀ v, (s.chan c).rxh ≠ (s.chan c).rxt → s.byteAt (.rxmem c) (s.chan c).rxt = some v →
      turnsOf (.read c) 5 s = .next { s.setChan c { s.chan c with
          rxt := BitVec.ofNat 16 (((s.chan c).rxt.toNat + 1) % (s.chan c).cap.toNat) } with
        results := s.results ++ [v.setWidth 32] }) ∧
    ((s.chan c).rxh = (s.chan c).rxt →
      turnsOf (.read c) 3 s = .next { s with results := s.results ++ [0x02000000] })

/-- 41_channel_commands.md R146: AVAIL returns 1 exactly when the RX buffer is non-empty, and changes nothing else;
its two micro-steps and its uninterrupted run. -/
def Obligations.AvailTellsWhetherTheBufferIsNonEmpty : Prop :=
  ∀ (s : State) (c : Slot), s.bufOk ⟨c, .rx⟩ = true →
    (s.upc = .avail1 c → c.val < s.par.nch → (s.chan c).valid = true →
      exec (.avail c) s = .next { s with upc := .avail2 c (s.chan c).rxh }) ∧
    (∀ h, s.upc = .avail2 c h →
      exec (.avail c) s = .next { s with
        upc := .idle, results := s.results ++ [if h ≠ (s.chan c).rxt then 0x00000001 else 0x00000000] }) ∧
    (s.upc = .idle → c.val < s.par.nch → (s.chan c).valid = true →
      turnsOf (.avail c) 3 s = .next { s with
        results := s.results ++ [if (s.chan c).rxh ≠ (s.chan c).rxt then 0x00000001 else 0x00000000] })

/-- 41_channel_commands.md R147, 40_buffer_engine.md R125: RCOUNT returns `(h - t + N) mod N`, computed over the
integers, and changes nothing else; its two micro-steps and its uninterrupted run. -/
def Obligations.RcountReturnsTheOccupancy : Prop :=
  ∀ (s : State) (c : Slot), s.bufOk ⟨c, .rx⟩ = true →
    (s.upc = .rcount1 c → c.val < s.par.nch → (s.chan c).valid = true →
      exec (.rcount c) s = .next { s with upc := .rcount2 c (s.chan c).rxh }) ∧
    (∀ h, s.upc = .rcount2 c h → h.toNat < (s.chan c).cap.toNat →
      exec (.rcount c) s = .next { s with upc := .idle, results := s.results ++ [BitVec.ofInt 32
        (((h.toNat : Int) - (s.chan c).rxt.toNat + (s.chan c).cap.toNat) % (s.chan c).cap.toNat)] }) ∧
    (s.upc = .idle → c.val < s.par.nch → (s.chan c).valid = true →
      turnsOf (.rcount c) 3 s = .next { s with results := s.results ++ [BitVec.ofInt 32
        ((((s.chan c).rxh.toNat : Int) - (s.chan c).rxt.toNat + (s.chan c).cap.toNat)
          % (s.chan c).cap.toNat)] })

/-- 41_channel_commands.md R148, 40_buffer_engine.md R126: the two stores of FLUSHRX, in the order `FLUSH_ORDER` says,
and its uninterrupted run; storage, scratch, the hardware layer and everything else stay (70_reset_and_hazards.md
R290). -/
def Obligations.FlushRxStoresZeroTwiceInFlushOrder : Prop :=
  ∀ (s : State) (c : Slot), s.bufOk ⟨c, .rx⟩ = true →
    (s.upc = .flushRx1 c → c.val < s.par.nch → (s.chan c).valid = true →
      exec (.flushRx c) s = .next { s.setChan c (match s.par.flushOrder with
          | .headFirst => { s.chan c with rxh := 0 }
          | .tailFirst => { s.chan c with rxt := 0 }) with upc := .flushRx2 c }) ∧
    (s.upc = .flushRx2 c →
      exec (.flushRx c) s = .next { s.setChan c (match s.par.flushOrder with
          | .headFirst => { s.chan c with rxt := 0 }
          | .tailFirst => { s.chan c with rxh := 0 }) with
        upc := .idle, results := s.results ++ [0x00000000] }) ∧
    (s.upc = .idle → c.val < s.par.nch → (s.chan c).valid = true →
      turnsOf (.flushRx c) 3 s = .next { s.setChan c { s.chan c with rxh := 0, rxt := 0 } with
        results := s.results ++ [0x00000000] })

/-! ### The transmit side of the normal context -/

/-- 41_channel_commands.md R149, 40_buffer_engine.md R126: the two stores of FLUSHTX, in the order `FLUSH_ORDER` says,
and its uninterrupted run; storage, scratch, the hardware layer (a byte in flight too, 70_reset_and_hazards.md R290)
and everything else stay. -/
def Obligations.FlushTxStoresZeroTwiceInFlushOrder : Prop :=
  ∀ (s : State) (c : Slot), s.bufOk ⟨c, .tx⟩ = true →
    (s.upc = .flushTx1 c → c.val < s.par.nch → (s.chan c).valid = true →
      exec (.flushTx c) s = .next { s.setChan c (match s.par.flushOrder with
          | .headFirst => { s.chan c with txh := 0 }
          | .tailFirst => { s.chan c with txt := 0 }) with upc := .flushTx2 c }) ∧
    (s.upc = .flushTx2 c →
      exec (.flushTx c) s = .next { s.setChan c (match s.par.flushOrder with
          | .headFirst => { s.chan c with txt := 0 }
          | .tailFirst => { s.chan c with txh := 0 }) with
        upc := .idle, results := s.results ++ [0x00000000] }) ∧
    (s.upc = .idle → c.val < s.par.nch → (s.chan c).valid = true →
      turnsOf (.flushTx c) 3 s = .next { s.setChan c { s.chan c with txh := 0, txt := 0 } with
        results := s.results ++ [0x00000000] })

/-- 41_channel_commands.md R144, steps W.1 to W.4: the push of WRITE. W.3 stores the byte at the head it loaded, and no
other byte of memory changes; W.4 then advances `TXH`. -/
def Obligations.WritePushFollowsItsStepList : Prop :=
  ∀ (s : State) (c : Slot) (b : Byte), s.bufOk ⟨c, .tx⟩ = true →
    (s.upc = .write1 c b → c.val < s.par.nch → (s.chan c).valid = true →
      exec (.write c b) s = .next { s with upc := .write2 c b (s.chan c).txh }) ∧
    (∀ h, s.upc = .write2 c b h → (h.toNat + 1) % (s.chan c).cap.toNat = (s.chan c).txt.toNat →
      exec (.write c b) s = .next { s with upc := .idle, results := s.results ++ [0x01000000] }) ∧
    (∀ h, s.upc = .write2 c b h → (h.toNat + 1) % (s.chan c).cap.toNat ≠ (s.chan c).txt.toNat →
      exec (.write c b) s = .next { s with upc := .write3 c b h (s.chan c).txt }) ∧
    (∀ h t, s.upc = .write3 c b h t → h.toNat < (s.chan c).cap.toNat →
      ∃ u, exec (.write c b) s = .next u ∧ u.byteAt (.txmem c) h = some b ∧ SameMemoryBut (.txmem c) h s u ∧
        u = { s with mem := u.mem, upc := .write4 c b h t }) ∧
    (∀ h t, s.upc = .write4 c b h t →
      exec (.write c b) s = .next { s.setChan c { s.chan c with
          txh := BitVec.ofNat 16 ((h.toNat + 1) % (s.chan c).cap.toNat) } with upc := .write5 c b h t })

/-- 41_channel_commands.md R144, steps W.5 to W.10: whether to start a transmission is decided by the answer of
`hw_is_ready` alone; the pop then loads the byte at `TXT` and advances `TXT`, and the byte is handed to the hardware
layer, whose answer is discarded. What the two calls answer is stated of the calls themselves. -/
def Obligations.WriteKickOffFollowsItsStepList : Prop :=
  ∀ (s : State) (c : Slot) (b : Byte) (h t : Idx) (r : Bool),
    (s.upc = .write5 c b h t → (hwIsReady (s.chan c).handle s).1 = false →
      exec (.write c b) s = .next { (hwIsReady (s.chan c).handle s).2 with
        upc := .idle, results := s.results ++ [0x00000000] }) ∧
    (s.upc = .write5 c b h t → (hwIsReady (s.chan c).handle s).1 = true →
      exec (.write c b) s = .next { (hwIsReady (s.chan c).handle s).2 with upc := .write6 c b h t true }) ∧
    (s.upc = .write6 c b h t r → s.bufOk ⟨c, .tx⟩ = true →
      exec (.write c b) s = .next { s with upc := .write7 c b h t r (s.chan c).txh }) ∧
    (∀ h2, s.upc = .write7 c b h t r h2 → s.bufOk ⟨c, .tx⟩ = true → h2 = (s.chan c).txt →
      exec (.write c b) s = .next { s with upc := .idle, results := s.results ++ [0x00000000] }) ∧
    (∀ h2, s.upc = .write7 c b h t r h2 → s.bufOk ⟨c, .tx⟩ = true → h2 ≠ (s.chan c).txt →
      exec (.write c b) s = .next { s with upc := .write8 c b h t r h2 (s.chan c).txt }) ∧
    (∀ h2 t2 v, s.upc = .write8 c b h t r h2 t2 → s.bufOk ⟨c, .tx⟩ = true → t2.toNat < (s.chan c).cap.toNat →
      s.byteAt (.txmem c) t2 = some v →
      exec (.write c b) s = .next { s with upc := .write9 c b h t r h2 t2 v }) ∧
    (∀ h2 t2 v, s.upc = .write9 c b h t r h2 t2 v → s.bufOk ⟨c, .tx⟩ = true →
      exec (.write c b) s = .next { s.setChan c { s.chan c with
          txt := BitVec.ofNat 16 ((t2.toNat + 1) % (s.chan c).cap.toNat) } with
        upc := .write10 c b h t r h2 t2 v }) ∧
    (∀ h2 t2 v, s.upc = .write10 c b h t r h2 t2 v →
      exec (.write c b) s = .next { (hwTransmitByte (s.chan c).handle v s).2 with
        upc := .idle, results := s.results ++ [0x00000000] })

/-- 60_exceptions.md R241, 41_channel_commands.md R144: WRITE on a full TX buffer, with nothing in between, returns
FULL after its start and two micro-steps; nothing else changes and no hardware call is made. -/
def Obligations.WriteOnAFullBufferReturnsFull : Prop :=
  ∀ (s : State) (c : Slot) (b : Byte), s.upc = .idle → c.val < s.par.nch → (s.chan c).valid = true →
    s.bufOk ⟨c, .tx⟩ = true → ((s.chan c).txh.toNat + 1) % (s.chan c).cap.toNat = (s.chan c).txt.toNat →
    turnsOf (.write c b) 3 s = .next { s with results := s.results ++ [0x01000000] }

/-- 41_channel_commands.md R144 under the reference layer, with nothing in between, while a transmit is in flight: the
byte is queued at the old head, `TXH` advances, the one call is `hw_is_ready`, answered 0, and OK is returned. -/
def Obligations.WriteQueuesTheByteWhileBusy : Prop :=
  ∀ (s : State) (c : Slot) (b : Byte), s.upc = .idle → c.val < s.par.nch → (s.chan c).valid = true →
    s.bufOk ⟨c, .tx⟩ = true → ((s.chan c).txh.toNat + 1) % (s.chan c).cap.toNat ≠ (s.chan c).txt.toNat →
    s.par.hwModel = .reference → (s.chan c).handle.val < s.par.np → (s.periph (s.chan c).handle).txBusy = true →
    ∃ t, turnsOf (.write c b) 6 s = .next t ∧
      t.chan c = { s.chan c with txh := BitVec.ofNat 16 (((s.chan c).txh.toNat + 1) % (s.chan c).cap.toNat) } ∧
      SameChansBut c s t ∧ t.reg = s.reg ∧ t.upc = .idle ∧
      t.byteAt (.txmem c) (s.chan c).txh = some b ∧ SameMemoryBut (.txmem c) (s.chan c).txh s t ∧
      t.results = s.results ++ [0x00000000] ∧ t.hwlog = s.hwlog ++ [.isReady (s.chan c).handle false] ∧
      t.periphs = s.periphs ∧ t.envFault = s.envFault ∧ t.draws = s.draws ∧ SameInputs s t

/-- 41_channel_commands.md R144 under the reference layer, with nothing in between, on an idle peripheral with no
answer forced: the byte is queued, then the OLDEST byte of the buffer is popped and submitted (the new byte itself when
the buffer was empty), the peripheral is busy with it, and OK is returned. -/
def Obligations.WriteSubmitsTheOldestByteWhenIdle : Prop :=
  ∀ (s : State) (c : Slot) (b v : Byte), s.upc = .idle → c.val < s.par.nch → (s.chan c).valid = true →
    s.bufOk ⟨c, .tx⟩ = true → ((s.chan c).txh.toNat + 1) % (s.chan c).cap.toNat ≠ (s.chan c).txt.toNat →
    s.par.hwModel = .reference → (s.chan c).handle.val < s.par.np → (s.periph (s.chan c).handle).txBusy = false →
    (s.periph (s.chan c).handle).injTx = [] →
    ((s.chan c).txh = (s.chan c).txt → v = b) →
    ((s.chan c).txh ≠ (s.chan c).txt → s.byteAt (.txmem c) (s.chan c).txt = some v) →
    ∃ t, turnsOf (.write c b) 11 s = .next t ∧
      t.chan c = { s.chan c with
        txh := BitVec.ofNat 16 (((s.chan c).txh.toNat + 1) % (s.chan c).cap.toNat),
        txt := BitVec.ofNat 16 (((s.chan c).txt.toNat + 1) % (s.chan c).cap.toNat) } ∧
      SameChansBut c s t ∧ t.reg = s.reg ∧ t.upc = .idle ∧
      t.byteAt (.txmem c) (s.chan c).txh = some b ∧ SameMemoryBut (.txmem c) (s.chan c).txh s t ∧
      t.results = s.results ++ [0x00000000] ∧
      t.hwlog = s.hwlog ++ [.isReady (s.chan c).handle true, .transmitByte (s.chan c).handle v .ok] ∧
      t.periph (s.chan c).handle = { s.periph (s.chan c).handle with txBusy := true, txCur := v } ∧
      SamePeriphsBut (s.chan c).handle s t ∧ t.envFault = s.envFault ∧ t.draws = s.draws ∧ SameInputs s t

/-- 30_encoding.md R102, 41_channel_commands.md R145: the issuer's turns of WRITEN while no command is in progress,
whatever turns are still to come. With no byte left it gives its count; with a byte left it issues the WRITE of the
next byte; after an OK it counts one and goes on; after any other status it gives its count and issues no more. The
queue is the model's (log 14). -/
def Obligations.WritenIssuesUntilTheFirstFailure : Prop :=
  ∀ (s : State) (c : Slot) (n : Nat) (b : Byte) (bs : List Byte) (r : Word) (rs : List Word) (q : List Issue)
    (ts : List Turn), s.faulted = false → s.upc = .idle → NormalTurn s ts →
    (s.cmdQ = .writen c [] n :: q →
      step s = .next { s with turns := ts, cmdQ := q, counts := s.counts ++ [n] }) ∧
    (s.cmdQ = .writen c (b :: bs) n :: q →
      step s = .next { s with turns := ts, cmdQ := .writenAsked c bs n :: q, upc := .write1 c b }) ∧
    (s.cmdQ = .writenAsked c (b :: bs) n :: q → s.results = rs ++ [r] → r >>> 24 = 0 →
      step s = .next { s with turns := ts, cmdQ := .writenAsked c bs (n + 1) :: q, upc := .write1 c b }) ∧
    (s.cmdQ = .writenAsked c [] n :: q → s.results = rs ++ [r] → r >>> 24 = 0 →
      step s = .next { s with turns := ts, cmdQ := q, counts := s.counts ++ [n + 1] }) ∧
    (s.cmdQ = .writenAsked c bs n :: q → s.results = rs ++ [r] → r >>> 24 ≠ 0 →
      step s = .next { s with turns := ts, cmdQ := q, counts := s.counts ++ [n] })

/-! ### The interrupt events -/

/-- 42_interrupt_handlers.md R170, 43_registry_dispatch.md R193: what IRQRX does to the block, whatever the hardware
layer answers: the scratch byte is pushed into the RX buffer of the channel the registry names, or dropped when that
buffer is full; nothing else of the block changes, `UPC` and the results included. Where the arm is a double arm, which
gets no answer (44_hardware_layer.md R218, R225), that the step answers a next state with the push kept is the model's
reading (log 11). `VALID[c]` is not read (log 17). -/
def Obligations.IrqRxPushesTheScratchByte : Prop :=
  ∀ (s : State) (k : Pid) (c : Slot) (v : Byte), k.val < s.par.np → s.regAt k = some c →
    s.bufOk ⟨c, .rx⟩ = true → s.byteAt (.scr c) 0 = some v →
    ∃ t, exec (.irqRx k) s = .next t ∧ SameChansBut c s t ∧ t.reg = s.reg ∧ t.upc = s.upc ∧
      t.results = s.results ∧ SameInputs s t ∧
      (((s.chan c).rxh.toNat + 1) % (s.chan c).cap.toNat = (s.chan c).rxt.toNat →
        t.chan c = s.chan c ∧ SameMemory s t) ∧
      (((s.chan c).rxh.toNat + 1) % (s.chan c).cap.toNat ≠ (s.chan c).rxt.toNat →
        t.chan c = { s.chan c with
          rxh := BitVec.ofNat 16 (((s.chan c).rxh.toNat + 1) % (s.chan c).cap.toNat) } ∧
        t.byteAt (.rxmem c) (s.chan c).rxh = some v ∧ SameMemoryBut (.rxmem c) (s.chan c).rxh s t)

/-- 42_interrupt_handlers.md R170, 44_hardware_layer.md R218, R224: the re-arm of a well-behaved IRQRX under the
reference layer (a completion pending or not, nothing armed, no failure forced, a forced ok being consumed), made
whether or not the byte was dropped: the pending completion is consumed, one arm request for the channel's scratch byte
is logged, and a receive is armed. `VALID[c]` is not read (log 17). -/
def Obligations.IrqRxRearmsUnconditionally : Prop :=
  ∀ (s : State) (k : Pid) (c : Slot) (v : Byte) (rest : List HwStatus),
    k.val < s.par.np → s.regAt k = some c → (s.chan c).handle = k →
    s.bufOk ⟨c, .rx⟩ = true → s.byteAt (.scr c) 0 = some v → s.par.hwModel = .reference →
    (s.periph k).rxArm = none → NoFailureForced (s.periph k).injRx rest →
    ∃ t, exec (.irqRx k) s = .next t ∧ t.hwlog = s.hwlog ++ [.receiveArm k c .ok] ∧
      t.periph k = { s.periph k with rxDone := false, rxArm := some c, injRx := rest } ∧
      SamePeriphsBut k s t ∧ t.envFault = s.envFault ∧ t.draws = s.draws

/-- 42_interrupt_handlers.md R171: a first arm that fails, busy and error alike, is followed by
`hw_unlock_and_abort_receive` and exactly one retry. If the retry meets no forced failure (a forced ok is consumed) a
receive is armed; if it fails too, nothing is armed and nothing more is done. `VALID[c]` is not read (log 17). -/
def Obligations.FailedRearmIsRetriedExactlyOnce : Prop :=
  ∀ (s : State) (k : Pid) (c : Slot) (v : Byte) (st1 : HwStatus) (rest rest2 : List HwStatus),
    k.val < s.par.np → s.regAt k = some c → (s.chan c).handle = k → s.bufOk ⟨c, .rx⟩ = true →
    s.byteAt (.scr c) 0 = some v → s.par.hwModel = .reference →
    (s.periph k).injRx = st1 :: rest → st1 ≠ .ok →
    (NoFailureForced rest rest2 → ∃ t, exec (.irqRx k) s = .next t ∧
      t.hwlog = s.hwlog ++ [.receiveArm k c st1, .unlockAndAbortReceive k, .receiveArm k c .ok] ∧
      t.periph k = { s.periph k with rxDone := false, rxArm := some c, injRx := rest2 } ∧
      SamePeriphsBut k s t ∧ t.envFault = s.envFault) ∧
    (∀ st2, rest = st2 :: rest2 → st2 ≠ .ok → ∃ t, exec (.irqRx k) s = .next t ∧
      t.hwlog = s.hwlog ++ [.receiveArm k c st1, .unlockAndAbortReceive k, .receiveArm k c st2] ∧
      t.periph k = { s.periph k with rxDone := false, rxArm := none, injRx := rest2 } ∧
      SamePeriphsBut k s t ∧ t.envFault = s.envFault)

/-- 42_interrupt_handlers.md R171, for every hardware layer: the calls one IRQRX makes are `arm` alone, answered ok, or
`arm, unlock_and_abort, arm` after a first answer that is not ok, busy and error alike; or the run is faulted by a
double arm, and then no call is logged. Under the reference layer an arm is answered ok only with nothing armed, fails
only where that failure was forced, and is the double arm only while a receive is armed: a double arm is never answered
(44_hardware_layer.md R218, R225). How a double arm ends is log 11; `VALID[c]` is not read (log 17). -/
def Obligations.IrqRxMakesOneOfTwoCallSequences : Prop :=
  ∀ (s t : State) (k : Pid) (c : Slot), s.envFault = false → k.val < s.par.np → s.regAt k = some c →
    exec (.irqRx k) s = .next t →
    (s.par.hwModel = .reference ∧ (s.chan c).handle.val < s.par.np ∧ (s.periph (s.chan c).handle).rxArm ≠ none ∧
      (∃ rest, NoFailureForced (s.periph (s.chan c).handle).injRx rest) ∧
      t.envFault = true ∧ t.hwlog = s.hwlog) ∨
    (t.envFault = false ∧ t.hwlog = s.hwlog ++ [.receiveArm (s.chan c).handle c .ok] ∧
      (s.par.hwModel = .reference → (s.chan c).handle.val < s.par.np →
        (s.periph (s.chan c).handle).rxArm = none)) ∨
    (t.envFault = false ∧ ∃ st1 st2, st1 ≠ .ok ∧ t.hwlog = s.hwlog ++ [.receiveArm (s.chan c).handle c st1,
        .unlockAndAbortReceive (s.chan c).handle, .receiveArm (s.chan c).handle c st2] ∧
      (s.par.hwModel = .reference → (s.chan c).handle.val < s.par.np →
        ∃ rest, (s.periph (s.chan c).handle).injRx = st1 :: rest))

/-- 42_interrupt_handlers.md R172, 43_registry_dispatch.md R194: IRQTX on a non-empty TX buffer pops the oldest byte and
hands it to the hardware layer; on an empty one it changes nothing of the block and makes no call. Nothing else of the
block changes, and no byte of memory. `VALID[c]` is not read (log 17). -/
def Obligations.IrqTxPopsTheOldestByte : Prop :=
  ∀ (s : State) (k : Pid) (c : Slot), k.val < s.par.np → s.regAt k = some c → s.bufOk ⟨c, .tx⟩ = true →
    (∀ v, (s.chan c).txh ≠ (s.chan c).txt → s.byteAt (.txmem c) (s.chan c).txt = some v →
      ∃ t st, exec (.irqTx k) s = .next t ∧
        t.chan c = { s.chan c with
          txt := BitVec.ofNat 16 (((s.chan c).txt.toNat + 1) % (s.chan c).cap.toNat) } ∧
        SameChansBut c s t ∧ t.reg = s.reg ∧ t.upc = s.upc ∧ SameMemory s t ∧ t.results = s.results ∧
        SameInputs s t ∧ t.envFault = s.envFault ∧
        t.hwlog = s.hwlog ++ [.transmitByte (s.chan c).handle v st]) ∧
    ((s.chan c).txh = (s.chan c).txt →
      ∃ t, exec (.irqTx k) s = .next t ∧ t.chans = s.chans ∧ t.reg = s.reg ∧ t.upc = s.upc ∧ SameMemory s t ∧
        t.results = s.results ∧ SameInputs s t ∧ t.envFault = s.envFault ∧ t.hwlog = s.hwlog)

/-- 44_hardware_layer.md R224, R219: the reference layer's part in IRQTX. A byte in flight goes to the line first; with
none in flight (a spurious event) the line stays as it is. Then the peripheral is busy with the popped byte; or idle,
that byte lost, where a failure was forced; or idle where the TX buffer was empty. `VALID[c]` is not read (log 17). -/
def Obligations.IrqTxCompletesTheByteInFlight : Prop :=
  ∀ (s : State) (k : Pid) (c : Slot), k.val < s.par.np → s.regAt k = some c → (s.chan c).handle = k →
    s.bufOk ⟨c, .tx⟩ = true → s.par.hwModel = .reference →
    ∀ line : List Byte, ((s.periph k).txBusy = true → line = (s.periph k).line ++ [(s.periph k).txCur]) →
    ((s.periph k).txBusy = false → line = (s.periph k).line) →
    (∀ v rest, (s.chan c).txh ≠ (s.chan c).txt → s.byteAt (.txmem c) (s.chan c).txt = some v →
      (NoFailureForced (s.periph k).injTx rest → ∃ t, exec (.irqTx k) s = .next t ∧
        t.periph k = { s.periph k with line := line, txBusy := true, txCur := v, injTx := rest } ∧
        SamePeriphsBut k s t ∧ t.hwlog = s.hwlog ++ [.transmitByte k v .ok]) ∧
      (∀ st, (s.periph k).injTx = st :: rest → st ≠ .ok → ∃ t, exec (.irqTx k) s = .next t ∧
        t.periph k = { s.periph k with line := line, txBusy := false, injTx := rest } ∧
        SamePeriphsBut k s t ∧ t.hwlog = s.hwlog ++ [.transmitByte k v st])) ∧
    ((s.chan c).txh = (s.chan c).txt →
      ∃ t, exec (.irqTx k) s = .next t ∧
        t.periph k = { s.periph k with line := line, txBusy := false } ∧
        SamePeriphsBut k s t ∧ t.hwlog = s.hwlog)

/-- 60_exceptions.md R245: an event for an identity that is not supported or has no channel is the condition
UnregisteredPeripheral and no other; it changes nothing of the block, makes no hardware call and returns nothing. -/
def Obligations.UnregisteredEventsAreIgnored : Prop :=
  ∀ (s : State) (k : Pid), s.par.np ≤ k.val ∨ s.regAt k = none →
    conditions (.irqRx k) s = [.unregisteredPeripheral] ∧ conditions (.irqTx k) s = [.unregisteredPeripheral] ∧
    (∃ t, exec (.irqRx k) s = .next t ∧ SameBlock s t ∧ t.hwlog = s.hwlog ∧ t.results = s.results ∧
      SameInputs s t) ∧
    (∃ t, exec (.irqTx k) s = .next t ∧ SameBlock s t ∧ t.hwlog = s.hwlog ∧ t.results = s.results ∧
      SameInputs s t)

/-- 93_implementation_defined.md U7, 10_state.md R40: what reading a byte that nothing has written does, for the scratch
byte in IRQRX (whatever the RX buffer holds, log 23) and a byte of storage in READ's step R.3, WRITE's step W.8 and
IRQTX. Where `par.unwritten` is `fault` the read is a fault; where it is `anyValue`, the other treatment U7 allows and the
one `State.reset` has (log 27), the byte has some value, which is free, and the operation goes on with it. Where IRQRX's
arm is a double arm, that it answers a next state with the push kept is log 11. `VALID[c]` is not read (log 17). -/
def Obligations.UnwrittenBytesFaultOrHoldAnyValue : Prop :=
  ∀ (s : State) (c : Slot),
    (s.par.unwritten = .fault →
      (∀ k, k.val < s.par.np → s.regAt k = some c → s.written (.scr c) 0 = false →
        exec (.irqRx k) s = .fault .unwrittenByte) ∧
      (∀ h t, s.upc = .read3 c h t → s.bufOk ⟨c, .rx⟩ = true → t.toNat < (s.chan c).cap.toNat →
        s.written (.rxmem c) t = false → exec (.read c) s = .fault .unwrittenByte) ∧
      (∀ b h t r h2 t2, s.upc = .write8 c b h t r h2 t2 → s.bufOk ⟨c, .tx⟩ = true →
        t2.toNat < (s.chan c).cap.toNat → s.written (.txmem c) t2 = false →
        exec (.write c b) s = .fault .unwrittenByte) ∧
      (∀ k, k.val < s.par.np → s.regAt k = some c → s.bufOk ⟨c, .tx⟩ = true → (s.chan c).txh ≠ (s.chan c).txt →
        s.written (.txmem c) (s.chan c).txt = false → exec (.irqTx k) s = .fault .unwrittenByte)) ∧
    (s.par.unwritten = .anyValue →
      (∀ k, k.val < s.par.np → s.regAt k = some c → s.bufOk ⟨c, .rx⟩ = true → ∃ v t,
        s.byteAt (.scr c) 0 = some v ∧ exec (.irqRx k) s = .next t ∧
        (((s.chan c).rxh.toNat + 1) % (s.chan c).cap.toNat ≠ (s.chan c).rxt.toNat →
          t.byteAt (.rxmem c) (s.chan c).rxh = some v)) ∧
      (∀ h t, s.upc = .read3 c h t → s.bufOk ⟨c, .rx⟩ = true → t.toNat < (s.chan c).cap.toNat →
        ∃ v, s.byteAt (.rxmem c) t = some v ∧ exec (.read c) s = .next { s with upc := .read4 c h t v }) ∧
      (∀ b h t r h2 t2, s.upc = .write8 c b h t r h2 t2 → s.bufOk ⟨c, .tx⟩ = true →
        t2.toNat < (s.chan c).cap.toNat →
        ∃ v, s.byteAt (.txmem c) t2 = some v ∧
          exec (.write c b) s = .next { s with upc := .write9 c b h t r h2 t2 v }) ∧
      (∀ k, k.val < s.par.np → s.regAt k = some c → s.bufOk ⟨c, .tx⟩ = true → (s.chan c).txh ≠ (s.chan c).txt →
        ∃ v t st, s.byteAt (.txmem c) (s.chan c).txt = some v ∧ exec (.irqTx k) s = .next t ∧
          t.hwlog = s.hwlog ++ [.transmitByte (s.chan c).handle v st]))

/-! ### The hardware layer -/

/-- 44_hardware_layer.md R222: HWRXD delivers its byte into the scratch slot that was armed and disarms it, a completion
being pending afterwards under the reference layer; with nothing armed, or for an unsupported identity, it is dropped.
No other byte of memory, register or peripheral changes. That this holds for an armed slot that does not exist or holds
no channel too is the model's choice (log 26). -/
def Obligations.HwrxdDeliversIntoTheArmedSlot : Prop :=
  ∀ (s : State) (k : Pid) (b : Byte),
    (∀ c, k.val < s.par.np → (s.periph k).rxArm = some c →
      ∃ t, exec (.hwrxd k b) s = .next t ∧ t.byteAt (.scr c) 0 = some b ∧ SameMemoryBut (.scr c) 0 s t ∧
        t.periph k = { s.periph k with
          rxArm := none, rxDone := if s.par.hwModel = .reference then true else (s.periph k).rxDone } ∧
        SamePeriphsBut k s t ∧ t.chans = s.chans ∧ t.reg = s.reg ∧ t.upc = s.upc ∧ t.results = s.results ∧
        t.hwlog = s.hwlog ∧ t.envFault = s.envFault ∧ t.draws = s.draws ∧ SameInputs s t) ∧
    (s.par.np ≤ k.val ∨ (s.periph k).rxArm = none → exec (.hwrxd k b) s = .next s)

/-- 44_hardware_layer.md R223, 30_encoding.md R99: HWINJ appends its status (0 ok, 1 busy, 2 error) to the list of the
call its selector names; it is dropped for an unsupported identity and under a free layer. It touches nothing else. -/
def Obligations.HwinjQueuesAForcedAnswer : Prop :=
  ∀ (s : State) (k : Pid) (sel : InjSel) (st : BitVec 2) (answer : HwStatus),
    st = 0 ∧ answer = .ok ∨ st = 1 ∧ answer = .busy ∨ st = 2 ∧ answer = .error →
    (k.val < s.par.np → s.par.hwModel = .reference →
      exec (.hwinj k sel st) s = .next (s.setPeriph k (match sel with
        | .rx => { s.periph k with injRx := (s.periph k).injRx ++ [answer] }
        | .tx => { s.periph k with injTx := (s.periph k).injTx ++ [answer] }))) ∧
    (s.par.np ≤ k.val ∨ s.par.hwModel = .free → exec (.hwinj k sel st) s = .next s)

/-- 44_hardware_layer.md R218: the reference answers of an arm request: a forced failure is answered and consumed and
changes nothing else; otherwise, with nothing armed, a receive is armed into the slot and the answer is ok (a forced ok
is consumed). The call is logged. That a request is a step by itself is the model's choice (log 9), and so is that one
for a slot that does not exist or holds no channel arms like any other (log 26). -/
def Obligations.ArmRequestAnswersAsTheReference : Prop :=
  ∀ (s : State) (p : Pid) (c : Slot), p.val < s.par.np → s.par.hwModel = .reference →
    (∀ st rest, (s.periph p).injRx = st :: rest → st ≠ .ok →
      exec (.hwReceiveArm p c) s = .next { s.setPeriph p { s.periph p with injRx := rest } with
        hwlog := s.hwlog ++ [.receiveArm p c st] }) ∧
    (∀ rest, (s.periph p).injRx = .ok :: rest → (s.periph p).rxArm = none →
      exec (.hwReceiveArm p c) s = .next { s.setPeriph p { s.periph p with injRx := rest, rxArm := some c } with
        hwlog := s.hwlog ++ [.receiveArm p c .ok] }) ∧
    ((s.periph p).injRx = [] → (s.periph p).rxArm = none →
      exec (.hwReceiveArm p c) s = .next { s.setPeriph p { s.periph p with rxArm := some c } with
        hwlog := s.hwlog ++ [.receiveArm p c .ok] })

/-- 44_hardware_layer.md R219: the reference answers of a transmit request: a forced failure is answered and consumed;
otherwise busy with no change while a transmit is in flight, and ok with the byte in flight when idle. The call is
logged. That a request is a step by itself is the model's choice (log 9). -/
def Obligations.TransmitRequestAnswersAsTheReference : Prop :=
  ∀ (s : State) (p : Pid) (b : Byte), p.val < s.par.np → s.par.hwModel = .reference →
    (∀ st rest, (s.periph p).injTx = st :: rest → st ≠ .ok →
      exec (.hwTransmitByte p b) s = .next { s.setPeriph p { s.periph p with injTx := rest } with
        hwlog := s.hwlog ++ [.transmitByte p b st] }) ∧
    (∀ rest, (s.periph p).injTx = [] ∧ rest = [] ∨ (s.periph p).injTx = .ok :: rest →
      ((s.periph p).txBusy = true →
        exec (.hwTransmitByte p b) s = .next { s.setPeriph p { s.periph p with injTx := rest } with
          hwlog := s.hwlog ++ [.transmitByte p b .busy] }) ∧
      ((s.periph p).txBusy = false →
        exec (.hwTransmitByte p b) s = .next { s.setPeriph p { s.periph p with
            injTx := rest, txBusy := true, txCur := b } with
          hwlog := s.hwlog ++ [.transmitByte p b .ok] }))

/-- 44_hardware_layer.md R220: the reference answer of `hw_is_ready` is 1 exactly when no transmit is in flight, with no
state change; R221: `hw_unlock_and_abort_receive` leaves nothing armed and the pending completion as it is. Both calls
are logged. That a request is a step by itself is the model's choice (log 9). -/
def Obligations.ReadyAndUnlockRequestsAnswerAsTheReference : Prop :=
  ∀ (s : State) (p : Pid), p.val < s.par.np → s.par.hwModel = .reference →
    exec (.hwIsReady p) s = .next { s with hwlog := s.hwlog ++ [.isReady p (!(s.periph p).txBusy)] } ∧
    exec (.hwUnlockAndAbortReceive p) s = .next { s.setPeriph p { s.periph p with rxArm := none } with
      hwlog := s.hwlog ++ [.unlockAndAbortReceive p] }

/-- 44_hardware_layer.md R216: under a free layer every request completes, whatever it is answered (the answers are free
values, log 8: nothing here rests on their value). An arm answered ok arms, any other arm changes no peripheral; no other
request but the unlock changes a peripheral; no request touches the block. That a request is a step by itself is the
model's choice (log 9), and so is that an arm answered ok arms a slot that does not exist or holds no channel (log 26). -/
def Obligations.EveryRequestCompletesUnderAFreeLayer : Prop :=
  ∀ (s : State) (p : Pid), p.val < s.par.np → s.par.hwModel = .free →
    (∀ c, ∃ t st, exec (.hwReceiveArm p c) s = .next t ∧ t.hwlog = s.hwlog ++ [.receiveArm p c st] ∧
      (st = .ok → t.periph p = { s.periph p with rxArm := some c }) ∧ (st ≠ .ok → t.periphs = s.periphs) ∧
      SamePeriphsBut p s t ∧ SameBlock s t ∧ SameInputs s t ∧ t.results = s.results ∧ t.envFault = s.envFault) ∧
    (∀ b, ∃ t st, exec (.hwTransmitByte p b) s = .next t ∧ t.hwlog = s.hwlog ++ [.transmitByte p b st] ∧
      t.periphs = s.periphs ∧ SameBlock s t ∧ SameInputs s t ∧ t.results = s.results ∧ t.envFault = s.envFault) ∧
    (∃ t r, exec (.hwIsReady p) s = .next t ∧ t.hwlog = s.hwlog ++ [.isReady p r] ∧
      t.periphs = s.periphs ∧ SameBlock s t ∧ SameInputs s t ∧ t.results = s.results ∧ t.envFault = s.envFault) ∧
    exec (.hwUnlockAndAbortReceive p) s = .next { s.setPeriph p { s.periph p with rxArm := none } with
      hwlog := s.hwlog ++ [.unlockAndAbortReceive p] }

/-- The model's choice (log 9, log 10; no rule gives the hardware layer a peripheral beyond `NP - 1`, 44_hardware_layer.md
section 2): a request for such an identity is logged and answered, by a free value, and changes no peripheral and
nothing of the block. -/
def Obligations.RequestsForAbsentPeripheralsChangeNothing : Prop :=
  ∀ (s : State) (p : Pid) (c : Slot) (b : Byte), s.par.np ≤ p.val →
    (∃ t st, exec (.hwReceiveArm p c) s = .next t ∧ t.hwlog = s.hwlog ++ [.receiveArm p c st] ∧
      t.periphs = s.periphs ∧ SameBlock s t ∧ SameInputs s t ∧ t.results = s.results ∧ t.envFault = s.envFault) ∧
    (∃ t st, exec (.hwTransmitByte p b) s = .next t ∧ t.hwlog = s.hwlog ++ [.transmitByte p b st] ∧
      t.periphs = s.periphs ∧ SameBlock s t ∧ SameInputs s t ∧ t.results = s.results ∧ t.envFault = s.envFault) ∧
    (∃ t r, exec (.hwIsReady p) s = .next t ∧ t.hwlog = s.hwlog ++ [.isReady p r] ∧
      t.periphs = s.periphs ∧ SameBlock s t ∧ SameInputs s t ∧ t.results = s.results ∧ t.envFault = s.envFault) ∧
    exec (.hwUnlockAndAbortReceive p) s = .next { s with hwlog := s.hwlog ++ [.unlockAndAbortReceive p] }

/-! ### The buffer engine -/

/-- 10_state.md R28, 40_buffer_engine.md R132: on indices in range, EMPTY and FULL exclude each other for `N >= 2`, and
both hold for `N = 1`. -/
def Obligations.EmptyAndFullExcludeEachOther : Prop :=
  ∀ h t n : Idx, h.toNat < n.toNat → t.toNat < n.toNat →
    (2 ≤ n.toNat → ¬(isEmptyAt h t = true ∧ isFullAt h t n = true)) ∧
    (n.toNat = 1 → isEmptyAt h t = true ∧ isFullAt h t n = true)

/-- 10_state.md R29, 40_buffer_engine.md R125, R128: the occupancy is `(h - t + N) mod N` over the integers, in its
two-case form too, and never above `N - 1`; it is 0 exactly when the buffer is empty and `N - 1` exactly when it is
full. -/
def Obligations.OccupancyIsBetweenEmptyAndFull : Prop :=
  ∀ h t n : Idx, h.toNat < n.toNat → t.toNat < n.toNat →
    ((occupancyAt h t n).toNat : Int) = ((h.toNat : Int) - t.toNat + n.toNat) % n.toNat ∧
    (occupancyAt h t n).toNat = (if t.toNat ≤ h.toNat then h.toNat - t.toNat else h.toNat + n.toNat - t.toNat) ∧
    (occupancyAt h t n).toNat ≤ n.toNat - 1 ∧
    ((occupancyAt h t n).toNat = 0 ↔ isEmptyAt h t = true) ∧
    ((occupancyAt h t n).toNat = n.toNat - 1 ↔ isFullAt h t n = true)

/-- 40_buffer_engine.md R121, R122: a push on a buffer that holds fewer than `N - 1` bytes adds its byte at the end of
the queue the buffer holds, and on a full buffer fails and changes nothing; a pop takes the oldest byte off, and on an
empty buffer answers none and changes nothing. No other buffer of the block is touched. -/
def Obligations.PushAppendsAndPopTakesTheOldest : Prop :=
  ∀ (s : State) (b : Buf) (v : Byte), s.bufOk b = true →
    ((contents b s).length + 1 < (s.cap b.c).toNat →
      ∃ t, push b v s = .ok (true, t) ∧ contents b t = contents b s ++ [some v] ∧ t.bufOk b = true ∧
        ∀ a, a ≠ b → t.head a = s.head a ∧ t.tail a = s.tail a ∧ contents a t = contents a s) ∧
    (¬(contents b s).length + 1 < (s.cap b.c).toNat → push b v s = .ok (false, s)) ∧
    (∀ w rest, contents b s = some w :: rest →
      ∃ t, pop b s = .ok (some w, t) ∧ contents b t = rest ∧ t.bufOk b = true ∧ t.mem = s.mem ∧
        ∀ a, a ≠ b → t.head a = s.head a ∧ t.tail a = s.tail a ∧ contents a t = contents a s) ∧
    (contents b s = [] → pop b s = .ok (none, s))

/-- 40_buffer_engine.md R129, the FIFO law: over any sequence of complete pushes and pops on a buffer with its indices
in range, the bytes held at the start followed by the bytes accepted are the bytes popped followed by the bytes held at
the end; the indices stay in range, and no more than `N - 1` bytes are held. -/
def Obligations.BuffersAreFifoQueues : Prop :=
  ∀ (b : Buf) (ops : List BufOp) (s t : State) (accepted popped : List Byte),
    s.bufOk b = true → runBuf b ops s = .ok (accepted, popped, t) →
    contents b s ++ accepted.map some = popped.map some ++ contents b t ∧ t.bufOk b = true ∧
      (contents b t).length ≤ (s.cap b.c).toNat - 1

/-- 41_channel_commands.md R143, R144: READ uninterrupted does to the block what `pop` does on the RX buffer, and the
steps W.1 to W.4 of WRITE uninterrupted do what `push` does on the TX buffer. -/
def Obligations.CommandsRunTheBufferPrimitives : Prop :=
  (∀ (s t : State) (c : Slot) (v : Byte), s.upc = .idle → s.selects c = true →
    pop ⟨c, .rx⟩ s = .ok (some v, t) →
    turnsOf (.read c) 5 s = .next { t with results := s.results ++ [v.setWidth 32] }) ∧
  (∀ (s t : State) (c : Slot), s.upc = .idle → s.selects c = true → pop ⟨c, .rx⟩ s = .ok (none, t) →
    turnsOf (.read c) 3 s = .next { t with results := s.results ++ [0x02000000] }) ∧
  (∀ (s t : State) (c : Slot) (b : Byte), s.upc = .idle → s.selects c = true → push ⟨c, .tx⟩ b s = .ok (true, t) →
    turnsOf (.write c b) 5 s = .next { t with upc := .write5 c b (s.chan c).txh (s.chan c).txt }) ∧
  (∀ (s t : State) (c : Slot) (b : Byte), s.upc = .idle → s.selects c = true →
    push ⟨c, .tx⟩ b s = .ok (false, t) →
    turnsOf (.write c b) 3 s = .next { t with results := s.results ++ [0x01000000] })

/-! ### Rules over the whole machine -/

/-- 10_state.md R26: which operations write which index register, over all instructions. -/
def Obligations.OnlyTheseOperationsWriteEachIndex : Prop :=
  ∀ (i : Instr) (s t : State) (c : Slot), exec i s = .next t →
    ((t.chan c).rxh ≠ (s.chan c).rxh →
      (∃ k, i = .irqRx k) ∨ i = .flushRx c ∨ ∃ k n, i = .construct c k n) ∧
    ((t.chan c).rxt ≠ (s.chan c).rxt → i = .read c ∨ i = .flushRx c ∨ ∃ k n, i = .construct c k n) ∧
    ((t.chan c).txh ≠ (s.chan c).txh → (∃ b, i = .write c b) ∨ i = .flushTx c ∨ ∃ k n, i = .construct c k n) ∧
    ((t.chan c).txt ≠ (s.chan c).txt →
      (∃ k, i = .irqTx k) ∨ (∃ b, i = .write c b) ∨ i = .flushTx c ∨ ∃ k n, i = .construct c k n)

/-- 10_state.md R21 to R23, R31: `VALID`, `HANDLE`, `CAP` and the registry are written by CONSTRUCT alone; a valid slot
stays valid and keeps its handle and capacity. -/
def Obligations.OnlyConstructWritesTheControlRegisters : Prop :=
  ∀ (i : Instr) (s t : State), exec i s = .next t →
    (∀ c, ((s.chan c).valid = true → (t.chan c).valid = true ∧ (t.chan c).handle = (s.chan c).handle ∧
        (t.chan c).cap = (s.chan c).cap) ∧
      ((t.chan c).valid ≠ (s.chan c).valid ∨ (t.chan c).handle ≠ (s.chan c).handle ∨
        (t.chan c).cap ≠ (s.chan c).cap → ∃ k n, i = .construct c k n)) ∧
    ∀ k, t.regAt k ≠ s.regAt k → ∃ c n, i = .construct c k n

/-- 10_state.md R27, R30: a scratch byte is written by HWRXD alone, a byte of RX storage by IRQRX alone, a byte of TX
storage by WRITE of that channel alone. -/
def Obligations.OnlyTheseOperationsWriteStorage : Prop :=
  ∀ (i : Instr) (s t : State) (c : Slot) (x : Idx), exec i s = .next t →
    (t.byteAt (.scr c) x ≠ s.byteAt (.scr c) x → ∃ k b, i = .hwrxd k b) ∧
    (t.byteAt (.rxmem c) x ≠ s.byteAt (.rxmem c) x → ∃ k, i = .irqRx k) ∧
    (t.byteAt (.txmem c) x ≠ s.byteAt (.txmem c) x → ∃ b, i = .write c b)

/-- An event leaves `UPC` with its locals, the results, the counts, the parameters and the inputs as they are
(60_exceptions.md R251, R252), and so does an environment word (44_hardware_layer.md R222, R223, 20_memory.md R73). That
a request word is a step by itself, of which this holds too, is the model's choice (log 9); so are the counts and inputs
as it holds them (log 5, log 13). -/
def Obligations.EventsLeaveThePreemptedCommandAlone : Prop :=
  ∀ (i : Instr) (s t : State), i.port ≠ .command → exec i s = .next t →
    t.upc = s.upc ∧ t.results = s.results ∧ SameInputs s t

/-- 43_registry_dispatch.md R195: an event for `k` changes the registers and storage of the one channel registered for
`k`, and no scratch byte; every other channel stays as it is. -/
def Obligations.DispatchTouchesOnlyTheRegisteredChannel : Prop :=
  ∀ (s t : State) (k : Pid) (c d : Slot), s.regAt k = some c → d ≠ c →
    exec (.irqRx k) s = .next t ∨ exec (.irqTx k) s = .next t →
    t.chan d = s.chan d ∧ ∀ x, t.byteAt (.rxmem d) x = s.byteAt (.rxmem d) x ∧
      t.byteAt (.txmem d) x = s.byteAt (.txmem d) x ∧ t.byteAt (.scr d) x = s.byteAt (.scr d) x

/-- 60_exceptions.md R250: IRQRX and IRQTX commute in their effect on the block's state, whatever channels they reach
and whatever the layer answers; where IRQRX's arm is a double arm, that it goes on with its push kept is log 11. -/
def Obligations.ReceiveAndTransmitEventsCommute : Prop :=
  ∀ (s a b : State) (k j : Pid), exec (.irqRx k) s = .next a → exec (.irqTx j) s = .next b →
    ∃ u v, exec (.irqTx j) a = .next u ∧ exec (.irqRx k) b = .next v ∧
      u.chans = v.chans ∧ u.reg = v.reg ∧ u.mem = v.mem ∧ u.upc = v.upc ∧ u.results = v.results

/-- The memory list keeps its canonical form under every step, from every state. The list and its form are the model's
choice (log 3, log 4): no rule gives them. -/
def Obligations.EveryStepKeepsMemoryCanonical : Prop :=
  ∀ s t : State, s.mem.wf → step s = .next t → t.mem.wf

/-- The invariant holds at reset, for every legal choice of parameters. Its clause on the form of the memory list is
the model's choice (log 4). -/
def Obligations.ResetMeetsTheInvariant : Prop :=
  Inv State.reset ∧ ∀ p : Config.Params, p.wf → Inv (State.resetWith p)

/-- 10_state.md R25, R32, R30: from every state that meets the invariant (indices of constructed channels in range, the
registry naming constructed channels by their own handle, locals in range, storage only where it exists, memory
canonical, a form that is the model's choice, log 4), every step that goes on leads to a state that meets it. -/
def Obligations.EveryStepKeepsTheInvariant : Prop :=
  ∀ s t : State, Inv s → step s = .next t → Inv t

/-- 10_state.md R25, 40_buffer_engine.md R127: from a state that meets the invariant no step meets an index out of its
range, whatever events fall between the micro-steps. -/
def Obligations.NoStepMeetsAnIndexOutOfRange : Prop :=
  ∀ s : State, Inv s → step s ≠ .fault .indexOutOfRange

/-- 41_channel_commands.md R150: a command in progress, left alone by the turn list, ends within ten micro-steps, unless
it meets a byte nothing has written or the double arm. -/
def Obligations.CommandsEndWithinTenMicroSteps : Prop :=
  ∀ s : State, Inv s → s.faulted = false → s.upc ≠ .idle → s.turns = [] →
    ∃ n, n ≤ 10 ∧ (Sys2Proof.core.run n s = .fault .unwrittenByte ∨
      ∃ t : State, Sys2Proof.core.run n s = .next t ∧ (t.upc = .idle ∨ t.faulted = true))

/-- 60_exceptions.md R241, R242: the conditions that surface: a micro-step of WRITE returns FULL exactly when BufferFull
occurs, and a micro-step of READ returns EMPTY exactly when BufferEmpty occurs. -/
def Obligations.SurfacingConditionsAreTheStatusesReturned : Prop :=
  (∀ (s t : State) (c : Slot) (b : Byte), exec (.write c b) s = .next t →
    (t.results = s.results ++ [0x01000000] ↔ Condition.bufferFull ∈ conditions (.write c b) s)) ∧
  (∀ (s t : State) (c : Slot), exec (.read c) s = .next t →
    (t.results = s.results ++ [0x02000000] ↔ Condition.bufferEmpty ∈ conditions (.read c) s))

/-! ### Hazards -/

/-- 70_reset_and_hazards.md R285, FLUSHTX under `tail_first` with an IRQTX between its two stores: byte 0 of the storage
is transmitted, and the flush ends with `TXH = 0`, `TXT = 1`, so that the buffer of capacity `N >= 2` looks full. -/
def Obligations.FlushTxPreemptedLooksFull : Prop :=
  ∀ (s : State) (k : Pid) (c : Slot) (v : Byte), s.upc = .flushTx2 c → s.par.flushOrder = .tailFirst →
    k.val < s.par.np → s.regAt k = some c → s.bufOk ⟨c, .tx⟩ = true → 2 ≤ (s.chan c).cap.toNat →
    (s.chan c).txt = 0 → (s.chan c).txh ≠ 0 → s.byteAt (.txmem c) 0 = some v →
    ∃ t u st, exec (.irqTx k) s = .next t ∧ t.hwlog = s.hwlog ++ [.transmitByte (s.chan c).handle v st] ∧
      exec (.flushTx c) t = .next u ∧ (u.chan c).txh = 0 ∧ (u.chan c).txt = 1 ∧
      (occupancyAt (u.chan c).txh (u.chan c).txt (u.chan c).cap).toNat = (s.chan c).cap.toNat - 1

/-- 70_reset_and_hazards.md R286, second window: an IRQTX between W.7 and W.8 pops the index WRITE is about to pop; the
same byte is submitted twice and `TXT` advances once. -/
def Obligations.WritePreemptedInItsPopSubmitsTwice : Prop :=
  ∀ (s : State) (k : Pid) (c : Slot) (b : Byte) (h t : Idx) (r : Bool) (h2 t2 : Idx) (v : Byte),
    s.upc = .write8 c b h t r h2 t2 → k.val < s.par.np → s.regAt k = some c → s.bufOk ⟨c, .tx⟩ = true →
    t2 = (s.chan c).txt → (s.chan c).txh ≠ (s.chan c).txt → s.byteAt (.txmem c) t2 = some v →
    ∃ a u st1 st2, exec (.irqTx k) s = .next a ∧ turnsOf (.write c b) 3 a = .next u ∧
      u.hwlog = s.hwlog ++ [.transmitByte (s.chan c).handle v st1, .transmitByte (s.chan c).handle v st2] ∧
      (u.chan c).txt = BitVec.ofNat 16 (((s.chan c).txt.toNat + 1) % (s.chan c).cap.toNat) ∧ u.upc = .idle
end

