-- ==== Sys2Proof/Laws/State.lean ====
section
/-! SUPPORT. One lemma per field per update of State (all by rfl or by the vector's read-after-write law), so that no
later proof unfolds a record update. -/

namespace Sys2Proof.Machine

variable (s : State)


/-! ### setChan -/

@[simp] theorem setChan_par (c : Slot) (x : Chan) : (s.setChan c x).par = s.par := rfl
@[simp] theorem setChan_upc (c : Slot) (x : Chan) : (s.setChan c x).upc = s.upc := rfl
@[simp] theorem setChan_mem (c : Slot) (x : Chan) : (s.setChan c x).mem = s.mem := rfl
@[simp] theorem setChan_envFault (c : Slot) (x : Chan) : (s.setChan c x).envFault = s.envFault := rfl
@[simp] theorem setChan_draws (c : Slot) (x : Chan) : (s.setChan c x).draws = s.draws := rfl
@[simp] theorem setChan_hwlog (c : Slot) (x : Chan) : (s.setChan c x).hwlog = s.hwlog := rfl
@[simp] theorem setChan_results (c : Slot) (x : Chan) : (s.setChan c x).results = s.results := rfl
@[simp] theorem setChan_counts (c : Slot) (x : Chan) : (s.setChan c x).counts = s.counts := rfl
@[simp] theorem setChan_cmdQ (c : Slot) (x : Chan) : (s.setChan c x).cmdQ = s.cmdQ := rfl
@[simp] theorem setChan_turns (c : Slot) (x : Chan) : (s.setChan c x).turns = s.turns := rfl
@[simp] theorem setChan_reg (c : Slot) (x : Chan) : (s.setChan c x).reg = s.reg := rfl
@[simp] theorem setChan_periphs (c : Slot) (x : Chan) : (s.setChan c x).periphs = s.periphs := rfl
@[simp] theorem setChan_regAt (c : Slot) (x : Chan) (j : Pid) : (s.setChan c x).regAt j = s.regAt j := rfl
@[simp] theorem setChan_periph (c : Slot) (x : Chan) (q : Pid) : (s.setChan c x).periph q = s.periph q := rfl
@[simp] theorem setChan_byteAt (c : Slot) (x : Chan) (sp : Space) (i : Idx) : (s.setChan c x).byteAt sp i = s.byteAt sp i := rfl

/-! ### setReg -/

@[simp] theorem setReg_par (k : Pid) (v : Option Slot) : (s.setReg k v).par = s.par := rfl
@[simp] theorem setReg_upc (k : Pid) (v : Option Slot) : (s.setReg k v).upc = s.upc := rfl
@[simp] theorem setReg_mem (k : Pid) (v : Option Slot) : (s.setReg k v).mem = s.mem := rfl
@[simp] theorem setReg_envFault (k : Pid) (v : Option Slot) : (s.setReg k v).envFault = s.envFault := rfl
@[simp] theorem setReg_draws (k : Pid) (v : Option Slot) : (s.setReg k v).draws = s.draws := rfl
@[simp] theorem setReg_hwlog (k : Pid) (v : Option Slot) : (s.setReg k v).hwlog = s.hwlog := rfl
@[simp] theorem setReg_results (k : Pid) (v : Option Slot) : (s.setReg k v).results = s.results := rfl
@[simp] theorem setReg_counts (k : Pid) (v : Option Slot) : (s.setReg k v).counts = s.counts := rfl
@[simp] theorem setReg_cmdQ (k : Pid) (v : Option Slot) : (s.setReg k v).cmdQ = s.cmdQ := rfl
@[simp] theorem setReg_turns (k : Pid) (v : Option Slot) : (s.setReg k v).turns = s.turns := rfl
@[simp] theorem setReg_chans (k : Pid) (v : Option Slot) : (s.setReg k v).chans = s.chans := rfl
@[simp] theorem setReg_periphs (k : Pid) (v : Option Slot) : (s.setReg k v).periphs = s.periphs := rfl
@[simp] theorem setReg_chan (k : Pid) (v : Option Slot) (d : Slot) : (s.setReg k v).chan d = s.chan d := rfl
@[simp] theorem setReg_periph (k : Pid) (v : Option Slot) (q : Pid) : (s.setReg k v).periph q = s.periph q := rfl
@[simp] theorem setReg_byteAt (k : Pid) (v : Option Slot) (sp : Space) (i : Idx) : (s.setReg k v).byteAt sp i = s.byteAt sp i := rfl

/-! ### setPeriph -/

@[simp] theorem setPeriph_par (p : Pid) (x : Periph) : (s.setPeriph p x).par = s.par := rfl
@[simp] theorem setPeriph_upc (p : Pid) (x : Periph) : (s.setPeriph p x).upc = s.upc := rfl
@[simp] theorem setPeriph_mem (p : Pid) (x : Periph) : (s.setPeriph p x).mem = s.mem := rfl
@[simp] theorem setPeriph_envFault (p : Pid) (x : Periph) : (s.setPeriph p x).envFault = s.envFault := rfl
@[simp] theorem setPeriph_draws (p : Pid) (x : Periph) : (s.setPeriph p x).draws = s.draws := rfl
@[simp] theorem setPeriph_hwlog (p : Pid) (x : Periph) : (s.setPeriph p x).hwlog = s.hwlog := rfl
@[simp] theorem setPeriph_results (p : Pid) (x : Periph) : (s.setPeriph p x).results = s.results := rfl
@[simp] theorem setPeriph_counts (p : Pid) (x : Periph) : (s.setPeriph p x).counts = s.counts := rfl
@[simp] theorem setPeriph_cmdQ (p : Pid) (x : Periph) : (s.setPeriph p x).cmdQ = s.cmdQ := rfl
@[simp] theorem setPeriph_turns (p : Pid) (x : Periph) : (s.setPeriph p x).turns = s.turns := rfl
@[simp] theorem setPeriph_chans (p : Pid) (x : Periph) : (s.setPeriph p x).chans = s.chans := rfl
@[simp] theorem setPeriph_reg (p : Pid) (x : Periph) : (s.setPeriph p x).reg = s.reg := rfl
@[simp] theorem setPeriph_chan (p : Pid) (x : Periph) (d : Slot) : (s.setPeriph p x).chan d = s.chan d := rfl
@[simp] theorem setPeriph_regAt (p : Pid) (x : Periph) (j : Pid) : (s.setPeriph p x).regAt j = s.regAt j := rfl
@[simp] theorem setPeriph_byteAt (p : Pid) (x : Periph) (sp : Space) (i : Idx) : (s.setPeriph p x).byteAt sp i = s.byteAt sp i := rfl

/-! ### setUpc -/

@[simp] theorem setUpc_par (u : Upc) : (s.setUpc u).par = s.par := rfl
@[simp] theorem setUpc_mem (u : Upc) : (s.setUpc u).mem = s.mem := rfl
@[simp] theorem setUpc_envFault (u : Upc) : (s.setUpc u).envFault = s.envFault := rfl
@[simp] theorem setUpc_draws (u : Upc) : (s.setUpc u).draws = s.draws := rfl
@[simp] theorem setUpc_hwlog (u : Upc) : (s.setUpc u).hwlog = s.hwlog := rfl
@[simp] theorem setUpc_results (u : Upc) : (s.setUpc u).results = s.results := rfl
@[simp] theorem setUpc_counts (u : Upc) : (s.setUpc u).counts = s.counts := rfl
@[simp] theorem setUpc_cmdQ (u : Upc) : (s.setUpc u).cmdQ = s.cmdQ := rfl
@[simp] theorem setUpc_turns (u : Upc) : (s.setUpc u).turns = s.turns := rfl
@[simp] theorem setUpc_chans (u : Upc) : (s.setUpc u).chans = s.chans := rfl
@[simp] theorem setUpc_reg (u : Upc) : (s.setUpc u).reg = s.reg := rfl
@[simp] theorem setUpc_periphs (u : Upc) : (s.setUpc u).periphs = s.periphs := rfl
@[simp] theorem setUpc_chan (u : Upc) (d : Slot) : (s.setUpc u).chan d = s.chan d := rfl
@[simp] theorem setUpc_regAt (u : Upc) (j : Pid) : (s.setUpc u).regAt j = s.regAt j := rfl
@[simp] theorem setUpc_periph (u : Upc) (q : Pid) : (s.setUpc u).periph q = s.periph q := rfl
@[simp] theorem setUpc_byteAt (u : Upc) (sp : Space) (i : Idx) : (s.setUpc u).byteAt sp i = s.byteAt sp i := rfl

/-! ### log -/

@[simp] theorem log_par (r : HwRecord) : (s.log r).par = s.par := rfl
@[simp] theorem log_upc (r : HwRecord) : (s.log r).upc = s.upc := rfl
@[simp] theorem log_mem (r : HwRecord) : (s.log r).mem = s.mem := rfl
@[simp] theorem log_envFault (r : HwRecord) : (s.log r).envFault = s.envFault := rfl
@[simp] theorem log_draws (r : HwRecord) : (s.log r).draws = s.draws := rfl
@[simp] theorem log_results (r : HwRecord) : (s.log r).results = s.results := rfl
@[simp] theorem log_counts (r : HwRecord) : (s.log r).counts = s.counts := rfl
@[simp] theorem log_cmdQ (r : HwRecord) : (s.log r).cmdQ = s.cmdQ := rfl
@[simp] theorem log_turns (r : HwRecord) : (s.log r).turns = s.turns := rfl
@[simp] theorem log_chans (r : HwRecord) : (s.log r).chans = s.chans := rfl
@[simp] theorem log_reg (r : HwRecord) : (s.log r).reg = s.reg := rfl
@[simp] theorem log_periphs (r : HwRecord) : (s.log r).periphs = s.periphs := rfl
@[simp] theorem log_chan (r : HwRecord) (d : Slot) : (s.log r).chan d = s.chan d := rfl
@[simp] theorem log_regAt (r : HwRecord) (j : Pid) : (s.log r).regAt j = s.regAt j := rfl
@[simp] theorem log_periph (r : HwRecord) (q : Pid) : (s.log r).periph q = s.periph q := rfl
@[simp] theorem log_byteAt (r : HwRecord) (sp : Space) (i : Idx) : (s.log r).byteAt sp i = s.byteAt sp i := rfl

/-! ### putResult -/

@[simp] theorem putResult_par (st : Status) (v : BitVec 16) : (s.putResult st v).par = s.par := rfl
@[simp] theorem putResult_upc (st : Status) (v : BitVec 16) : (s.putResult st v).upc = s.upc := rfl
@[simp] theorem putResult_mem (st : Status) (v : BitVec 16) : (s.putResult st v).mem = s.mem := rfl
@[simp] theorem putResult_envFault (st : Status) (v : BitVec 16) : (s.putResult st v).envFault = s.envFault := rfl
@[simp] theorem putResult_draws (st : Status) (v : BitVec 16) : (s.putResult st v).draws = s.draws := rfl
@[simp] theorem putResult_hwlog (st : Status) (v : BitVec 16) : (s.putResult st v).hwlog = s.hwlog := rfl
@[simp] theorem putResult_counts (st : Status) (v : BitVec 16) : (s.putResult st v).counts = s.counts := rfl
@[simp] theorem putResult_cmdQ (st : Status) (v : BitVec 16) : (s.putResult st v).cmdQ = s.cmdQ := rfl
@[simp] theorem putResult_turns (st : Status) (v : BitVec 16) : (s.putResult st v).turns = s.turns := rfl
@[simp] theorem putResult_chans (st : Status) (v : BitVec 16) : (s.putResult st v).chans = s.chans := rfl
@[simp] theorem putResult_reg (st : Status) (v : BitVec 16) : (s.putResult st v).reg = s.reg := rfl
@[simp] theorem putResult_periphs (st : Status) (v : BitVec 16) : (s.putResult st v).periphs = s.periphs := rfl
@[simp] theorem putResult_chan (st : Status) (v : BitVec 16) (d : Slot) : (s.putResult st v).chan d = s.chan d := rfl
@[simp] theorem putResult_regAt (st : Status) (v : BitVec 16) (j : Pid) : (s.putResult st v).regAt j = s.regAt j := rfl
@[simp] theorem putResult_periph (st : Status) (v : BitVec 16) (q : Pid) : (s.putResult st v).periph q = s.periph q := rfl
@[simp] theorem putResult_byteAt (st : Status) (v : BitVec 16) (sp : Space) (i : Idx) : (s.putResult st v).byteAt sp i = s.byteAt sp i := rfl

/-! ### endCommand -/

@[simp] theorem endCommand_par (st : Status) (v : BitVec 16) : (s.endCommand st v).par = s.par := rfl
@[simp] theorem endCommand_mem (st : Status) (v : BitVec 16) : (s.endCommand st v).mem = s.mem := rfl
@[simp] theorem endCommand_envFault (st : Status) (v : BitVec 16) : (s.endCommand st v).envFault = s.envFault := rfl
@[simp] theorem endCommand_draws (st : Status) (v : BitVec 16) : (s.endCommand st v).draws = s.draws := rfl
@[simp] theorem endCommand_hwlog (st : Status) (v : BitVec 16) : (s.endCommand st v).hwlog = s.hwlog := rfl
@[simp] theorem endCommand_counts (st : Status) (v : BitVec 16) : (s.endCommand st v).counts = s.counts := rfl
@[simp] theorem endCommand_cmdQ (st : Status) (v : BitVec 16) : (s.endCommand st v).cmdQ = s.cmdQ := rfl
@[simp] theorem endCommand_turns (st : Status) (v : BitVec 16) : (s.endCommand st v).turns = s.turns := rfl
@[simp] theorem endCommand_chans (st : Status) (v : BitVec 16) : (s.endCommand st v).chans = s.chans := rfl
@[simp] theorem endCommand_reg (st : Status) (v : BitVec 16) : (s.endCommand st v).reg = s.reg := rfl
@[simp] theorem endCommand_periphs (st : Status) (v : BitVec 16) : (s.endCommand st v).periphs = s.periphs := rfl
@[simp] theorem endCommand_chan (st : Status) (v : BitVec 16) (d : Slot) : (s.endCommand st v).chan d = s.chan d := rfl
@[simp] theorem endCommand_regAt (st : Status) (v : BitVec 16) (j : Pid) : (s.endCommand st v).regAt j = s.regAt j := rfl
@[simp] theorem endCommand_periph (st : Status) (v : BitVec 16) (q : Pid) : (s.endCommand st v).periph q = s.periph q := rfl
@[simp] theorem endCommand_byteAt (st : Status) (v : BitVec 16) (sp : Space) (i : Idx) : (s.endCommand st v).byteAt sp i = s.byteAt sp i := rfl
@[simp] theorem setUpc_upc (u : Upc) : (s.setUpc u).upc = u := rfl
@[simp] theorem log_hwlog (r : HwRecord) : (s.log r).hwlog = s.hwlog ++ [r] := rfl
@[simp] theorem putResult_results (st : Status) (v : BitVec 16) : (s.putResult st v).results = s.results ++ [resultWord st v] := rfl
@[simp] theorem endCommand_results (st : Status) (v : BitVec 16) : (s.endCommand st v).results = s.results ++ [resultWord st v] := rfl
@[simp] theorem endCommand_upc (st : Status) (v : BitVec 16) : (s.endCommand st v).upc = .idle := rfl

/-! ### Read after write of the vectors -/

@[simp] theorem chan_setChan_same (c : Slot) (x : Chan) : (s.setChan c x).chan c = x := by
  simp [State.chan, State.setChan]

theorem chan_setChan_ne {c d : Slot} (x : Chan) (h : d ≠ c) : (s.setChan c x).chan d = s.chan d := by
  have hv : c.val ≠ d.val := fun e => h (Fin.ext e.symm)
  simp [State.chan, State.setChan, hv]

theorem chan_setChan (c d : Slot) (x : Chan) : (s.setChan c x).chan d = if d = c then x else s.chan d := by
  split
  · next h => subst h; simp
  · next h => exact chan_setChan_ne s x h

@[simp] theorem regAt_setReg_same (k : Pid) (v : Option Slot) : (s.setReg k v).regAt k = v := by
  simp [State.regAt, State.setReg]

theorem regAt_setReg_ne {k j : Pid} (v : Option Slot) (h : j ≠ k) : (s.setReg k v).regAt j = s.regAt j := by
  have hv : k.val ≠ j.val := fun e => h (Fin.ext e.symm)
  simp [State.regAt, State.setReg, hv]

theorem regAt_setReg (k j : Pid) (v : Option Slot) : (s.setReg k v).regAt j = if j = k then v else s.regAt j := by
  split
  · next h => subst h; simp
  · next h => exact regAt_setReg_ne s v h

@[simp] theorem periph_setPeriph_same (p : Pid) (x : Periph) : (s.setPeriph p x).periph p = x := by
  simp [State.periph, State.setPeriph]

theorem periph_setPeriph_ne {p q : Pid} (x : Periph) (h : q ≠ p) : (s.setPeriph p x).periph q = s.periph q := by
  have hv : p.val ≠ q.val := fun e => h (Fin.ext e.symm)
  simp [State.periph, State.setPeriph, hv]

theorem periph_setPeriph (p q : Pid) (x : Periph) :
    (s.setPeriph p x).periph q = if q = p then x else s.periph q := by
  split
  · next h => subst h; simp
  · next h => exact periph_setPeriph_ne s x h

/-- Writing a peripheral's state back changes nothing. -/
@[simp] theorem setPeriph_periph (p : Pid) : s.setPeriph p (s.periph p) = s := by
  simp [State.setPeriph, State.periph]

/-- Writing a slot's registers back changes nothing. -/
@[simp] theorem setChan_chan (c : Slot) : s.setChan c (s.chan c) = s := by
  simp [State.setChan, State.chan]

/-! ### Index registers -/

@[simp] theorem setHead_par (b : Buf) (v : Idx) : (s.setHead b v).par = s.par := by
  rcases b with ⟨c, side⟩; cases side <;> rfl
@[simp] theorem setHead_upc (b : Buf) (v : Idx) : (s.setHead b v).upc = s.upc := by
  rcases b with ⟨c, side⟩; cases side <;> rfl
@[simp] theorem setHead_mem (b : Buf) (v : Idx) : (s.setHead b v).mem = s.mem := by
  rcases b with ⟨c, side⟩; cases side <;> rfl
@[simp] theorem setHead_envFault (b : Buf) (v : Idx) : (s.setHead b v).envFault = s.envFault := by
  rcases b with ⟨c, side⟩; cases side <;> rfl
@[simp] theorem setHead_draws (b : Buf) (v : Idx) : (s.setHead b v).draws = s.draws := by
  rcases b with ⟨c, side⟩; cases side <;> rfl
@[simp] theorem setHead_hwlog (b : Buf) (v : Idx) : (s.setHead b v).hwlog = s.hwlog := by
  rcases b with ⟨c, side⟩; cases side <;> rfl
@[simp] theorem setHead_results (b : Buf) (v : Idx) : (s.setHead b v).results = s.results := by
  rcases b with ⟨c, side⟩; cases side <;> rfl
@[simp] theorem setHead_counts (b : Buf) (v : Idx) : (s.setHead b v).counts = s.counts := by
  rcases b with ⟨c, side⟩; cases side <;> rfl
@[simp] theorem setHead_cmdQ (b : Buf) (v : Idx) : (s.setHead b v).cmdQ = s.cmdQ := by
  rcases b with ⟨c, side⟩; cases side <;> rfl
@[simp] theorem setHead_turns (b : Buf) (v : Idx) : (s.setHead b v).turns = s.turns := by
  rcases b with ⟨c, side⟩; cases side <;> rfl
@[simp] theorem setHead_reg (b : Buf) (v : Idx) : (s.setHead b v).reg = s.reg := by
  rcases b with ⟨c, side⟩; cases side <;> rfl
@[simp] theorem setHead_periphs (b : Buf) (v : Idx) : (s.setHead b v).periphs = s.periphs := by
  rcases b with ⟨c, side⟩; cases side <;> rfl
@[simp] theorem setHead_regAt (b : Buf) (v : Idx) (j : Pid) : (s.setHead b v).regAt j = s.regAt j := by
  rcases b with ⟨c, side⟩; cases side <;> rfl
@[simp] theorem setHead_periph (b : Buf) (v : Idx) (q : Pid) : (s.setHead b v).periph q = s.periph q := by
  rcases b with ⟨c, side⟩; cases side <;> rfl
@[simp] theorem setHead_byteAt (b : Buf) (v : Idx) (sp : Space) (i : Idx) :
    (s.setHead b v).byteAt sp i = s.byteAt sp i := by
  rcases b with ⟨c, side⟩; cases side <;> rfl

theorem setHead_chan_ne (b : Buf) (v : Idx) {d : Slot} (h : d ≠ b.c) : (s.setHead b v).chan d = s.chan d := by
  rcases b with ⟨c, side⟩; cases side <;> exact chan_setChan_ne s _ h

@[simp] theorem setHead_valid (b : Buf) (v : Idx) (d : Slot) : ((s.setHead b v).chan d).valid = (s.chan d).valid := by
  by_cases h : d = b.c
  · subst h; rcases b with ⟨c, side⟩; cases side <;> simp [State.setHead]
  · rw [setHead_chan_ne s b v h]

@[simp] theorem setHead_handle (b : Buf) (v : Idx) (d : Slot) : ((s.setHead b v).chan d).handle = (s.chan d).handle := by
  by_cases h : d = b.c
  · subst h; rcases b with ⟨c, side⟩; cases side <;> simp [State.setHead]
  · rw [setHead_chan_ne s b v h]

@[simp] theorem setHead_cap (b : Buf) (v : Idx) (d : Slot) : (s.setHead b v).cap d = s.cap d := by
  unfold State.cap
  by_cases h : d = b.c
  · subst h; rcases b with ⟨c, side⟩; cases side <;> simp [State.setHead]
  · rw [setHead_chan_ne s b v h]

@[simp] theorem setTail_par (b : Buf) (v : Idx) : (s.setTail b v).par = s.par := by
  rcases b with ⟨c, side⟩; cases side <;> rfl
@[simp] theorem setTail_upc (b : Buf) (v : Idx) : (s.setTail b v).upc = s.upc := by
  rcases b with ⟨c, side⟩; cases side <;> rfl
@[simp] theorem setTail_mem (b : Buf) (v : Idx) : (s.setTail b v).mem = s.mem := by
  rcases b with ⟨c, side⟩; cases side <;> rfl
@[simp] theorem setTail_envFault (b : Buf) (v : Idx) : (s.setTail b v).envFault = s.envFault := by
  rcases b with ⟨c, side⟩; cases side <;> rfl
@[simp] theorem setTail_draws (b : Buf) (v : Idx) : (s.setTail b v).draws = s.draws := by
  rcases b with ⟨c, side⟩; cases side <;> rfl
@[simp] theorem setTail_hwlog (b : Buf) (v : Idx) : (s.setTail b v).hwlog = s.hwlog := by
  rcases b with ⟨c, side⟩; cases side <;> rfl
@[simp] theorem setTail_results (b : Buf) (v : Idx) : (s.setTail b v).results = s.results := by
  rcases b with ⟨c, side⟩; cases side <;> rfl
@[simp] theorem setTail_counts (b : Buf) (v : Idx) : (s.setTail b v).counts = s.counts := by
  rcases b with ⟨c, side⟩; cases side <;> rfl
@[simp] theorem setTail_cmdQ (b : Buf) (v : Idx) : (s.setTail b v).cmdQ = s.cmdQ := by
  rcases b with ⟨c, side⟩; cases side <;> rfl
@[simp] theorem setTail_turns (b : Buf) (v : Idx) : (s.setTail b v).turns = s.turns := by
  rcases b with ⟨c, side⟩; cases side <;> rfl
@[simp] theorem setTail_reg (b : Buf) (v : Idx) : (s.setTail b v).reg = s.reg := by
  rcases b with ⟨c, side⟩; cases side <;> rfl
@[simp] theorem setTail_periphs (b : Buf) (v : Idx) : (s.setTail b v).periphs = s.periphs := by
  rcases b with ⟨c, side⟩; cases side <;> rfl
@[simp] theorem setTail_regAt (b : Buf) (v : Idx) (j : Pid) : (s.setTail b v).regAt j = s.regAt j := by
  rcases b with ⟨c, side⟩; cases side <;> rfl
@[simp] theorem setTail_periph (b : Buf) (v : Idx) (q : Pid) : (s.setTail b v).periph q = s.periph q := by
  rcases b with ⟨c, side⟩; cases side <;> rfl
@[simp] theorem setTail_byteAt (b : Buf) (v : Idx) (sp : Space) (i : Idx) :
    (s.setTail b v).byteAt sp i = s.byteAt sp i := by
  rcases b with ⟨c, side⟩; cases side <;> rfl

theorem setTail_chan_ne (b : Buf) (v : Idx) {d : Slot} (h : d ≠ b.c) : (s.setTail b v).chan d = s.chan d := by
  rcases b with ⟨c, side⟩; cases side <;> exact chan_setChan_ne s _ h

@[simp] theorem setTail_valid (b : Buf) (v : Idx) (d : Slot) : ((s.setTail b v).chan d).valid = (s.chan d).valid := by
  by_cases h : d = b.c
  · subst h; rcases b with ⟨c, side⟩; cases side <;> simp [State.setTail]
  · rw [setTail_chan_ne s b v h]

@[simp] theorem setTail_handle (b : Buf) (v : Idx) (d : Slot) : ((s.setTail b v).chan d).handle = (s.chan d).handle := by
  by_cases h : d = b.c
  · subst h; rcases b with ⟨c, side⟩; cases side <;> simp [State.setTail]
  · rw [setTail_chan_ne s b v h]

@[simp] theorem setTail_cap (b : Buf) (v : Idx) (d : Slot) : (s.setTail b v).cap d = s.cap d := by
  unfold State.cap
  by_cases h : d = b.c
  · subst h; rcases b with ⟨c, side⟩; cases side <;> simp [State.setTail]
  · rw [setTail_chan_ne s b v h]


/-- Two buffers with one slot and one side are one buffer. -/
theorem Buf.ext_iff_both (a b : Buf) : a = b ↔ a.c = b.c ∧ a.side = b.side := by
  cases a; cases b; simp

theorem head_setHead (a b : Buf) (v : Idx) : (s.setHead b v).head a = if a = b then v else s.head a := by
  rcases a with ⟨ca, sa⟩; rcases b with ⟨cb, sb⟩
  cases sa <;> cases sb <;> by_cases h : ca = cb <;>
    simp_all [State.head, State.setHead, chan_setChan]

theorem tail_setHead (a b : Buf) (v : Idx) : (s.setHead b v).tail a = s.tail a := by
  rcases a with ⟨ca, sa⟩; rcases b with ⟨cb, sb⟩
  cases sa <;> cases sb <;> by_cases h : ca = cb <;>
    simp_all [State.tail, State.setHead, chan_setChan]

theorem tail_setTail (a b : Buf) (v : Idx) : (s.setTail b v).tail a = if a = b then v else s.tail a := by
  rcases a with ⟨ca, sa⟩; rcases b with ⟨cb, sb⟩
  cases sa <;> cases sb <;> by_cases h : ca = cb <;>
    simp_all [State.tail, State.setTail, chan_setChan]

theorem head_setTail (a b : Buf) (v : Idx) : (s.setTail b v).head a = s.head a := by
  rcases a with ⟨ca, sa⟩; rcases b with ⟨cb, sb⟩
  cases sa <;> cases sb <;> by_cases h : ca = cb <;>
    simp_all [State.head, State.setTail, chan_setChan]


/-! ### Views of a channel under updates that leave the channels alone -/

@[simp] theorem setReg_head (k : Pid) (v : Option Slot) (B : Buf) : (s.setReg k v).head B = s.head B := rfl
@[simp] theorem setReg_tail (k : Pid) (v : Option Slot) (B : Buf) : (s.setReg k v).tail B = s.tail B := rfl
@[simp] theorem setReg_cap (k : Pid) (v : Option Slot) (d : Slot) : (s.setReg k v).cap d = s.cap d := rfl
@[simp] theorem setReg_bufOk (k : Pid) (v : Option Slot) (B : Buf) : (s.setReg k v).bufOk B = s.bufOk B := rfl
@[simp] theorem setReg_selects (k : Pid) (v : Option Slot) (d : Slot) : (s.setReg k v).selects d = s.selects d := rfl
@[simp] theorem setReg_size (k : Pid) (v : Option Slot) (sp : Space) : (s.setReg k v).size sp = s.size sp := by cases sp <;> rfl
@[simp] theorem setPeriph_head (p : Pid) (x : Periph) (B : Buf) : (s.setPeriph p x).head B = s.head B := rfl
@[simp] theorem setPeriph_tail (p : Pid) (x : Periph) (B : Buf) : (s.setPeriph p x).tail B = s.tail B := rfl
@[simp] theorem setPeriph_cap (p : Pid) (x : Periph) (d : Slot) : (s.setPeriph p x).cap d = s.cap d := rfl
@[simp] theorem setPeriph_bufOk (p : Pid) (x : Periph) (B : Buf) : (s.setPeriph p x).bufOk B = s.bufOk B := rfl
@[simp] theorem setPeriph_selects (p : Pid) (x : Periph) (d : Slot) : (s.setPeriph p x).selects d = s.selects d := rfl
@[simp] theorem setPeriph_size (p : Pid) (x : Periph) (sp : Space) : (s.setPeriph p x).size sp = s.size sp := by cases sp <;> rfl
@[simp] theorem setUpc_head (u : Upc) (B : Buf) : (s.setUpc u).head B = s.head B := rfl
@[simp] theorem setUpc_tail (u : Upc) (B : Buf) : (s.setUpc u).tail B = s.tail B := rfl
@[simp] theorem setUpc_cap (u : Upc) (d : Slot) : (s.setUpc u).cap d = s.cap d := rfl
@[simp] theorem setUpc_bufOk (u : Upc) (B : Buf) : (s.setUpc u).bufOk B = s.bufOk B := rfl
@[simp] theorem setUpc_selects (u : Upc) (d : Slot) : (s.setUpc u).selects d = s.selects d := rfl
@[simp] theorem setUpc_size (u : Upc) (sp : Space) : (s.setUpc u).size sp = s.size sp := by cases sp <;> rfl
@[simp] theorem log_head (r : HwRecord) (B : Buf) : (s.log r).head B = s.head B := rfl
@[simp] theorem log_tail (r : HwRecord) (B : Buf) : (s.log r).tail B = s.tail B := rfl
@[simp] theorem log_cap (r : HwRecord) (d : Slot) : (s.log r).cap d = s.cap d := rfl
@[simp] theorem log_bufOk (r : HwRecord) (B : Buf) : (s.log r).bufOk B = s.bufOk B := rfl
@[simp] theorem log_selects (r : HwRecord) (d : Slot) : (s.log r).selects d = s.selects d := rfl
@[simp] theorem log_size (r : HwRecord) (sp : Space) : (s.log r).size sp = s.size sp := by cases sp <;> rfl
@[simp] theorem putResult_head (st : Status) (v : BitVec 16) (B : Buf) : (s.putResult st v).head B = s.head B := rfl
@[simp] theorem putResult_tail (st : Status) (v : BitVec 16) (B : Buf) : (s.putResult st v).tail B = s.tail B := rfl
@[simp] theorem putResult_cap (st : Status) (v : BitVec 16) (d : Slot) : (s.putResult st v).cap d = s.cap d := rfl
@[simp] theorem putResult_bufOk (st : Status) (v : BitVec 16) (B : Buf) : (s.putResult st v).bufOk B = s.bufOk B := rfl
@[simp] theorem putResult_selects (st : Status) (v : BitVec 16) (d : Slot) : (s.putResult st v).selects d = s.selects d := rfl
@[simp] theorem putResult_size (st : Status) (v : BitVec 16) (sp : Space) : (s.putResult st v).size sp = s.size sp := by cases sp <;> rfl
@[simp] theorem endCommand_head (st : Status) (v : BitVec 16) (B : Buf) : (s.endCommand st v).head B = s.head B := rfl
@[simp] theorem endCommand_tail (st : Status) (v : BitVec 16) (B : Buf) : (s.endCommand st v).tail B = s.tail B := rfl
@[simp] theorem endCommand_cap (st : Status) (v : BitVec 16) (d : Slot) : (s.endCommand st v).cap d = s.cap d := rfl
@[simp] theorem endCommand_bufOk (st : Status) (v : BitVec 16) (B : Buf) : (s.endCommand st v).bufOk B = s.bufOk B := rfl
@[simp] theorem endCommand_selects (st : Status) (v : BitVec 16) (d : Slot) : (s.endCommand st v).selects d = s.selects d := rfl
@[simp] theorem endCommand_size (st : Status) (v : BitVec 16) (sp : Space) : (s.endCommand st v).size sp = s.size sp := by cases sp <;> rfl

/-! ### A buffer's indices by name, and views that read one field only -/

theorem head_rx (c : Slot) : s.head ⟨c, .rx⟩ = (s.chan c).rxh := rfl
theorem tail_rx (c : Slot) : s.tail ⟨c, .rx⟩ = (s.chan c).rxt := rfl
theorem head_tx (c : Slot) : s.head ⟨c, .tx⟩ = (s.chan c).txh := rfl
theorem tail_tx (c : Slot) : s.tail ⟨c, .tx⟩ = (s.chan c).txt := rfl
theorem cap_chan (c : Slot) : s.cap c = (s.chan c).cap := rfl

/-- Reading a byte reads the memory and the parameters only. -/
theorem byteAt_congr {s t : State} (hp : t.par = s.par) (h : t.mem = s.mem) (sp : Space) (i : Idx) :
    t.byteAt sp i = s.byteAt sp i := by
  simp only [State.byteAt, State.unwrittenByte, h, hp]

/-- Which bytes are written reads the memory only. -/
theorem written_congr {s t : State} (h : t.mem = s.mem) (sp : Space) (i : Idx) : t.written sp i = s.written sp i := by
  simp only [State.written, h]

/-- Reading a slot's registers reads the channels only. -/
theorem chan_congr {s t : State} (h : t.chans = s.chans) (c : Slot) : t.chan c = s.chan c := by
  simp only [State.chan, h]

/-- Reading a peripheral's state reads the peripherals only. -/
theorem periph_congr {s t : State} (h : t.periphs = s.periphs) (p : Pid) : t.periph p = s.periph p := by
  simp only [State.periph, h]

/-- Reading a registry entry reads the registry only. -/
theorem regAt_congr {s t : State} (h : t.reg = s.reg) (k : Pid) : t.regAt k = s.regAt k := by
  simp only [State.regAt, h]

end Sys2Proof.Machine
end

