-- ==== Sys2Proof/Laws/Memory.lean ====
section
/-! SUPPORT. The laws of the memory list: read after write, the canonical form is kept, and spaces do not overlap. -/

namespace Sys2Proof.Machine

theorem Memory.read_write_same (m : Memory) (x : Nat) (v : Byte) : (m.write x v).read x = some v := by
  induction m with
  | nil => simp [Memory.write, Memory.read]
  | cons e m ih =>
    obtain ⟨a, w⟩ := e
    unfold Memory.write
    split
    · simp [Memory.read]
    · split
      · simp [Memory.read]
      · next h => simp [Memory.read, Ne.symm h, ih]

theorem Memory.read_write_ne (m : Memory) {x y : Nat} (v : Byte) (h : y ≠ x) :
    (m.write x v).read y = m.read y := by
  induction m with
  | nil => simp [Memory.write, Memory.read, Ne.symm h]
  | cons e m ih =>
    obtain ⟨a, w⟩ := e
    unfold Memory.write
    split
    · simp [Memory.read, Ne.symm h]
    · split
      · next hx => subst hx; simp [Memory.read, Ne.symm h]
      · simp [Memory.read, ih]

/-- What a write lists: the written address, and what was listed. -/
theorem Memory.mem_write {m : Memory} {x : Nat} {v : Byte} {e : Host.Cell} (h : e ∈ m.write x v) :
    e = (x, v) ∨ e ∈ m := by
  induction m with
  | nil => exact Or.inl (by simpa [Memory.write] using h)
  | cons f m ih =>
    obtain ⟨a, w⟩ := f
    unfold Memory.write at h
    split at h
    · simpa using h
    · split at h
      · rcases List.mem_cons.1 h with h | h
        · exact Or.inl h
        · exact Or.inr (List.mem_cons_of_mem _ h)
      · rcases List.mem_cons.1 h with h | h
        · exact Or.inr (h ▸ List.mem_cons_self ..)
        · exact (ih h).imp_right (List.mem_cons_of_mem _)

/-- A write keeps the canonical form. -/
theorem Memory.wf_write {m : Memory} (h : m.wf) (x : Nat) (v : Byte) : (m.write x v).wf := by
  refine ⟨?_, fun e _ => by simp [Memory.unlisted]⟩
  have hp := h.1
  clear h
  induction m with
  | nil => simp [Memory.write]
  | cons e m ih =>
    obtain ⟨a, w⟩ := e
    simp only [List.map_cons, List.pairwise_cons] at hp
    unfold Memory.write
    split
    · next hx =>
      simp only [List.map_cons, List.pairwise_cons]
      refine ⟨?_, hp⟩
      intro b hb
      rcases List.mem_cons.1 hb with hb | hb
      · exact hb ▸ hx
      · exact Nat.lt_trans hx (hp.1 b hb)
    · split
      · next hx => subst hx; simpa using hp
      · next h1 h2 =>
        simp only [List.map_cons, List.pairwise_cons]
        refine ⟨?_, ih hp.2⟩
        intro b hb
        obtain ⟨e, he, rfl⟩ := List.mem_map.1 hb
        rcases Memory.mem_write he with he | he
        · subst he; simp only; omega
        · exact hp.1 _ (List.mem_map_of_mem he)

/-- Equal canonical memories are those that read alike. -/
theorem Memory.read_eq_none_of_lt {m : Memory} {a : Nat} {w : Byte}
    (h : (((a, w) :: m).map Prod.fst).Pairwise (· < ·)) {x : Nat} (hx : x ≤ a) : Memory.read m x = none := by
  induction m generalizing a w with
  | nil => rfl
  | cons e m ih =>
    obtain ⟨b, u⟩ := e
    simp only [List.map_cons, List.pairwise_cons] at h
    have hab : a < b := h.1 b (by simp)
    have hne : b ≠ x := by omega
    simp only [Memory.read, hne, if_false]
    exact ih (a := b) (w := u) (by simpa using h.2) (by omega)

/-- The places of the spaces do not overlap (log 4). -/
theorem Space.addr_inj {sp sp' : Space} {i i' : Idx} (h : sp.addr i = sp'.addr i') : sp = sp' ∧ i = i' := by
  have h1 := i.isLt
  have h2 := i'.isLt
  cases sp <;> cases sp' <;> simp only [Space.addr] at h <;>
    first
    | omega
    | (refine ⟨congrArg _ (Fin.ext (by omega)), BitVec.eq_of_toNat_eq (by omega)⟩)

/-- A byte written at one place of one space reads back there and nowhere else. -/
theorem byteAt_write (s : State) (sp sp' : Space) (i i' : Idx) (v : Byte) :
    ({ s with mem := s.mem.write (sp.addr i) v } : State).byteAt sp' i' =
      if sp' = sp ∧ i' = i then some v else s.byteAt sp' i' := by
  unfold State.byteAt
  split
  · next h => obtain ⟨rfl, rfl⟩ := h; rw [Memory.read_write_same]; rfl
  · next h => rw [Memory.read_write_ne _ _ fun e => h (Space.addr_inj e)]; rfl

/-- A byte written at one place of one space is written there, and no other byte becomes written. -/
theorem written_write (s : State) (sp sp' : Space) (i i' : Idx) (v : Byte) :
    ({ s with mem := s.mem.write (sp.addr i) v } : State).written sp' i' =
      if sp' = sp ∧ i' = i then true else s.written sp' i' := by
  unfold State.written
  split
  · next h => obtain ⟨rfl, rfl⟩ := h; rw [Memory.read_write_same]; rfl
  · next h => rw [Memory.read_write_ne _ _ fun e => h (Space.addr_inj e)]

/-- Where a byte nothing has written is a fault, the bytes with a value are the written ones. -/
theorem byteAt_none_iff {s : State} (h : s.par.unwritten = .fault) (sp : Space) (i : Idx) :
    s.byteAt sp i = none ↔ s.written sp i = false := by
  simp only [State.byteAt, State.written, State.unwrittenByte, h, Option.or_none]
  cases s.mem.read (sp.addr i) <;> simp

/-- Where a byte nothing has written has any value, every byte has one. -/
theorem byteAt_of_anyValue {s : State} (h : s.par.unwritten = .anyValue) (sp : Space) (i : Idx) :
    ∃ v, s.byteAt sp i = some v := by
  simp only [State.byteAt, State.unwrittenByte, h]
  cases s.mem.read (sp.addr i) with
  | none => exact ⟨_, rfl⟩
  | some v => exact ⟨v, rfl⟩

/-- Everything `MemWrite` can do. -/
theorem memWrite_ok {s t : State} {sp : Space} {i : Idx} {v : Byte} (h : s.memWrite sp i v = .ok t) :
    i.toNat < s.size sp ∧ t = { s with mem := s.mem.write (sp.addr i) v } := by
  unfold State.memWrite at h
  split at h
  · next hi => exact ⟨hi, (Except.ok.inj h).symm⟩
  · cases h

/-- Everything `MemRead` can do. -/
theorem memRead_ok {s : State} {sp : Space} {i : Idx} {v : Byte} (h : s.memRead sp i = .ok v) :
    i.toNat < s.size sp ∧ s.byteAt sp i = some v := by
  unfold State.memRead at h
  split at h
  · next hi =>
    split at h
    · next w hw => exact ⟨hi, hw.trans (congrArg some (Except.ok.inj h))⟩
    · cases h
  · cases h

/-- `MemRead` of a written byte of an index that exists answers it. -/
theorem memRead_of_written {s : State} {sp : Space} {i : Idx} {v : Byte} (hi : i.toNat < s.size sp)
    (hv : s.byteAt sp i = some v) : s.memRead sp i = .ok v := by
  simp [State.memRead, hi, hv]

/-- `MemWrite` of an index that exists writes. -/
theorem memWrite_of_size {s : State} {sp : Space} {i : Idx} (v : Byte) (hi : i.toNat < s.size sp) :
    s.memWrite sp i v = .ok { s with mem := s.mem.write (sp.addr i) v } := by
  simp [State.memWrite, hi]

end Sys2Proof.Machine
end

