-- ==== Sys2Proof/Laws/Buffer.lean ====
section
/-! SUPPORT. The index arithmetic, and everything each buffer access and primitive can do. -/

namespace Sys2Proof.Machine

/-! ### Index arithmetic (40_buffer_engine.md R128) -/

theorem idxSucc_toNat (x n : Idx) (h : 0 < n.toNat) : (idxSucc x n).toNat = (x.toNat + 1) % n.toNat := by
  have h1 : (x.toNat + 1) % n.toNat < n.toNat := Nat.mod_lt _ h
  have h2 := n.isLt
  simp only [idxSucc, BitVec.toNat_ofNat]
  exact Nat.mod_eq_of_lt (by omega)

theorem idxSucc_lt {x n : Idx} (h : x.toNat < n.toNat) : (idxSucc x n).toNat < n.toNat := by
  rw [idxSucc_toNat x n (by omega)]
  exact Nat.mod_lt _ (by omega)

/-- The two-case form of `(h - t + N) mod N`. -/
theorem occupancyAt_toNat {h t n : Idx} (hh : h.toNat < n.toNat) (ht : t.toNat < n.toNat) :
    (occupancyAt h t n).toNat = if t.toNat ≤ h.toNat then h.toNat - t.toNat else h.toNat + n.toNat - t.toNat := by
  have h2 := n.isLt
  have key : ((h.toNat : Int) - t.toNat + n.toNat) % n.toNat =
      if t.toNat ≤ h.toNat then (h.toNat : Int) - t.toNat else h.toNat + n.toNat - t.toNat := by
    split
    · rw [Int.add_emod_right]; exact Int.emod_eq_of_lt (by omega) (by omega)
    · have e : (h.toNat : Int) - t.toNat + n.toNat = h.toNat + n.toNat - t.toNat := by omega
      rw [e]; exact Int.emod_eq_of_lt (by omega) (by omega)
  simp only [occupancyAt, key, BitVec.toNat_ofNat]
  split <;> omega

theorem occupancyAt_lt {h t n : Idx} (hh : h.toNat < n.toNat) (ht : t.toNat < n.toNat) :
    (occupancyAt h t n).toNat < n.toNat := by
  rw [occupancyAt_toNat hh ht]; split <;> omega

/-! ### A buffer's indices in range -/

theorem bufOk_iff (s : State) (b : Buf) :
    s.bufOk b = true ↔ (s.head b).toNat < (s.cap b.c).toNat ∧ (s.tail b).toNat < (s.cap b.c).toNat := by
  simp [State.bufOk]

/-- Whether a buffer's indices are in range reads the channels only. -/
theorem bufOk_congr {s t : State} (h : t.chans = s.chans) (b : Buf) : t.bufOk b = s.bufOk b := by
  rw [Bool.eq_iff_iff, bufOk_iff, bufOk_iff]
  rcases b with ⟨c, side⟩
  cases side <;> simp only [State.head, State.tail, State.cap, chan_congr h]

@[simp] theorem bufOk_with_mem (s : State) (m : Memory) (b : Buf) :
    ({ s with mem := m } : State).bufOk b = s.bufOk b := rfl

theorem size_space (s : State) (b : Buf) : s.size b.space = (s.cap b.c).toNat := by
  rcases b with ⟨c, side⟩; cases side <;> rfl

theorem onBuf_ok {s : State} {b : Buf} {α : Type} {k : Except Stop α} {x : α} :
    s.onBuf b k = .ok x ↔ s.bufOk b = true ∧ k = .ok x := by
  unfold State.onBuf
  split <;> simp_all

theorem onBuf_pure_ok {s : State} {b : Buf} {α : Type} {x y : α} :
    s.onBuf b (.ok y) = .ok x ↔ s.bufOk b = true ∧ x = y := by
  rw [onBuf_ok]
  exact and_congr_right fun _ => ⟨fun h => (Except.ok.inj h).symm, fun h => congrArg _ h.symm⟩

theorem onBuf_of_bufOk {s : State} {b : Buf} {α : Type} (k : Except Stop α) (h : s.bufOk b = true) :
    s.onBuf b k = k := by simp [State.onBuf, h]

theorem head_lt_cap {s : State} {b : Buf} (h : s.bufOk b = true) : (s.head b).toNat < (s.cap b.c).toNat :=
  ((bufOk_iff s b).1 h).1

theorem tail_lt_cap {s : State} {b : Buf} (h : s.bufOk b = true) : (s.tail b).toNat < (s.cap b.c).toNat :=
  ((bufOk_iff s b).1 h).2

theorem bufOk_setHead {s : State} (a b : Buf) {v : Idx} (hv : v.toNat < (s.cap b.c).toNat)
    (h : s.bufOk a = true) : (s.setHead b v).bufOk a = true := by
  rw [bufOk_iff] at h ⊢
  rw [head_setHead, tail_setHead, setHead_cap]
  split
  · next e => subst e; exact ⟨hv, h.2⟩
  · exact h

theorem bufOk_setTail {s : State} (a b : Buf) {v : Idx} (hv : v.toNat < (s.cap b.c).toNat)
    (h : s.bufOk a = true) : (s.setTail b v).bufOk a = true := by
  rw [bufOk_iff] at h ⊢
  rw [head_setTail, tail_setTail, setTail_cap]
  split
  · next e => subst e; exact ⟨h.1, hv⟩
  · exact h

/-! ### Single accesses -/

section accesses

variable {s : State} {b : Buf}

theorem loadHead_ok {h : Idx} : loadHead b s = .ok h ↔ s.bufOk b = true ∧ h = s.head b := by
  rw [loadHead, onBuf_pure_ok]

theorem loadTail_ok {t : Idx} : loadTail b s = .ok t ↔ s.bufOk b = true ∧ t = s.tail b := by
  rw [loadTail, onBuf_pure_ok]

theorem loadHead_of_bufOk (h : s.bufOk b = true) : loadHead b s = .ok (s.head b) := by
  simp [loadHead, onBuf_of_bufOk, h]

theorem loadTail_of_bufOk (h : s.bufOk b = true) : loadTail b s = .ok (s.tail b) := by
  simp [loadTail, onBuf_of_bufOk, h]

theorem storeByte_ok {i : Idx} {v : Byte} {t : State} :
    storeByte b i v s = .ok t ↔
      s.bufOk b = true ∧ i.toNat < (s.cap b.c).toNat ∧ t = { s with mem := s.mem.write (b.space.addr i) v } := by
  rw [storeByte, onBuf_ok]
  refine and_congr_right fun _ => ⟨fun h => ?_, fun h => ?_⟩
  · have := memWrite_ok h
    rw [size_space] at this
    exact this
  · rw [memWrite_of_size v (by rw [size_space]; exact h.1), h.2]

theorem loadByte_ok {i : Idx} {v : Byte} :
    loadByte b i s = .ok v ↔
      s.bufOk b = true ∧ i.toNat < (s.cap b.c).toNat ∧ s.byteAt b.space i = some v := by
  rw [loadByte, onBuf_ok]
  refine and_congr_right fun _ => ⟨fun h => ?_, fun h => ?_⟩
  · have := memRead_ok h
    rw [size_space] at this
    exact this
  · exact memRead_of_written (by rw [size_space]; exact h.1) h.2

theorem advanceHead_ok {i : Idx} {t : State} :
    advanceHead b i s = .ok t ↔ s.bufOk b = true ∧ t = s.setHead b (idxSucc i (s.cap b.c)) := by
  rw [advanceHead, onBuf_pure_ok]

theorem advanceTail_ok {i : Idx} {t : State} :
    advanceTail b i s = .ok t ↔ s.bufOk b = true ∧ t = s.setTail b (idxSucc i (s.cap b.c)) := by
  rw [advanceTail, onBuf_pure_ok]

theorem resetFirst_ok {t : State} :
    resetFirst b s = .ok t ↔ s.bufOk b = true ∧
      t = (match s.par.flushOrder with | .headFirst => s.setHead b 0 | .tailFirst => s.setTail b 0) := by
  unfold resetFirst; exact onBuf_pure_ok

theorem resetSecond_ok {t : State} :
    resetSecond b s = .ok t ↔ s.bufOk b = true ∧
      t = (match s.par.flushOrder with | .headFirst => s.setTail b 0 | .tailFirst => s.setHead b 0) := by
  unfold resetSecond; exact onBuf_pure_ok

end accesses

/-! ### Primitives run whole -/

/-- The state a successful push leaves. -/
def pushed (b : Buf) (v : Byte) (s : State) : State :=
  { s with mem := s.mem.write (b.space.addr (s.head b)) v }.setHead b (idxSucc (s.head b) (s.cap b.c))

/-- The state a successful pop leaves. -/
def popped (b : Buf) (s : State) : State := s.setTail b (idxSucc (s.tail b) (s.cap b.c))

/-- `push` on a buffer whose indices are in range (40_buffer_engine.md R121). -/
theorem push_of_bufOk {s : State} {b : Buf} (v : Byte) (h : s.bufOk b = true) :
    push b v s = .ok (if isFullAt (s.head b) (s.tail b) (s.cap b.c) then (false, s) else (true, pushed b v s)) := by
  simp only [push, loadHead_of_bufOk h, loadTail_of_bufOk h, bind, Except.bind, pure, Except.pure]
  split
  · rfl
  · have hs : storeByte b (s.head b) v s = .ok { s with mem := s.mem.write (b.space.addr (s.head b)) v } :=
      storeByte_ok.2 ⟨h, head_lt_cap h, rfl⟩
    have ha : advanceHead b (s.head b) { s with mem := s.mem.write (b.space.addr (s.head b)) v } =
        .ok (pushed b v s) := advanceHead_ok.2 ⟨h, rfl⟩
    simp only [hs, ha]

/-- Everything `push` can do. -/
theorem push_ok {s t : State} {b : Buf} {v : Byte} {r : Bool} (h : push b v s = .ok (r, t)) :
    s.bufOk b = true ∧
      ((isFullAt (s.head b) (s.tail b) (s.cap b.c) = true ∧ r = false ∧ t = s) ∨
       (isFullAt (s.head b) (s.tail b) (s.cap b.c) = false ∧ r = true ∧ t = pushed b v s)) := by
  by_cases hb : s.bufOk b = true
  · rw [push_of_bufOk v hb] at h
    refine ⟨hb, ?_⟩
    split at h
    · next hf => obtain ⟨rfl, rfl⟩ := Prod.mk.inj (Except.ok.inj h); exact Or.inl ⟨hf, rfl, rfl⟩
    · next hf => obtain ⟨rfl, rfl⟩ := Prod.mk.inj (Except.ok.inj h); exact Or.inr ⟨by simpa using hf, rfl, rfl⟩
  · simp [push, loadHead, State.onBuf, hb, bind, Except.bind] at h

/-- `pop` on an empty buffer whose indices are in range (40_buffer_engine.md R122). -/
theorem pop_of_empty {s : State} {b : Buf} (h : s.bufOk b = true) (he : s.head b = s.tail b) :
    pop b s = .ok (none, s) := by
  simp [pop, loadHead_of_bufOk h, loadTail_of_bufOk h, bind, Except.bind, isEmptyAt, he, pure, Except.pure]

/-- `pop` on a non-empty buffer whose oldest byte was written (40_buffer_engine.md R122). -/
theorem pop_of_written {s : State} {b : Buf} {v : Byte} (h : s.bufOk b = true) (he : s.head b ≠ s.tail b)
    (hv : s.byteAt b.space (s.tail b) = some v) : pop b s = .ok (some v, popped b s) := by
  have hl : loadByte b (s.tail b) s = .ok v := loadByte_ok.2 ⟨h, tail_lt_cap h, hv⟩
  have ha : advanceTail b (s.tail b) s = .ok (popped b s) := advanceTail_ok.2 ⟨h, rfl⟩
  simp [pop, loadHead_of_bufOk h, loadTail_of_bufOk h, bind, Except.bind, isEmptyAt, he, hl, ha, pure, Except.pure]

/-- Everything `pop` can do. -/
theorem pop_ok {s t : State} {b : Buf} {r : Option Byte} (h : pop b s = .ok (r, t)) :
    s.bufOk b = true ∧
      ((s.head b = s.tail b ∧ r = none ∧ t = s) ∨
       (s.head b ≠ s.tail b ∧ ∃ v, s.byteAt b.space (s.tail b) = some v ∧ r = some v ∧ t = popped b s)) := by
  by_cases hb : s.bufOk b = true
  · refine ⟨hb, ?_⟩
    by_cases he : s.head b = s.tail b
    · rw [pop_of_empty hb he] at h
      obtain ⟨rfl, rfl⟩ := Prod.mk.inj (Except.ok.inj h)
      exact Or.inl ⟨he, rfl, rfl⟩
    · right
      refine ⟨he, ?_⟩
      cases hv : s.byteAt b.space (s.tail b) with
      | some v =>
        rw [pop_of_written hb he hv] at h
        obtain ⟨rfl, rfl⟩ := Prod.mk.inj (Except.ok.inj h)
        exact ⟨v, rfl, rfl, rfl⟩
      | none =>
        have hl : loadByte b (s.tail b) s = .error (.fault .unwrittenByte) := by
          have := tail_lt_cap hb
          simp [loadByte, onBuf_of_bufOk _ hb, State.memRead, size_space, this, hv]
        simp [pop, loadHead_of_bufOk hb, loadTail_of_bufOk hb, bind, Except.bind, isEmptyAt, he, hl] at h
  · simp [pop, loadHead, State.onBuf, hb, bind, Except.bind] at h

end Sys2Proof.Machine
end

