-- ==== Sys2Proof/Laws/HwLayer.lean ====
section
/-! SUPPORT. What the hardware layer's calls answer and leave unchanged: none touches the block, the inputs or the
results, and each touches one peripheral at most (44_hardware_layer.md R210 to R221). -/

namespace Sys2Proof.Machine

/-- What a call of the hardware layer for peripheral `p` leaves unchanged. -/
structure LayerStep (p : Pid) (s t : State) : Prop where
  block : SameBlock s t
  inputs : SameInputs s t
  results : t.results = s.results
  periphs : SamePeriphsBut p s t
  envFault : t.envFault = s.envFault

theorem LayerStep.refl (p : Pid) (s : State) : LayerStep p s s :=
  ⟨⟨rfl, rfl, rfl, rfl⟩, ⟨rfl, rfl, rfl, rfl⟩, rfl, fun _ _ => rfl, rfl⟩

theorem LayerStep.trans {p : Pid} {s t u : State} (h : LayerStep p s t) (k : LayerStep p t u) : LayerStep p s u :=
  ⟨⟨k.block.chans.trans h.block.chans, k.block.reg.trans h.block.reg, k.block.mem.trans h.block.mem,
      k.block.upc.trans h.block.upc⟩,
    ⟨k.inputs.par.trans h.inputs.par, k.inputs.counts.trans h.inputs.counts, k.inputs.cmdQ.trans h.inputs.cmdQ,
      k.inputs.turns.trans h.inputs.turns⟩,
    k.results.trans h.results, fun q hq => (k.periphs q hq).trans (h.periphs q hq), k.envFault.trans h.envFault⟩

theorem layerStep_setPeriph (p : Pid) (x : Periph) (s : State) : LayerStep p s (s.setPeriph p x) :=
  ⟨⟨rfl, rfl, rfl, rfl⟩, ⟨rfl, rfl, rfl, rfl⟩, rfl, fun _ hq => periph_setPeriph_ne s x hq, rfl⟩

theorem layerStep_log (p : Pid) (r : HwRecord) (s : State) : LayerStep p s (s.log r) :=
  ⟨⟨rfl, rfl, rfl, rfl⟩, ⟨rfl, rfl, rfl, rfl⟩, rfl, fun _ _ => rfl, rfl⟩

theorem layerStep_draws (p : Pid) (n : Nat) (s : State) : LayerStep p s { s with draws := n } :=
  ⟨⟨rfl, rfl, rfl, rfl⟩, ⟨rfl, rfl, rfl, rfl⟩, rfl, fun _ _ => rfl, rfl⟩

theorem layerStep_setRxArm (p : Pid) (v : Option Slot) (s : State) : LayerStep p s (s.setRxArm p v) := by
  unfold State.setRxArm
  split
  · exact layerStep_setPeriph ..
  · exact LayerStep.refl ..

theorem referenceArm_ok {p : Pid} {c : Slot} {s t : State} {st : HwStatus} (h : referenceArm p c s = .ok (st, t)) :
    LayerStep p s t := by
  unfold referenceArm at h
  generalize takeForced (s.periph p).injRx = fr at h
  obtain ⟨forced, rest⟩ := fr
  cases forced with
  | some f => obtain ⟨rfl, rfl⟩ := Prod.mk.inj (Except.ok.inj h); exact layerStep_setPeriph ..
  | none =>
    simp only at h
    split at h
    · cases h
    · obtain ⟨rfl, rfl⟩ := Prod.mk.inj (Except.ok.inj h)
      exact (layerStep_setPeriph ..).trans (layerStep_setPeriph ..)

theorem referenceArm_error {p : Pid} {c : Slot} {s : State} {e : Stop} (h : referenceArm p c s = .error e) :
    ∃ t, e = .envFault t ∧ LayerStep p s t := by
  unfold referenceArm at h
  generalize takeForced (s.periph p).injRx = fr at h
  obtain ⟨forced, rest⟩ := fr
  cases forced with
  | some f => cases h
  | none =>
    simp only at h
    split at h
    · cases h; exact ⟨_, rfl, layerStep_setPeriph ..⟩
    · cases h

theorem layerStep_freeArm (p : Pid) (c : Slot) (s : State) : LayerStep p s (freeArm p c s).2 := by
  by_cases h : HwStatus.ofBits (Config.freeAnswer s.draws) = .ok
  · simp only [freeArm, drawStatus, h, if_true]
    exact (layerStep_draws ..).trans (layerStep_setRxArm ..)
  · simp only [freeArm, drawStatus, h, if_false]
    exact layerStep_draws ..

/-- Everything `hw_receive_arm` leaves unchanged. -/
theorem hwReceiveArm_ok {p : Pid} {c : Slot} {s t : State} {st : HwStatus} (h : hwReceiveArm p c s = .ok (st, t)) :
    LayerStep p s t ∧ t.hwlog.getLast? = some (.receiveArm p c st) := by
  unfold hwReceiveArm at h
  split at h
  · cases ha : referenceArm p c s with
    | ok r =>
      obtain ⟨st', u⟩ := r
      simp only [ha, bind, Except.bind, pure, Except.pure] at h
      obtain ⟨rfl, rfl⟩ := Prod.mk.inj (Except.ok.inj h)
      exact ⟨(referenceArm_ok ha).trans (layerStep_log ..), by simp⟩
    | error e => simp [ha, bind, Except.bind] at h
  · simp only [bind, Except.bind, pure, Except.pure] at h
    obtain ⟨rfl, rfl⟩ := Prod.mk.inj (Except.ok.inj h)
    exact ⟨(layerStep_freeArm ..).trans (layerStep_log ..), by simp⟩

/-- A call of `hw_receive_arm` stops only by the double arm (44_hardware_layer.md R218). -/
theorem hwReceiveArm_error {p : Pid} {c : Slot} {s : State} {e : Stop} (h : hwReceiveArm p c s = .error e) :
    ∃ t, e = .envFault t ∧ LayerStep p s t := by
  unfold hwReceiveArm at h
  split at h
  · cases ha : referenceArm p c s with
    | ok r => simp [ha, bind, Except.bind, pure, Except.pure] at h
    | error e' =>
      simp only [ha, bind, Except.bind] at h
      cases h
      exact referenceArm_error ha
  · simp [bind, Except.bind, pure, Except.pure] at h

theorem layerStep_transmit (p : Pid) (b : Byte) (s : State) : LayerStep p s (hwTransmitByte p b s).2 := by
  unfold hwTransmitByte
  refine LayerStep.trans ?_ (layerStep_log ..)
  split
  · unfold referenceTransmit
    generalize takeForced (s.periph p).injTx = fr
    obtain ⟨forced, rest⟩ := fr
    cases forced with
    | some f => exact layerStep_setPeriph ..
    | none =>
      simp only
      split
      · exact layerStep_setPeriph ..
      · exact (layerStep_setPeriph ..).trans (layerStep_setPeriph ..)
  · exact layerStep_draws ..

theorem layerStep_isReady (p : Pid) (s : State) : LayerStep p s (hwIsReady p s).2 := by
  unfold hwIsReady
  refine LayerStep.trans ?_ (layerStep_log ..)
  split
  · exact LayerStep.refl ..
  · exact layerStep_draws ..

theorem layerStep_unlock (p : Pid) (s : State) : LayerStep p s (hwUnlockAndAbortReceive p s) :=
  (layerStep_setRxArm ..).trans (layerStep_log ..)

theorem layerStep_layerRx (p : Pid) (s : State) : LayerStep p s (layerRx p s) := by
  unfold layerRx
  split
  · exact layerStep_setPeriph ..
  · exact LayerStep.refl ..

theorem layerStep_layerTx (p : Pid) (s : State) : LayerStep p s (layerTx p s) := by
  unfold layerTx
  split
  · exact layerStep_setPeriph ..
  · exact LayerStep.refl ..

/-- The handler's hardware part leaves the block alone. -/
theorem rearm_ok {p : Pid} {c : Slot} {s t : State} (h : rearm p c s = .ok t) : LayerStep p s t := by
  unfold rearm at h
  cases h1 : hwReceiveArm p c s with
  | error e => simp [h1, bind, Except.bind] at h
  | ok r =>
    obtain ⟨st, u⟩ := r
    simp only [h1, bind, Except.bind, pure, Except.pure] at h
    split at h
    · cases h; exact (hwReceiveArm_ok h1).1
    · cases h2 : hwReceiveArm p c (hwUnlockAndAbortReceive p u) with
      | error e => simp [h2] at h
      | ok r =>
        obtain ⟨st2, w⟩ := r
        simp only [h2] at h
        cases h
        exact ((hwReceiveArm_ok h1).1.trans (layerStep_unlock ..)).trans (hwReceiveArm_ok h2).1

/-- The handler's hardware part stops only by the double arm. -/
theorem rearm_error {p : Pid} {c : Slot} {s : State} {e : Stop} (h : rearm p c s = .error e) :
    ∃ t, e = .envFault t ∧ LayerStep p s t := by
  unfold rearm at h
  cases h1 : hwReceiveArm p c s with
  | error e' => simp only [h1, bind, Except.bind] at h; cases h; exact hwReceiveArm_error h1
  | ok r =>
    obtain ⟨st, u⟩ := r
    simp only [h1, bind, Except.bind, pure, Except.pure] at h
    split at h
    · cases h
    · cases h2 : hwReceiveArm p c (hwUnlockAndAbortReceive p u) with
      | ok r => simp [h2] at h
      | error e' =>
        simp only [h2] at h
        cases h
        obtain ⟨t, rfl, ht⟩ := hwReceiveArm_error h2
        exact ⟨t, rfl, ((hwReceiveArm_ok h1).1.trans (layerStep_unlock ..)).trans ht⟩

/-! ### What the calls answer -/

section answers

variable {p : Pid} {c : Slot} {b : Byte} {s : State}

theorem answersByReference_of (hp : p.val < s.par.np) (hm : s.par.hwModel = .reference) :
    s.answersByReference p = true := by simp [State.answersByReference, hp, hm]

theorem answersByReference_free (hm : s.par.hwModel = .free) : s.answersByReference p = false := by
  simp [State.answersByReference, hm]

theorem answersByReference_absent (hp : s.par.np ≤ p.val) : s.answersByReference p = false := by
  simp [State.answersByReference, Nat.not_lt.2 hp]

@[simp] theorem setRxArm_hwlog (v : Option Slot) (s : State) : (s.setRxArm p v).hwlog = s.hwlog := by
  unfold State.setRxArm; split <;> rfl

theorem freeArm_hwlog : (freeArm p c s).2.hwlog = s.hwlog := by
  by_cases h : HwStatus.ofBits (Config.freeAnswer s.draws) = .ok
  · simp only [freeArm, drawStatus, h, if_true]; exact setRxArm_hwlog ..
  · simp only [freeArm, drawStatus, h, if_false]

theorem takeForced_cons {st : HwStatus} {rest : List HwStatus} (h : st ≠ .ok) :
    takeForced (st :: rest) = (some st, rest) := by cases st <;> simp_all [takeForced]

/-- A forced failure is answered and consumed. -/
theorem hwReceiveArm_forced {st : HwStatus} {rest : List HwStatus} (h : s.answersByReference p = true)
    (hi : (s.periph p).injRx = st :: rest) (hs : st ≠ .ok) :
    hwReceiveArm p c s = .ok (st, (s.setPeriph p { s.periph p with injRx := rest }).log (.receiveArm p c st)) := by
  simp only [hwReceiveArm, h, if_true, referenceArm, hi, takeForced_cons hs, bind, Except.bind, pure, Except.pure]

/-- With no failure forced and nothing armed, the request arms. -/
theorem hwReceiveArm_arms {rest : List HwStatus} (h : s.answersByReference p = true)
    (hi : takeForced (s.periph p).injRx = (none, rest)) (ha : (s.periph p).rxArm = none) :
    hwReceiveArm p c s = .ok (.ok,
      (s.setPeriph p { s.periph p with injRx := rest, rxArm := some c }).log (.receiveArm p c .ok)) := by
  simp only [hwReceiveArm, h, if_true, referenceArm, hi, periph_setPeriph_same, ha, bind, Except.bind, pure,
    Except.pure]
  congr 2
  simp [State.setPeriph, State.log]

/-- With no failure forced and a receive armed, no answer is given. -/
theorem hwReceiveArm_double {rest : List HwStatus} {d : Slot} (h : s.answersByReference p = true)
    (hi : takeForced (s.periph p).injRx = (none, rest)) (ha : (s.periph p).rxArm = some d) :
    hwReceiveArm p c s = .error (.envFault (s.setPeriph p { s.periph p with injRx := rest })) := by
  simp only [hwReceiveArm, h, if_true, referenceArm, hi, periph_setPeriph_same, ha, bind, Except.bind]

/-- A free answer. -/
theorem hwReceiveArm_free (h : s.answersByReference p = false) :
    hwReceiveArm p c s = .ok ((freeArm p c s).1, (freeArm p c s).2.log (.receiveArm p c (freeArm p c s).1)) := by
  simp only [hwReceiveArm, h]
  rfl

/-- Nothing waits, or a forced ok does, exactly when no failure is taken. -/
theorem takeForced_none {waiting rest : List HwStatus} :
    takeForced waiting = (none, rest) ↔ NoFailureForced waiting rest := by
  cases waiting with
  | nil => simp [takeForced, NoFailureForced, eq_comm]
  | cons st l => cases st <;> simp [takeForced, NoFailureForced, eq_comm]

/-- Everything an arm request can do under the reference layer. -/
theorem hwReceiveArm_cases (h : s.answersByReference p = true) :
    (∃ st rest, (s.periph p).injRx = st :: rest ∧ st ≠ .ok ∧
      hwReceiveArm p c s = .ok (st, (s.setPeriph p { s.periph p with injRx := rest }).log (.receiveArm p c st))) ∨
    (∃ rest, NoFailureForced (s.periph p).injRx rest ∧ (s.periph p).rxArm = none ∧
      hwReceiveArm p c s = .ok (.ok,
        (s.setPeriph p { s.periph p with injRx := rest, rxArm := some c }).log (.receiveArm p c .ok))) ∨
    ∃ rest, NoFailureForced (s.periph p).injRx rest ∧ (s.periph p).rxArm ≠ none ∧
      hwReceiveArm p c s = .error (.envFault (s.setPeriph p { s.periph p with injRx := rest })) := by
  have natural : ∀ rest, takeForced (s.periph p).injRx = (none, rest) →
      (∃ rest, NoFailureForced (s.periph p).injRx rest ∧ (s.periph p).rxArm = none ∧
        hwReceiveArm p c s = .ok (.ok,
          (s.setPeriph p { s.periph p with injRx := rest, rxArm := some c }).log (.receiveArm p c .ok))) ∨
      ∃ rest, NoFailureForced (s.periph p).injRx rest ∧ (s.periph p).rxArm ≠ none ∧
        hwReceiveArm p c s = .error (.envFault (s.setPeriph p { s.periph p with injRx := rest })) := by
    intro rest hf
    cases ha : (s.periph p).rxArm with
    | none => exact Or.inl ⟨rest, takeForced_none.1 hf, rfl, hwReceiveArm_arms h hf ha⟩
    | some d => exact Or.inr ⟨rest, takeForced_none.1 hf, Option.some_ne_none d, hwReceiveArm_double h hf ha⟩
  cases hi : (s.periph p).injRx with
  | nil => rw [← hi]; exact Or.inr (natural [] (by rw [hi]; rfl))
  | cons st rest =>
    by_cases hs : st = .ok
    · subst hs; rw [← hi]; exact Or.inr (natural rest (by rw [hi]; rfl))
    · exact Or.inl ⟨st, rest, rfl, hs, hwReceiveArm_forced h hi hs⟩

/-- The record an answered arm request leaves. -/
theorem hwReceiveArm_hwlog {t : State} {st : HwStatus} (h : hwReceiveArm p c s = .ok (st, t)) :
    t.hwlog = s.hwlog ++ [.receiveArm p c st] := by
  cases hr : s.answersByReference p with
  | false =>
    rw [hwReceiveArm_free hr] at h
    obtain ⟨rfl, rfl⟩ := Prod.mk.inj (Except.ok.inj h)
    exact congrArg (· ++ _) freeArm_hwlog
  | true =>
    rcases hwReceiveArm_cases (c := c) hr with ⟨_, _, _, _, e⟩ | ⟨_, _, _, e⟩ | ⟨_, _, _, e⟩ <;> rw [e] at h
    · obtain ⟨rfl, rfl⟩ := Prod.mk.inj (Except.ok.inj h)
      rfl
    · obtain ⟨rfl, rfl⟩ := Prod.mk.inj (Except.ok.inj h)
      rfl
    · cases h

theorem hwIsReady_reference (h : s.answersByReference p = true) :
    hwIsReady p s = (!(s.periph p).txBusy, s.log (.isReady p (!(s.periph p).txBusy))) := by
  simp only [hwIsReady, h, if_true]

theorem hwIsReady_free (h : s.answersByReference p = false) :
    hwIsReady p s = ((drawReady s).1, (drawReady s).2.log (.isReady p (drawReady s).1)) := by
  simp only [hwIsReady, h]
  rfl

theorem hwTransmitByte_free (h : s.answersByReference p = false) :
    hwTransmitByte p b s = ((drawStatus s).1, (drawStatus s).2.log (.transmitByte p b (drawStatus s).1)) := by
  simp only [hwTransmitByte, h]
  rfl

theorem hwTransmitByte_reference (h : s.answersByReference p = true) :
    hwTransmitByte p b s = ((referenceTransmit p b s).1,
      (referenceTransmit p b s).2.log (.transmitByte p b (referenceTransmit p b s).1)) := by
  simp only [hwTransmitByte, h, if_true]

theorem referenceTransmit_hwlog : (referenceTransmit p b s).2.hwlog = s.hwlog := by
  unfold referenceTransmit
  generalize takeForced (s.periph p).injTx = fr
  obtain ⟨forced, rest⟩ := fr
  cases forced with
  | some f => rfl
  | none =>
    simp only
    split <;> rfl

/-- The record a transmit request leaves. -/
theorem hwTransmitByte_hwlog :
    (hwTransmitByte p b s).2.hwlog = s.hwlog ++ [.transmitByte p b (hwTransmitByte p b s).1] := by
  cases h : s.answersByReference p with
  | false => rw [hwTransmitByte_free h]; rfl
  | true => rw [hwTransmitByte_reference h]; exact congrArg (· ++ _) referenceTransmit_hwlog

/-- The record a ready request leaves. -/
theorem hwIsReady_hwlog : (hwIsReady p s).2.hwlog = s.hwlog ++ [.isReady p (hwIsReady p s).1] := by
  cases h : s.answersByReference p with
  | false => rw [hwIsReady_free h]; rfl
  | true => rw [hwIsReady_reference h]; rfl

/-- A forced failure is answered and consumed. -/
theorem hwTransmitByte_forced {st : HwStatus} {rest : List HwStatus} (h : s.answersByReference p = true)
    (hi : (s.periph p).injTx = st :: rest) (hs : st ≠ .ok) :
    hwTransmitByte p b s = (st, (s.setPeriph p { s.periph p with injTx := rest }).log (.transmitByte p b st)) := by
  simp only [hwTransmitByte, h, if_true, referenceTransmit, hi, takeForced_cons hs]

/-- With no failure forced, a peripheral in transmission answers busy. -/
theorem hwTransmitByte_busy {rest : List HwStatus} (h : s.answersByReference p = true)
    (hi : takeForced (s.periph p).injTx = (none, rest)) (hb : (s.periph p).txBusy = true) :
    hwTransmitByte p b s = (.busy, (s.setPeriph p { s.periph p with injTx := rest }).log (.transmitByte p b .busy)) := by
  simp only [hwTransmitByte, h, if_true, referenceTransmit, hi, periph_setPeriph_same, hb]

/-- With no failure forced, an idle peripheral starts the transmission. -/
theorem hwTransmitByte_starts {rest : List HwStatus} (h : s.answersByReference p = true)
    (hi : takeForced (s.periph p).injTx = (none, rest)) (hb : (s.periph p).txBusy = false) :
    hwTransmitByte p b s = (.ok, (s.setPeriph p
      { s.periph p with injTx := rest, txBusy := true, txCur := b }).log (.transmitByte p b .ok)) := by
  simp only [hwTransmitByte, h, if_true, referenceTransmit, hi, periph_setPeriph_same, hb]
  simp [State.setPeriph, State.log]

/-- The reference layer's part in IRQRX leaves no completion pending. -/
theorem layerRx_periph (hp : p.val < s.par.np) (hm : s.par.hwModel = .reference) :
    (layerRx p s).periph p = { s.periph p with rxDone := false } := by
  unfold layerRx
  rw [answersByReference_of hp hm, Bool.true_and]
  split
  · exact periph_setPeriph_same ..
  · next h => rw [← Bool.eq_false_iff.2 h]

/-- The reference layer's part in IRQTX moves a byte in flight to the line, and does nothing when there is none. -/
theorem layerTx_periph (hp : p.val < s.par.np) (hm : s.par.hwModel = .reference) :
    (layerTx p s).periph p = { s.periph p with
      line := if (s.periph p).txBusy then (s.periph p).line ++ [(s.periph p).txCur] else (s.periph p).line
      txBusy := false } := by
  unfold layerTx
  rw [answersByReference_of hp hm, Bool.true_and]
  split
  · exact periph_setPeriph_same ..
  · next h => rw [← Bool.eq_false_iff.2 h]

end answers

end Sys2Proof.Machine
end

