-- ==== Sys2Proof/Laws/Commands.lean ====
section
/-! SUPPORT. How a meaning ends, what a command's turn can do, and what taking an event can do; once, for every
instruction that is made of them. -/

namespace Sys2Proof.Machine

/-! ### How a meaning ends -/

/-- Everything a meaning that goes on can have done: ended, or stopped in a double arm. -/
theorem finish_next {r : Except Stop State} {t : State} :
    finish r = .next t ↔ r = .ok t ∨ ∃ u, r = .error (.envFault u) ∧ t = { u with envFault := true } := by
  rcases r with (r | u) | s
  · simp [finish]
  · simp [finish, eq_comm]
  · simp [finish]

theorem finish_fault {r : Except Stop State} {f : Fault} : finish r = .fault f ↔ r = .error (.fault f) := by
  rcases r with (r | u) | s <;> simp [finish]

theorem finish_ne_refused {r : Except Stop State} {x : Refusal} : finish r ≠ .refused x := by
  rcases r with (r | u) | s <;> simp [finish]

/-! ### A command's turn -/

theorem Upc.command_eq_none {u : Upc} : u.command = none ↔ u = .idle := by
  cases u <;> simp [Upc.command]

section command

variable {i : Instr} {first : Upc} {micro : State → Except Stop State} {s t : State}

theorem runCommand_of_idle (h : s.upc = .idle) : runCommand i first micro s = .next (s.setUpc first) := by
  simp [runCommand, h, Upc.command]

theorem runCommand_of_running (h : s.upc.command = some i) : runCommand i first micro s = finish (micro s) := by
  simp [runCommand, h]

theorem runCommand_of_other {j : Instr} (h : s.upc.command = some j) (hj : j ≠ i) :
    runCommand i first micro s = .next s := by
  simp [runCommand, h, hj]

/-- Everything a command's turn can do when it goes on. -/
theorem runCommand_next (h : runCommand i first micro s = .next t) :
    (s.upc = .idle ∧ t = s.setUpc first) ∨ (s.upc.command = some i ∧ finish (micro s) = .next t) ∨
      (s.upc.command ≠ none ∧ s.upc.command ≠ some i ∧ t = s) := by
  cases hc : s.upc.command with
  | none =>
    rw [Upc.command_eq_none] at hc
    rw [runCommand_of_idle hc] at h
    cases h
    exact Or.inl ⟨hc, rfl⟩
  | some j =>
    by_cases hj : j = i
    · subst hj; rw [runCommand_of_running hc] at h; exact Or.inr (Or.inl ⟨rfl, h⟩)
    · rw [runCommand_of_other hc hj] at h
      cases h
      exact Or.inr (Or.inr ⟨by simp, by simpa using hj, rfl⟩)

/-- A command's turn faults only in its own micro-step. -/
theorem runCommand_fault {f : Fault} (h : runCommand i first micro s = .fault f) :
    s.upc.command = some i ∧ micro s = .error (.fault f) := by
  cases hc : s.upc.command with
  | none => rw [Upc.command_eq_none] at hc; rw [runCommand_of_idle hc] at h; cases h
  | some j =>
    by_cases hj : j = i
    · subst hj; rw [runCommand_of_running hc] at h; exact ⟨rfl, finish_fault.1 h⟩
    · rw [runCommand_of_other hc hj] at h; cases h

theorem runCommand_ne_refused {x : Refusal} : runCommand i first micro s ≠ .refused x := by
  cases hc : s.upc.command with
  | none => rw [Upc.command_eq_none] at hc; rw [runCommand_of_idle hc]; simp
  | some j =>
    by_cases hj : j = i
    · subst hj; rw [runCommand_of_running hc]; exact finish_ne_refused
    · rw [runCommand_of_other hc hj]; simp

end command

/-- Channel selection: the command goes on, or returns NOCHAN. -/
theorem selecting_ok {c : Slot} {k : Except Stop State} {s t : State} (h : selecting c k s = .ok t) :
    (s.selects c = true ∧ k = .ok t) ∨ (s.selects c = false ∧ t = s.endCommand .nochan 0) := by
  unfold selecting at h
  split at h
  · next hs => exact Or.inl ⟨hs, h⟩
  · next hs => exact Or.inr ⟨by simpa using hs, (Except.ok.inj h).symm⟩

theorem selecting_of_selects {c : Slot} {s : State} (k : Except Stop State) (h : s.selects c = true) :
    selecting c k s = k := by simp [selecting, h]

theorem selects_iff (s : State) (c : Slot) : s.selects c = true ↔ c.val < s.par.nch ∧ (s.chan c).valid = true := by
  simp [State.selects]

/-! ### Every instruction is one of: a command's turn, an event, a word of the hardware layer -/

/-- No instruction is refused. -/
theorem exec_ne_refused (i : Instr) (s : State) (x : Refusal) : exec i s ≠ .refused x := by
  cases i with
  | construct c k n => exact runCommand_ne_refused
  | beginCh c => exact runCommand_ne_refused
  | read c => exact runCommand_ne_refused
  | write c b => exact runCommand_ne_refused
  | avail c => exact runCommand_ne_refused
  | rcount c => exact runCommand_ne_refused
  | flushRx c => exact runCommand_ne_refused
  | flushTx c => exact runCommand_ne_refused
  | irqRx k => exact finish_ne_refused
  | irqTx k => exact finish_ne_refused
  | hwrxd k b => exact finish_ne_refused
  | hwinj k sel st =>
    show execHwinj k sel st s ≠ _
    unfold execHwinj
    split <;> simp
  | hwReceiveArm p c => exact finish_ne_refused
  | hwTransmitByte p b => simp [exec, execHwTransmitByte]
  | hwIsReady p => simp [exec, execHwIsReady]
  | hwUnlockAndAbortReceive p => simp [exec, execHwUnlockAndAbortReceive]

/-! ### Taking an event -/

/-- Everything taking an event can do: nothing after the layer's part, or the handler of the channel `lookup` finds. -/
theorem takeEvent_eq (k : Pid) (layer : State → State) (handler : Slot → State → Except Stop State) (s : State) :
    takeEvent k layer handler s =
      match lookup k (layer s) with
      | none => .ok (layer s)
      | some c => handler c (layer s) := by
  show (match lookup k (layer s) with
    | none => Except.ok (layer s)
    | some c => match handler c (layer s) with | .ok s => .ok s | .error e => .error e) = _
  cases lookup k (layer s) with
  | none => rfl
  | some c =>
    show (match handler c (layer s) with | .ok s => Except.ok s | .error e => .error e) = handler c (layer s)
    cases handler c (layer s) <;> rfl

theorem lookup_eq_some {k : Pid} {s : State} {c : Slot} :
    lookup k s = some c ↔ k.val < s.par.np ∧ s.regAt k = some c := by
  simp [lookup]

theorem lookup_eq_none {k : Pid} {s : State} :
    lookup k s = none ↔ s.par.np ≤ k.val ∨ s.regAt k = none := by
  unfold lookup
  split <;> simp_all

/-- `lookup` reads the parameters and the registry only. -/
theorem lookup_congr {s t : State} (hp : t.par = s.par) (hr : t.reg = s.reg) (k : Pid) : lookup k t = lookup k s := by
  simp [lookup, State.regAt, hp, hr]

/-- The scratch byte reads as what was delivered, else the read faults. -/
theorem loadScratch_eq (c : Slot) (s : State) :
    loadScratch c s = match s.byteAt (.scr c) 0 with
      | some v => .ok v
      | none => .error (.fault .unwrittenByte) := rfl

theorem loadScratch_ok {c : Slot} {s : State} {v : Byte} (h : loadScratch c s = .ok v) :
    s.byteAt (.scr c) 0 = some v := by
  rw [loadScratch_eq] at h
  split at h
  · next w hw => exact hw.trans (congrArg some (Except.ok.inj h))
  · cases h

theorem loadScratch_of_written {c : Slot} {s : State} {v : Byte} (h : s.byteAt (.scr c) 0 = some v) :
    loadScratch c s = .ok v := by rw [loadScratch_eq, h]

/-- `push` stops only on an index out of range. -/
theorem push_error {s : State} {b : Buf} {v : Byte} {e : Stop} (h : push b v s = .error e) :
    s.bufOk b = false ∧ e = .fault .indexOutOfRange := by
  by_cases hb : s.bufOk b = true
  · rw [push_of_bufOk v hb] at h; cases h
  · simp only [push, loadHead, State.onBuf, hb, bind, Except.bind] at h
    exact ⟨by simpa using hb, by simpa [eq_comm] using h⟩

/-- `on_receive_complete` with its scratch byte delivered and its RX indices in range. -/
theorem onReceiveComplete_eq {c : Slot} {s : State} {v : Byte} (hv : s.byteAt (.scr c) 0 = some v)
    (hb : s.bufOk ⟨c, .rx⟩ = true) :
    onReceiveComplete c s =
      (if isFullAt (s.head ⟨c, .rx⟩) (s.tail ⟨c, .rx⟩) (s.cap c) then rearm (s.chan c).handle c s
       else rearm (s.chan c).handle c (pushed ⟨c, .rx⟩ v s)) := by
  simp only [onReceiveComplete, loadScratch_of_written hv, push_of_bufOk v hb, bind, Except.bind]
  split
  · rfl
  · have hh : ((pushed ⟨c, .rx⟩ v s).chan c).handle = (s.chan c).handle := by
      rw [pushed, setHead_handle]; rfl
    simp only [hh]

/-- Everything `on_receive_complete` can do: fault on an undelivered scratch byte or an index out of range, or push and
re-arm. -/
theorem onReceiveComplete_cases (c : Slot) (s : State) :
    onReceiveComplete c s = .error (.fault .unwrittenByte) ∨
    onReceiveComplete c s = .error (.fault .indexOutOfRange) ∧ s.bufOk ⟨c, .rx⟩ = false ∨
    ∃ v, s.byteAt (.scr c) 0 = some v ∧ s.bufOk ⟨c, .rx⟩ = true := by
  cases hv : s.byteAt (.scr c) 0 with
  | none => exact Or.inl (by simp only [onReceiveComplete, loadScratch_eq, hv, bind, Except.bind])
  | some v =>
    by_cases hb : s.bufOk ⟨c, .rx⟩ = true
    · exact Or.inr (Or.inr ⟨v, rfl, hb⟩)
    · refine Or.inr (Or.inl ⟨?_, by simpa using hb⟩)
      simp only [onReceiveComplete, loadScratch_of_written hv, push, loadHead, State.onBuf, hb, bind, Except.bind]
      rfl

/-- `on_transmit_complete` on an empty buffer. -/
theorem onTransmitComplete_of_empty {c : Slot} {s : State} (hb : s.bufOk ⟨c, .tx⟩ = true)
    (he : s.head ⟨c, .tx⟩ = s.tail ⟨c, .tx⟩) : onTransmitComplete c s = .ok s := by
  simp only [onTransmitComplete, pop_of_empty hb he, bind, Except.bind]
  rfl

/-- `on_transmit_complete` on a non-empty buffer whose oldest byte was written. -/
theorem onTransmitComplete_of_written {c : Slot} {s : State} {v : Byte} (hb : s.bufOk ⟨c, .tx⟩ = true)
    (he : s.head ⟨c, .tx⟩ ≠ s.tail ⟨c, .tx⟩) (hv : s.byteAt (.txmem c) (s.tail ⟨c, .tx⟩) = some v) :
    onTransmitComplete c s = .ok (hwTransmitByte (s.chan c).handle v (popped ⟨c, .tx⟩ s)).2 := by
  have hp : pop ⟨c, .tx⟩ s = .ok (some v, popped ⟨c, .tx⟩ s) := pop_of_written hb he hv
  have hh : ((popped ⟨c, .tx⟩ s).chan c).handle = (s.chan c).handle := by simp [popped]
  simp only [onTransmitComplete, hp, bind, Except.bind, hh]
  rfl

/-- Everything `on_transmit_complete` can do: fault on a byte never written or an index out of range, or one of the two
cases above. -/
theorem onTransmitComplete_cases (c : Slot) (s : State) :
    onTransmitComplete c s = .error (.fault .unwrittenByte) ∨
    onTransmitComplete c s = .error (.fault .indexOutOfRange) ∧ s.bufOk ⟨c, .tx⟩ = false ∨
    (s.bufOk ⟨c, .tx⟩ = true ∧ (s.head ⟨c, .tx⟩ = s.tail ⟨c, .tx⟩ ∨
      ∃ v, s.head ⟨c, .tx⟩ ≠ s.tail ⟨c, .tx⟩ ∧ s.byteAt (.txmem c) (s.tail ⟨c, .tx⟩) = some v)) := by
  by_cases hb : s.bufOk ⟨c, .tx⟩ = true
  · by_cases he : s.head ⟨c, .tx⟩ = s.tail ⟨c, .tx⟩
    · exact Or.inr (Or.inr ⟨hb, Or.inl he⟩)
    · cases hv : s.byteAt (.txmem c) (s.tail ⟨c, .tx⟩) with
      | some v => exact Or.inr (Or.inr ⟨hb, Or.inr ⟨v, he, rfl⟩⟩)
      | none =>
        have hl : loadByte ⟨c, .tx⟩ (s.tail ⟨c, .tx⟩) s = .error (.fault .unwrittenByte) := by
          have hlt := tail_lt_cap hb
          have hs : s.memRead (.txmem c) (s.tail ⟨c, .tx⟩) = .error (.fault .unwrittenByte) := by
            simp only [State.memRead, hv]
            exact if_pos hlt
          rw [loadByte, onBuf_of_bufOk _ hb]
          exact hs
        left
        simp [onTransmitComplete, pop, loadHead_of_bufOk hb, loadTail_of_bufOk hb, bind, Except.bind, isEmptyAt, he, hl]
  · refine Or.inr (Or.inl ⟨?_, by simpa using hb⟩)
    simp only [onTransmitComplete, pop, loadHead, State.onBuf, hb, bind, Except.bind]
    rfl

/-! ### The commands one by one, and turns in a row -/

section turns

variable {s t : State} {c : Slot} {b : Byte}

theorem exec_construct_of_running {k : Pid} {n : Idx} (h : s.upc.command = some (.construct c k n)) :
    exec (.construct c k n) s = finish (constructMicro s) := runCommand_of_running h

theorem exec_begin_of_running (h : s.upc.command = some (.beginCh c)) :
    exec (.beginCh c) s = finish (beginMicro s) := runCommand_of_running h

theorem exec_read_of_running (h : s.upc.command = some (.read c)) :
    exec (.read c) s = finish (readMicro s) := runCommand_of_running h

theorem exec_write_of_running (h : s.upc.command = some (.write c b)) :
    exec (.write c b) s = finish (writeMicro s) := runCommand_of_running h

theorem exec_avail_of_running (h : s.upc.command = some (.avail c)) :
    exec (.avail c) s = finish (availMicro s) := runCommand_of_running h

theorem exec_rcount_of_running (h : s.upc.command = some (.rcount c)) :
    exec (.rcount c) s = finish (rcountMicro s) := runCommand_of_running h

theorem exec_flushRx_of_running (h : s.upc.command = some (.flushRx c)) :
    exec (.flushRx c) s = finish (flushRxMicro s) := runCommand_of_running h

theorem exec_flushTx_of_running (h : s.upc.command = some (.flushTx c)) :
    exec (.flushTx c) s = finish (flushTxMicro s) := runCommand_of_running h

theorem selects_of (h1 : c.val < s.par.nch) (h2 : (s.chan c).valid = true) : s.selects c = true :=
  (selects_iff s c).2 ⟨h1, h2⟩

/-- A turn, and the turns after it. -/
theorem turnsOf_succ {i : Instr} {n : Nat} {r : Res} (h : exec i s = .next t) (hr : turnsOf i n t = r) :
    turnsOf i (n + 1) s = r := by
  simp only [turnsOf, h, hr]

theorem resultWord_ok (v : BitVec 16) : resultWord .ok v = v.setWidth 32 := by
  apply BitVec.eq_of_toNat_eq
  have h : (0#16 ++ v).toNat = v.toNat := by simp only [BitVec.toNat_append]; simp
  simp [resultWord, Status.code, h]
  omega

theorem resultWord_ok_byte (v : Byte) : resultWord .ok (v.setWidth 16) = v.setWidth 32 := by
  rw [resultWord_ok]
  apply BitVec.eq_of_toNat_eq
  simp

end turns

end Sys2Proof.Machine
end

