-- ==== Sys2Proof/Laws/Effects.lean ====
section
/-! SUPPORT. Everything an instruction that goes on can do to the block: one relation over all instructions, from which
the rules over the whole machine and the invariant follow by cases. -/

namespace Sys2Proof.Machine

theorem idxSucc_lt_of_pos {x n : Idx} (h : 0 < n.toNat) : (idxSucc x n).toNat < n.toNat := by
  rw [idxSucc_toNat x n h]
  exact Nat.mod_lt _ h

theorem cap_pos {s : State} {b : Buf} (h : s.bufOk b = true) : 0 < (s.cap b.c).toNat :=
  Nat.lt_of_le_of_lt (Nat.zero_le _) (head_lt_cap h)

/-- The flush of one side. -/
def flushOf (side : Side) (c : Slot) : Instr :=
  match side with
  | .rx => .flushRx c
  | .tx => .flushTx c

/-- What instruction `i` did to the channels, the registry and the memory between `s` and `t`. -/
inductive Effect (s t : State) : Instr → Prop where
  /-- Nothing. -/
  | nothing (i : Instr) (hc : t.chans = s.chans) (hr : t.reg = s.reg) (hm : t.mem = s.mem) : Effect s t i
  /-- A channel was constructed. -/
  | construct (c : Slot) (k : Pid) (n : Idx) (h : constructRejected c k n s = false)
      (hc : t.chans = (s.setChan c ⟨true, k, n, 0, 0, 0, 0⟩).chans) (hr : t.reg = (s.setReg k (some c)).reg)
      (hm : t.mem = s.mem) : Effect s t (.construct c k n)
  /-- READ advanced `RXT`. -/
  | readTail (c : Slot) (v : Idx) (ok : s.bufOk ⟨c, .rx⟩ = true) (hv : v.toNat < (s.cap c).toNat)
      (hc : t.chans = (s.setTail ⟨c, .rx⟩ v).chans) (hr : t.reg = s.reg) (hm : t.mem = s.mem) : Effect s t (.read c)
  /-- WRITE stored its byte. -/
  | writeStore (c : Slot) (x : Byte) (h : Idx) (sel : s.upc.selected = some c) (hh : h.toNat < (s.cap c).toNat)
      (hc : t.chans = s.chans) (hr : t.reg = s.reg) (hm : t.mem = s.mem.write ((Space.txmem c).addr h) x) :
      Effect s t (.write c x)
  /-- WRITE advanced `TXH`. -/
  | writeHead (c : Slot) (x : Byte) (v : Idx) (ok : s.bufOk ⟨c, .tx⟩ = true) (hv : v.toNat < (s.cap c).toNat)
      (hc : t.chans = (s.setHead ⟨c, .tx⟩ v).chans) (hr : t.reg = s.reg) (hm : t.mem = s.mem) :
      Effect s t (.write c x)
  /-- WRITE advanced `TXT`. -/
  | writeTail (c : Slot) (x : Byte) (v : Idx) (ok : s.bufOk ⟨c, .tx⟩ = true) (hv : v.toNat < (s.cap c).toNat)
      (hc : t.chans = (s.setTail ⟨c, .tx⟩ v).chans) (hr : t.reg = s.reg) (hm : t.mem = s.mem) :
      Effect s t (.write c x)
  /-- A flush stored 0 in a head. -/
  | flushHead (i : Instr) (c : Slot) (side : Side) (hi : i = flushOf side c) (ok : s.bufOk ⟨c, side⟩ = true)
      (hc : t.chans = (s.setHead ⟨c, side⟩ 0).chans) (hr : t.reg = s.reg) (hm : t.mem = s.mem) :
      Effect s t i
  /-- A flush stored 0 in a tail. -/
  | flushTail (i : Instr) (c : Slot) (side : Side) (hi : i = flushOf side c) (ok : s.bufOk ⟨c, side⟩ = true)
      (hc : t.chans = (s.setTail ⟨c, side⟩ 0).chans) (hr : t.reg = s.reg) (hm : t.mem = s.mem) :
      Effect s t i
  /-- IRQRX pushed its byte. -/
  | receive (k : Pid) (c : Slot) (v : Byte) (hk : lookup k s = some c) (ok : s.bufOk ⟨c, .rx⟩ = true)
      (hc : t.chans = (pushed ⟨c, .rx⟩ v s).chans) (hr : t.reg = s.reg) (hm : t.mem = (pushed ⟨c, .rx⟩ v s).mem) :
      Effect s t (.irqRx k)
  /-- IRQTX popped a byte. -/
  | transmit (k : Pid) (c : Slot) (hk : lookup k s = some c) (ok : s.bufOk ⟨c, .tx⟩ = true)
      (hc : t.chans = (popped ⟨c, .tx⟩ s).chans) (hr : t.reg = s.reg) (hm : t.mem = s.mem) : Effect s t (.irqTx k)
  /-- HWRXD wrote a scratch byte. -/
  | deliver (k : Pid) (c : Slot) (b : Byte) (hc : t.chans = s.chans) (hr : t.reg = s.reg)
      (hm : t.mem = s.mem.write ((Space.scr c).addr 0) b) : Effect s t (.hwrxd k b)

theorem LayerStep.effect {p : Pid} {s t : State} (h : LayerStep p s t) (i : Instr) : Effect s t i :=
  .nothing i h.block.chans h.block.reg h.block.mem

/-! ### Single accesses never stop in a double arm -/

/-- An operation that stops, if it stops, on a byte never written or an index out of range. -/
def FaultsOnly {α : Type} (x : Except Stop α) : Prop :=
  ∀ e, x = .error e → e = .fault .unwrittenByte ∨ e = .fault .indexOutOfRange

theorem faultsOnly_onBuf {s : State} {b : Buf} {α : Type} {k : Except Stop α} (hk : FaultsOnly k) :
    FaultsOnly (s.onBuf b k) := by
  intro e h
  unfold State.onBuf at h
  split at h
  · exact hk e h
  · cases h; exact Or.inr rfl

theorem faultsOnly_ok {α : Type} (a : α) : FaultsOnly (.ok a) := by
  intro e h
  cases h

theorem faultsOnly_memRead {s : State} {sp : Space} {i : Idx} : FaultsOnly (s.memRead sp i) := by
  intro e h
  unfold State.memRead at h
  split at h
  · split at h
    · cases h
    · cases h; exact Or.inl rfl
  · cases h; exact Or.inr rfl

theorem faultsOnly_memWrite {s : State} {sp : Space} {i : Idx} {v : Byte} : FaultsOnly (s.memWrite sp i v) := by
  intro e h
  unfold State.memWrite at h
  split at h
  · cases h
  · cases h; exact Or.inr rfl

theorem FaultsOnly.bind {α β : Type} {x : Except Stop α} {f : α → Except Stop β} (hx : FaultsOnly x)
    (hf : ∀ a, FaultsOnly (f a)) : FaultsOnly (x >>= f) := by
  intro e h
  cases x with
  | error e' => cases h; exact hx _ rfl
  | ok a => exact hf a e h

theorem faultsOnly_selecting {c : Slot} {k : Except Stop State} {s : State} (hk : FaultsOnly k) :
    FaultsOnly (selecting c k s) := by
  unfold selecting
  split
  · exact hk
  · exact faultsOnly_ok _

section accesses

variable {b : Buf} {i : Idx} {v : Byte} {s : State}

theorem faultsOnly_loadHead : FaultsOnly (loadHead b s) := faultsOnly_onBuf (faultsOnly_ok _)
theorem faultsOnly_loadTail : FaultsOnly (loadTail b s) := faultsOnly_onBuf (faultsOnly_ok _)
theorem faultsOnly_storeByte : FaultsOnly (storeByte b i v s) := faultsOnly_onBuf faultsOnly_memWrite
theorem faultsOnly_loadByte : FaultsOnly (loadByte b i s) := faultsOnly_onBuf faultsOnly_memRead
theorem faultsOnly_advanceHead : FaultsOnly (advanceHead b i s) := faultsOnly_onBuf (faultsOnly_ok _)
theorem faultsOnly_advanceTail : FaultsOnly (advanceTail b i s) := faultsOnly_onBuf (faultsOnly_ok _)
theorem faultsOnly_resetFirst : FaultsOnly (resetFirst b s) := faultsOnly_onBuf (faultsOnly_ok _)
theorem faultsOnly_resetSecond : FaultsOnly (resetSecond b s) := faultsOnly_onBuf (faultsOnly_ok _)

end accesses

/-- An access and what follows it: both went on. -/
theorem finish_bind {α : Type} {x : Except Stop α} {f : α → Except Stop State} {t : State} (hx : FaultsOnly x)
    (h : finish (x >>= f) = .next t) : ∃ a, x = .ok a ∧ finish (f a) = .next t := by
  cases x with
  | error e => rcases hx e rfl with rfl | rfl <;> cases h
  | ok a => exact ⟨a, rfl, h⟩

/-- Channel selection and what follows it. -/
theorem finish_selecting {c : Slot} {k : Except Stop State} {s t : State}
    (h : finish (selecting c k s) = .next t) :
    (s.selects c = true ∧ finish k = .next t) ∨ (s.selects c = false ∧ t = s.endCommand .nochan 0) := by
  unfold selecting at h
  split at h
  · next hs => exact Or.inl ⟨hs, h⟩
  · next hs => cases h; exact Or.inr ⟨by simpa using hs, rfl⟩

/-! ### The commands' micro-steps -/

section micro

variable {s t u : State} {c : Slot}

theorem constructMicro_effect {k : Pid} {n : Idx} (hu : s.upc.command = some (.construct c k n))
    (h : finish (constructMicro s) = .next t) : Effect s t (.construct c k n) := by
  unfold constructMicro at h
  split at h
  · next c' k' n' he =>
    rw [he] at hu
    obtain ⟨rfl, rfl, rfl⟩ := by simpa [Upc.command] using hu
    split at h
    · cases h; exact .nothing _ rfl rfl rfl
    · next hr => cases h; exact .construct _ _ _ (by simpa using hr) rfl rfl rfl
  · cases h; exact .nothing _ rfl rfl rfl

theorem beginMicro_effect (h : finish (beginMicro s) = .next t) : Effect s t (.beginCh c) := by
  unfold beginMicro at h
  split at h
  · next c' he =>
    unfold selecting at h
    split at h
    · cases ha : hwReceiveArm (s.chan c').handle c' s with
      | ok r =>
        simp only [ha, bind, Except.bind, pure, Except.pure] at h
        cases h
        have := (hwReceiveArm_ok (st := r.1) (t := r.2) ha).1
        exact .nothing _ this.block.chans this.block.reg this.block.mem
      | error e =>
        obtain ⟨w, rfl, hl⟩ := hwReceiveArm_error ha
        simp only [ha, bind, Except.bind] at h
        cases h
        exact .nothing _ hl.block.chans hl.block.reg hl.block.mem
    · cases h; exact .nothing _ rfl rfl rfl
  · cases h; exact .nothing _ rfl rfl rfl

theorem readMicro_effect (hu : s.upc.command = some (.read c)) (h : finish (readMicro s) = .next t) :
    Effect s t (.read c) := by
  unfold readMicro at h
  split at h
  · rcases finish_selecting h with ⟨_, h⟩ | ⟨_, rfl⟩
    · obtain ⟨a, _, h⟩ := finish_bind faultsOnly_loadHead h
      cases h
      exact .nothing _ rfl rfl rfl
    · exact .nothing _ rfl rfl rfl
  · obtain ⟨a, _, h⟩ := finish_bind faultsOnly_loadTail h
    cases h
    split <;> exact .nothing _ rfl rfl rfl
  · obtain ⟨a, _, h⟩ := finish_bind faultsOnly_loadByte h
    cases h
    exact .nothing _ rfl rfl rfl
  · next c' _ x v he =>
    rw [he] at hu
    obtain rfl : c' = c := by simpa [Upc.command] using hu
    obtain ⟨a, ha, h⟩ := finish_bind faultsOnly_advanceTail h
    obtain ⟨hb, rfl⟩ := advanceTail_ok.1 ha
    cases h
    exact .readTail _ (idxSucc x (s.cap c')) hb (idxSucc_lt_of_pos (cap_pos hb)) (by simp) (by simp) (by simp)
  · cases h
    exact .nothing _ rfl rfl rfl

theorem availMicro_effect (h : finish (availMicro s) = .next t) : Effect s t (.avail c) := by
  unfold availMicro at h
  split at h
  · rcases finish_selecting h with ⟨_, h⟩ | ⟨_, rfl⟩
    · obtain ⟨a, _, h⟩ := finish_bind faultsOnly_loadHead h
      cases h
      exact .nothing _ rfl rfl rfl
    · exact .nothing _ rfl rfl rfl
  · obtain ⟨a, _, h⟩ := finish_bind faultsOnly_loadTail h
    cases h
    exact .nothing _ rfl rfl rfl
  · cases h
    exact .nothing _ rfl rfl rfl

theorem rcountMicro_effect (h : finish (rcountMicro s) = .next t) : Effect s t (.rcount c) := by
  unfold rcountMicro at h
  split at h
  · rcases finish_selecting h with ⟨_, h⟩ | ⟨_, rfl⟩
    · obtain ⟨a, _, h⟩ := finish_bind faultsOnly_loadHead h
      cases h
      exact .nothing _ rfl rfl rfl
    · exact .nothing _ rfl rfl rfl
  · obtain ⟨a, _, h⟩ := finish_bind faultsOnly_loadTail h
    cases h
    exact .nothing _ rfl rfl rfl
  · cases h
    exact .nothing _ rfl rfl rfl

theorem resetFirst_effect {side : Side} (h : resetFirst ⟨c, side⟩ s = .ok u) :
    Effect s u (flushOf side c) := by
  obtain ⟨hb, rfl⟩ := resetFirst_ok.1 h
  split
  · exact .flushHead _ _ _ rfl hb rfl (by simp) (by simp)
  · exact .flushTail _ _ _ rfl hb rfl (by simp) (by simp)

theorem resetSecond_effect {side : Side} (h : resetSecond ⟨c, side⟩ s = .ok u) :
    Effect s u (flushOf side c) := by
  obtain ⟨hb, rfl⟩ := resetSecond_ok.1 h
  split
  · exact .flushTail _ _ _ rfl hb rfl (by simp) (by simp)
  · exact .flushHead _ _ _ rfl hb rfl (by simp) (by simp)

/-- An effect is a relation between the blocks only. -/
theorem Effect.congr {i : Instr} (h : Effect s u i) (hc : t.chans = u.chans) (hr : t.reg = u.reg)
    (hm : t.mem = u.mem) : Effect s t i := by
  cases h with
  | nothing i a b d => exact .nothing _ (hc.trans a) (hr.trans b) (hm.trans d)
  | construct c k n e a b d => exact .construct _ _ _ e (hc.trans a) (hr.trans b) (hm.trans d)
  | readTail c v ok hv a b d => exact .readTail _ _ ok hv (hc.trans a) (hr.trans b) (hm.trans d)
  | writeStore c x h e hh a b d => exact .writeStore _ _ _ e hh (hc.trans a) (hr.trans b) (hm.trans d)
  | writeHead c x v ok hv a b d => exact .writeHead _ _ _ ok hv (hc.trans a) (hr.trans b) (hm.trans d)
  | writeTail c x v ok hv a b d => exact .writeTail _ _ _ ok hv (hc.trans a) (hr.trans b) (hm.trans d)
  | flushHead i c side hi ok a b d => exact .flushHead _ _ _ hi ok (hc.trans a) (hr.trans b) (hm.trans d)
  | flushTail i c side hi ok a b d => exact .flushTail _ _ _ hi ok (hc.trans a) (hr.trans b) (hm.trans d)
  | receive k c v e ok a b d => exact .receive _ _ _ e ok (hc.trans a) (hr.trans b) (hm.trans d)
  | transmit k c e ok a b d => exact .transmit _ _ e ok (hc.trans a) (hr.trans b) (hm.trans d)
  | deliver k c b a b' d => exact .deliver _ _ _ (hc.trans a) (hr.trans b') (hm.trans d)

theorem flushRxMicro_effect (hu : s.upc.command = some (.flushRx c)) (h : finish (flushRxMicro s) = .next t) :
    Effect s t (.flushRx c) := by
  unfold flushRxMicro at h
  split at h
  · next c' he =>
    rw [he] at hu
    obtain rfl : c' = c := by simpa [Upc.command] using hu
    rcases finish_selecting h with ⟨_, h⟩ | ⟨_, rfl⟩
    · obtain ⟨a, ha, h⟩ := finish_bind faultsOnly_resetFirst h
      cases h
      exact (resetFirst_effect ha).congr rfl rfl rfl
    · exact .nothing _ rfl rfl rfl
  · next c' he =>
    rw [he] at hu
    obtain rfl : c' = c := by simpa [Upc.command] using hu
    obtain ⟨a, ha, h⟩ := finish_bind faultsOnly_resetSecond h
    cases h
    exact (resetSecond_effect ha).congr rfl rfl rfl
  · cases h
    exact .nothing _ rfl rfl rfl

theorem flushTxMicro_effect (hu : s.upc.command = some (.flushTx c)) (h : finish (flushTxMicro s) = .next t) :
    Effect s t (.flushTx c) := by
  unfold flushTxMicro at h
  split at h
  · next c' he =>
    rw [he] at hu
    obtain rfl : c' = c := by simpa [Upc.command] using hu
    rcases finish_selecting h with ⟨_, h⟩ | ⟨_, rfl⟩
    · obtain ⟨a, ha, h⟩ := finish_bind faultsOnly_resetFirst h
      cases h
      exact (resetFirst_effect ha).congr rfl rfl rfl
    · exact .nothing _ rfl rfl rfl
  · next c' he =>
    rw [he] at hu
    obtain rfl : c' = c := by simpa [Upc.command] using hu
    obtain ⟨a, ha, h⟩ := finish_bind faultsOnly_resetSecond h
    cases h
    exact (resetSecond_effect ha).congr rfl rfl rfl
  · cases h
    exact .nothing _ rfl rfl rfl

theorem writeMicro_effect {b : Byte} (hu : s.upc.command = some (.write c b)) (h : finish (writeMicro s) = .next t) :
    Effect s t (.write c b) := by
  unfold writeMicro at h
  split at h
  · rcases finish_selecting h with ⟨_, h⟩ | ⟨_, rfl⟩
    · obtain ⟨a, _, h⟩ := finish_bind faultsOnly_loadHead h
      cases h
      exact .nothing _ rfl rfl rfl
    · exact .nothing _ rfl rfl rfl
  · obtain ⟨a, _, h⟩ := finish_bind faultsOnly_loadTail h
    cases h
    split <;> exact .nothing _ rfl rfl rfl
  · next c' b' x y he =>
    obtain ⟨rfl, rfl⟩ : c' = c ∧ b' = b := by rw [he] at hu; simpa [Upc.command] using hu
    obtain ⟨a, ha, h⟩ := finish_bind faultsOnly_storeByte h
    obtain ⟨hb, hh, rfl⟩ := storeByte_ok.1 ha
    cases h
    exact .writeStore _ _ _ (by rw [he]; rfl) hh rfl rfl rfl
  · next c' b' x y he =>
    obtain ⟨rfl, rfl⟩ : c' = c ∧ b' = b := by rw [he] at hu; simpa [Upc.command] using hu
    obtain ⟨a, ha, h⟩ := finish_bind faultsOnly_advanceHead h
    obtain ⟨hb, rfl⟩ := advanceHead_ok.1 ha
    cases h
    exact .writeHead _ _ (idxSucc x (s.cap c')) hb (idxSucc_lt_of_pos (cap_pos hb)) (by simp) (by simp) (by simp)
  · next c' b' x y he =>
    have hl := layerStep_isReady (s.chan c').handle s
    cases h
    split
    · exact .nothing _ hl.block.chans hl.block.reg hl.block.mem
    · exact .nothing _ hl.block.chans hl.block.reg hl.block.mem
  · obtain ⟨a, _, h⟩ := finish_bind faultsOnly_loadHead h
    cases h
    exact .nothing _ rfl rfl rfl
  · obtain ⟨a, _, h⟩ := finish_bind faultsOnly_loadTail h
    cases h
    split <;> exact .nothing _ rfl rfl rfl
  · obtain ⟨a, _, h⟩ := finish_bind faultsOnly_loadByte h
    cases h
    exact .nothing _ rfl rfl rfl
  · next c' b' x y r h2 t2 v he =>
    obtain ⟨rfl, rfl⟩ : c' = c ∧ b' = b := by rw [he] at hu; simpa [Upc.command] using hu
    obtain ⟨a, ha, h⟩ := finish_bind faultsOnly_advanceTail h
    obtain ⟨hb, rfl⟩ := advanceTail_ok.1 ha
    cases h
    exact .writeTail _ _ (idxSucc t2 (s.cap c')) hb (idxSucc_lt_of_pos (cap_pos hb)) (by simp) (by simp) (by simp)
  · next c' _ _ _ _ _ _ v he =>
    have hl := layerStep_transmit (s.chan c').handle v s
    cases h
    exact .nothing _ hl.block.chans hl.block.reg hl.block.mem
  · cases h
    exact .nothing _ rfl rfl rfl

end micro

/-! ### The events -/

/-- Everything the handler's hardware part can do, whether or not it ends in a double arm. -/
theorem rearm_next {p : Pid} {c : Slot} {s t : State} (h : finish (rearm p c s) = .next t) :
    t.chans = s.chans ∧ t.reg = s.reg ∧ t.mem = s.mem ∧ t.upc = s.upc ∧ t.results = s.results ∧ SameInputs s t ∧
      SamePeriphsBut p s t := by
  cases hr : rearm p c s with
  | ok u =>
    rw [hr] at h
    cases h
    have hl := rearm_ok hr
    exact ⟨hl.block.chans, hl.block.reg, hl.block.mem, hl.block.upc, hl.results, hl.inputs, hl.periphs⟩
  | error e =>
    obtain ⟨u, rfl, hl⟩ := rearm_error hr
    rw [hr] at h
    cases h
    exact ⟨hl.block.chans, hl.block.reg, hl.block.mem, hl.block.upc, hl.results,
      ⟨hl.inputs.par, hl.inputs.counts, hl.inputs.cmdQ, hl.inputs.turns⟩, hl.periphs⟩

/-- The handler's hardware part always goes on. -/
theorem rearm_goes_on (p : Pid) (c : Slot) (s : State) : ∃ t, finish (rearm p c s) = .next t := by
  cases hr : rearm p c s with
  | ok u => exact ⟨u, rfl⟩
  | error e =>
    obtain ⟨u, rfl, _⟩ := rearm_error hr
    exact ⟨_, rfl⟩

/-- IRQRX as its parts: the layer's part, then the handler of the channel `lookup` finds. -/
theorem execIrqRx_eq (k : Pid) (s : State) :
    exec (.irqRx k) s = match lookup k s with
      | none => .next (layerRx k s)
      | some c => finish (onReceiveComplete c (layerRx k s)) := by
  have hl := layerStep_layerRx k s
  show execIrqRx k s = _
  rw [execIrqRx, takeEvent_eq, lookup_congr hl.inputs.par hl.block.reg]
  cases lookup k s <;> rfl

/-- IRQTX as its parts. -/
theorem execIrqTx_eq (k : Pid) (s : State) :
    exec (.irqTx k) s = match lookup k s with
      | none => .next (layerTx k s)
      | some c => finish (onTransmitComplete c (layerTx k s)) := by
  have hl := layerStep_layerTx k s
  show execIrqTx k s = _
  rw [execIrqTx, takeEvent_eq, lookup_congr hl.inputs.par hl.block.reg]
  cases lookup k s <;> rfl

theorem pushed_congr {s l : State} (hc : l.chans = s.chans) (hm : l.mem = s.mem) (b : Buf) (v : Byte) :
    (pushed b v l).chans = (pushed b v s).chans ∧ (pushed b v l).mem = (pushed b v s).mem := by
  rcases b with ⟨c, side⟩
  cases side <;>
    simp only [pushed, State.setHead, State.setChan, State.head, State.cap, State.chan, hc, hm, and_self]

theorem popped_congr {s l : State} (hc : l.chans = s.chans) (b : Buf) :
    (popped b l).chans = (popped b s).chans := by
  rcases b with ⟨c, side⟩
  cases side <;>
    simp only [popped, State.setTail, State.setChan, State.tail, State.cap, State.chan, hc]

theorem execIrqRx_effect {k : Pid} {s t : State} (h : exec (.irqRx k) s = .next t) : Effect s t (.irqRx k) := by
  have hl := layerStep_layerRx k s
  rw [execIrqRx_eq] at h
  split at h
  · cases h
    exact hl.effect _
  · next c hk =>
    rcases onReceiveComplete_cases c (layerRx k s) with e | ⟨e, _⟩ | ⟨v, hv, hb⟩
    · rw [e] at h; cases h
    · rw [e] at h; cases h
    · rw [onReceiveComplete_eq hv hb] at h
      split at h
      · obtain ⟨a, b, d, _⟩ := rearm_next h
        exact .nothing _ (a.trans hl.block.chans) (b.trans hl.block.reg) (d.trans hl.block.mem)
      · obtain ⟨a, b, d, _⟩ := rearm_next h
        obtain ⟨e1, e2⟩ := pushed_congr hl.block.chans hl.block.mem ⟨c, .rx⟩ v
        refine .receive _ _ v hk ((bufOk_congr hl.block.chans _).symm.trans hb) (a.trans e1) (b.trans ?_) (d.trans e2)
        simp only [pushed, setHead_reg]
        exact hl.block.reg

theorem execIrqTx_effect {k : Pid} {s t : State} (h : exec (.irqTx k) s = .next t) : Effect s t (.irqTx k) := by
  have hl := layerStep_layerTx k s
  rw [execIrqTx_eq] at h
  split at h
  · cases h
    exact hl.effect _
  · next c hk =>
    rcases onTransmitComplete_cases c (layerTx k s) with e | ⟨e, _⟩ | ⟨hb, he | ⟨v, he, hv⟩⟩
    · rw [e] at h; cases h
    · rw [e] at h; cases h
    · rw [onTransmitComplete_of_empty hb he] at h
      cases h
      exact hl.effect _
    · rw [onTransmitComplete_of_written hb he hv] at h
      cases h
      have ht := (layerStep_transmit ((layerTx k s).chan c).handle v (popped ⟨c, .tx⟩ (layerTx k s))).block
      refine .transmit _ _ hk ((bufOk_congr hl.block.chans _).symm.trans hb)
        (ht.chans.trans (popped_congr hl.block.chans _)) (ht.reg.trans ?_) (ht.mem.trans ?_)
      · simp only [popped, setTail_reg]; exact hl.block.reg
      · simp only [popped, setTail_mem]; exact hl.block.mem

theorem execHwrxd_effect {k : Pid} {b : Byte} {s t : State} (h : exec (.hwrxd k b) s = .next t) :
    Effect s t (.hwrxd k b) := by
  change finish (deliver k b s) = .next t at h
  unfold deliver at h
  split at h
  · split at h
    · cases h; exact .nothing _ rfl rfl rfl
    · next c hc =>
      obtain ⟨u, hu, h⟩ := finish_bind faultsOnly_memWrite h
      obtain ⟨_, rfl⟩ := memWrite_ok hu
      cases h
      exact .deliver _ c _ rfl rfl rfl
  · cases h; exact .nothing _ rfl rfl rfl

/-! ### Every instruction -/

theorem runCommand_effect {i : Instr} {first : Upc} {micro : State → Except Stop State} {s t : State}
    (hm : s.upc.command = some i → finish (micro s) = .next t → Effect s t i)
    (h : runCommand i first micro s = .next t) : Effect s t i := by
  rcases runCommand_next h with ⟨_, rfl⟩ | ⟨hc, hf⟩ | ⟨_, _, rfl⟩
  · exact .nothing _ rfl rfl rfl
  · exact hm hc hf
  · exact .nothing _ rfl rfl rfl

/-- Everything an instruction that goes on can do to the channels, the registry and the memory. -/
theorem exec_effect {i : Instr} {s t : State} (h : exec i s = .next t) : Effect s t i := by
  cases i with
  | construct c k n => exact runCommand_effect constructMicro_effect h
  | beginCh c => exact runCommand_effect (fun _ => beginMicro_effect) h
  | read c => exact runCommand_effect readMicro_effect h
  | write c b => exact runCommand_effect writeMicro_effect h
  | avail c => exact runCommand_effect (fun _ => availMicro_effect) h
  | rcount c => exact runCommand_effect (fun _ => rcountMicro_effect) h
  | flushRx c => exact runCommand_effect flushRxMicro_effect h
  | flushTx c => exact runCommand_effect flushTxMicro_effect h
  | irqRx k => exact execIrqRx_effect h
  | irqTx k => exact execIrqTx_effect h
  | hwrxd k b => exact execHwrxd_effect h
  | hwinj k sel st =>
    change execHwinj k sel st s = .next t at h
    unfold execHwinj at h
    split at h
    · cases h
      cases sel <;> exact .nothing _ rfl rfl rfl
    · cases h; exact .nothing _ rfl rfl rfl
  | hwReceiveArm p c =>
    change finish (do let (_, s) ← hwReceiveArm p c s; return s) = .next t at h
    cases ha : hwReceiveArm p c s with
    | ok r =>
      rw [ha] at h
      cases h
      exact (hwReceiveArm_ok (st := r.1) (t := r.2) ha).1.effect _
    | error e =>
      obtain ⟨w, rfl, hl⟩ := hwReceiveArm_error ha
      rw [ha] at h
      cases h
      exact .nothing _ hl.block.chans hl.block.reg hl.block.mem
  | hwTransmitByte p b => cases h; exact (layerStep_transmit ..).effect _
  | hwIsReady p => cases h; exact (layerStep_isReady ..).effect _
  | hwUnlockAndAbortReceive p => cases h; exact (layerStep_unlock ..).effect _

/-! ### What follows from an effect -/

/-- The slots' registers after a push into an RX buffer. -/
theorem pushed_chan (c' c : Slot) (v : Byte) (s : State) : (pushed ⟨c', .rx⟩ v s).chan c =
    if c = c' then { s.chan c' with rxh := idxSucc (s.chan c').rxh (s.chan c').cap } else s.chan c := by
  simp only [pushed, State.setHead, chan_setChan]; rfl

/-- The slots' registers after a pop from a TX buffer. -/
theorem popped_chan (c' c : Slot) (s : State) : (popped ⟨c', .tx⟩ s).chan c =
    if c = c' then { s.chan c' with txt := idxSucc (s.chan c').txt (s.chan c').cap } else s.chan c := by
  simp only [popped, State.setTail, chan_setChan]; rfl

/-- The control registers and the registry: written by a construction, or left as they are. -/
theorem effect_control {i : Instr} {s t : State} (h : Effect s t i) :
    (∃ c k n, i = .construct c k n ∧ constructRejected c k n s = false ∧
      t.chans = (s.setChan c ⟨true, k, n, 0, 0, 0, 0⟩).chans ∧ t.reg = (s.setReg k (some c)).reg ∧ t.mem = s.mem) ∨
    (t.reg = s.reg ∧ (∀ c, (t.chan c).valid = (s.chan c).valid ∧ (t.chan c).handle = (s.chan c).handle ∧
      (t.chan c).cap = (s.chan c).cap)) := by
  have hd : ∀ (b : Buf) v c, ((s.setHead b v).chan c).valid = (s.chan c).valid ∧
      ((s.setHead b v).chan c).handle = (s.chan c).handle ∧ ((s.setHead b v).chan c).cap = (s.chan c).cap :=
    fun b v c => ⟨setHead_valid .., setHead_handle .., setHead_cap ..⟩
  have tl : ∀ (b : Buf) v c, ((s.setTail b v).chan c).valid = (s.chan c).valid ∧
      ((s.setTail b v).chan c).handle = (s.chan c).handle ∧ ((s.setTail b v).chan c).cap = (s.chan c).cap :=
    fun b v c => ⟨setTail_valid .., setTail_handle .., setTail_cap ..⟩
  cases h with
  | nothing i hc hr hm => exact Or.inr ⟨hr, fun c => by simp [chan_congr hc]⟩
  | construct c' k n e hc hr hm => exact Or.inl ⟨_, _, _, rfl, e, hc, hr, hm⟩
  | readTail c' v ok hv hc hr hm => exact Or.inr ⟨hr, fun c => by rw [chan_congr hc]; exact tl _ _ c⟩
  | writeStore c' x h' e hh hc hr hm => exact Or.inr ⟨hr, fun c => by simp [chan_congr hc]⟩
  | writeHead c' x v ok hv hc hr hm => exact Or.inr ⟨hr, fun c => by rw [chan_congr hc]; exact hd _ _ c⟩
  | writeTail c' x v ok hv hc hr hm => exact Or.inr ⟨hr, fun c => by rw [chan_congr hc]; exact tl _ _ c⟩
  | flushHead i c' side hi ok hc hr hm => exact Or.inr ⟨hr, fun c => by rw [chan_congr hc]; exact hd _ _ c⟩
  | flushTail i c' side hi ok hc hr hm => exact Or.inr ⟨hr, fun c => by rw [chan_congr hc]; exact tl _ _ c⟩
  | receive k c' v e ok hc hr hm =>
    refine Or.inr ⟨hr, fun c => ?_⟩
    rw [chan_congr hc, pushed_chan]; split
    · next e => subst e; simp
    · simp
  | transmit k c' e ok hc hr hm =>
    refine Or.inr ⟨hr, fun c => ?_⟩
    rw [chan_congr hc, popped_chan]; split
    · next e => subst e; simp
    · simp
  | deliver k c' b hc hr hm => exact Or.inr ⟨hr, fun c => by simp [chan_congr hc]⟩

/-- The bytes: none written, or one, by one of three instructions. -/
theorem effect_bytes {i : Instr} {s t : State} (h : Effect s t i) :
    t.mem = s.mem ∨ ∃ (sp : Space) (x : Idx) (v : Byte), t.mem = s.mem.write (sp.addr x) v ∧
   ((∃ c b, i = .write c b ∧ sp = .txmem c ∧ s.upc.selected = some c ∧ x.toNat < (s.cap c).toNat) ∨
    (∃ k c, i = .irqRx k ∧ lookup k s = some c ∧ sp = .rxmem c ∧ x.toNat < (s.cap c).toNat) ∨
    (∃ k b c, i = .hwrxd k b ∧ sp = .scr c)) := by
  cases h with
  | nothing i hc hr hm => exact Or.inl hm
  | construct c' k n e hc hr hm => exact Or.inl hm
  | readTail c' v ok hv hc hr hm => exact Or.inl hm
  | writeStore c' x h' e hh hc hr hm => exact Or.inr ⟨_, _, _, hm, Or.inl ⟨_, _, rfl, rfl, e, hh⟩⟩
  | writeHead c' x v ok hv hc hr hm => exact Or.inl hm
  | writeTail c' x v ok hv hc hr hm => exact Or.inl hm
  | flushHead i c' side hi ok hc hr hm => exact Or.inl hm
  | flushTail i c' side hi ok hc hr hm => exact Or.inl hm
  | receive k c' v e ok hc hr hm =>
    exact Or.inr ⟨_, _, _, hm.trans (by simp [pushed]; rfl), Or.inr (Or.inl ⟨_, _, rfl, e, rfl, head_lt_cap ok⟩)⟩
  | transmit k c' e ok hc hr hm => exact Or.inl hm
  | deliver k c' b hc hr hm => exact Or.inr ⟨_, _, _, hm, Or.inr (Or.inr ⟨_, _, _, rfl, rfl⟩)⟩

/-- Reading a byte after one byte was written. -/
theorem byteAt_of_write {s t : State} {sp : Space} {x : Idx} {v : Byte} (hp : t.par = s.par)
    (h : t.mem = s.mem.write (sp.addr x) v) (sp' : Space) (x' : Idx) :
    t.byteAt sp' x' = if sp' = sp ∧ x' = x then some v else s.byteAt sp' x' := by
  rw [← byteAt_write]; exact byteAt_congr (s := { s with mem := s.mem.write (sp.addr x) v }) hp h _ _

/-- Which bytes are written after one byte was written. -/
theorem written_of_write {s t : State} {sp : Space} {x : Idx} {v : Byte} (h : t.mem = s.mem.write (sp.addr x) v)
    (sp' : Space) (x' : Idx) :
    t.written sp' x' = if sp' = sp ∧ x' = x then true else s.written sp' x' := by
  rw [← written_write]; exact written_congr (s := { s with mem := s.mem.write (sp.addr x) v }) h _ _

/-- A buffer whose indices are in range keeps them in range, unless its channel is constructed. -/
theorem effect_bufOk {i : Instr} {s t : State} (h : Effect s t i) (b : Buf) (hb : s.bufOk b = true)
    (hn : ∀ c k n, i = .construct c k n → b.c ≠ c) : t.bufOk b = true := by
  have z : ∀ b' : Buf, s.bufOk b' = true → (0 : Idx).toNat < (s.cap b'.c).toNat := fun b' h => by simpa using cap_pos h
  cases h with
  | nothing i hc hr hm => rw [bufOk_congr hc]; exact hb
  | construct c' k n e hc hr hm =>
    have := hn _ _ _ rfl
    rw [bufOk_congr hc, bufOk_iff] at *
    rcases b with ⟨c, side⟩
    cases side <;> simpa [State.head, State.tail, State.cap, chan_setChan, this] using hb
  | readTail c' v ok hv hc hr hm => rw [bufOk_congr hc]; exact bufOk_setTail _ _ hv hb
  | writeStore c' x h' e hh hc hr hm => rw [bufOk_congr hc]; exact hb
  | writeHead c' x v ok hv hc hr hm => rw [bufOk_congr hc]; exact bufOk_setHead _ _ hv hb
  | writeTail c' x v ok hv hc hr hm => rw [bufOk_congr hc]; exact bufOk_setTail _ _ hv hb
  | flushHead i c' side hi ok hc hr hm => rw [bufOk_congr hc]; exact bufOk_setHead _ _ (z _ ok) hb
  | flushTail i c' side hi ok hc hr hm => rw [bufOk_congr hc]; exact bufOk_setTail _ _ (z _ ok) hb
  | receive k c' v e ok hc hr hm =>
    rw [bufOk_congr hc]; exact bufOk_setHead (s := { s with mem := _ }) _ _ (idxSucc_lt_of_pos (cap_pos ok)) hb
  | transmit k c' e ok hc hr hm =>
    rw [bufOk_congr hc]; exact bufOk_setTail _ _ (idxSucc_lt_of_pos (cap_pos ok)) hb
  | deliver k c' b hc hr hm => rw [bufOk_congr hc]; exact hb

end Sys2Proof.Machine
end

