-- ==== Sys2Proof/Laws/Encoding.lean ====
section
/-! SUPPORT. Packing and unpacking the fields of a word and of a request word (30_encoding.md R91, R99). -/

namespace Sys2Proof

theorem numberOf_bitsOf (n : Fin 16) : numberOf (bitsOf n) = n := rfl

theorem bitsOf_numberOf (n : BitVec 4) : bitsOf (numberOf n) = n := rfl

theorem opField_packWord (op : BitVec 8) (ch pid : BitVec 4) (imm : BitVec 16) :
    opField (packWord op ch pid imm) = op := by
  apply BitVec.eq_of_toNat_eq
  have := op.isLt; have := ch.isLt; have := pid.isLt; have := imm.isLt
  simp only [opField, packWord, BitVec.extractLsb'_toNat, BitVec.toNat_append, Nat.shiftRight_eq_div_pow]
  rw [← Nat.shiftLeft_add_eq_or_of_lt (by omega), ← Nat.shiftLeft_add_eq_or_of_lt (by omega),
    ← Nat.shiftLeft_add_eq_or_of_lt (by omega)]
  simp only [Nat.shiftLeft_eq]
  omega

theorem chField_packWord (op : BitVec 8) (ch pid : BitVec 4) (imm : BitVec 16) :
    chField (packWord op ch pid imm) = ch := by
  apply BitVec.eq_of_toNat_eq
  have := op.isLt; have := ch.isLt; have := pid.isLt; have := imm.isLt
  simp only [chField, packWord, BitVec.extractLsb'_toNat, BitVec.toNat_append, Nat.shiftRight_eq_div_pow]
  rw [← Nat.shiftLeft_add_eq_or_of_lt (by omega), ← Nat.shiftLeft_add_eq_or_of_lt (by omega),
    ← Nat.shiftLeft_add_eq_or_of_lt (by omega)]
  simp only [Nat.shiftLeft_eq]
  omega

theorem pidField_packWord (op : BitVec 8) (ch pid : BitVec 4) (imm : BitVec 16) :
    pidField (packWord op ch pid imm) = pid := by
  apply BitVec.eq_of_toNat_eq
  have := op.isLt; have := ch.isLt; have := pid.isLt; have := imm.isLt
  simp only [pidField, packWord, BitVec.extractLsb'_toNat, BitVec.toNat_append, Nat.shiftRight_eq_div_pow]
  rw [← Nat.shiftLeft_add_eq_or_of_lt (by omega), ← Nat.shiftLeft_add_eq_or_of_lt (by omega),
    ← Nat.shiftLeft_add_eq_or_of_lt (by omega)]
  simp only [Nat.shiftLeft_eq]
  omega

theorem immField_packWord (op : BitVec 8) (ch pid : BitVec 4) (imm : BitVec 16) :
    immField (packWord op ch pid imm) = imm := by
  apply BitVec.eq_of_toNat_eq
  have := op.isLt; have := ch.isLt; have := pid.isLt; have := imm.isLt
  simp only [immField, packWord, BitVec.extractLsb'_toNat, BitVec.toNat_append, Nat.shiftRight_eq_div_pow]
  rw [← Nat.shiftLeft_add_eq_or_of_lt (by omega), ← Nat.shiftLeft_add_eq_or_of_lt (by omega),
    ← Nat.shiftLeft_add_eq_or_of_lt (by omega)]
  simp only [Nat.shiftLeft_eq]
  omega

/-- A word is its fields. -/
theorem packWord_fields (w : Word) : packWord (opField w) (chField w) (pidField w) (immField w) = w := by
  apply BitVec.eq_of_toNat_eq
  have := w.isLt; have := (opField w).isLt; have := (chField w).isLt; have := (pidField w).isLt; have := (immField w).isLt
  simp only [packWord, BitVec.toNat_append]
  rw [← Nat.shiftLeft_add_eq_or_of_lt (by omega), ← Nat.shiftLeft_add_eq_or_of_lt (by omega),
    ← Nat.shiftLeft_add_eq_or_of_lt (by omega)]
  simp only [opField, chField, pidField, immField, BitVec.extractLsb'_toNat, Nat.shiftRight_eq_div_pow, Nat.shiftLeft_eq]
  omega

theorem packRequest_fn (fn pid : BitVec 4) (arg : BitVec 8) : (packRequest fn pid arg).extractLsb' 12 4 = fn := by
  apply BitVec.eq_of_toNat_eq
  have := fn.isLt; have := pid.isLt; have := arg.isLt
  simp only [packRequest, BitVec.extractLsb'_toNat, BitVec.toNat_append, Nat.shiftRight_eq_div_pow]
  rw [← Nat.shiftLeft_add_eq_or_of_lt (by omega), ← Nat.shiftLeft_add_eq_or_of_lt (by omega)]
  simp only [Nat.shiftLeft_eq]
  omega

theorem packRequest_pid (fn pid : BitVec 4) (arg : BitVec 8) : (packRequest fn pid arg).extractLsb' 8 4 = pid := by
  apply BitVec.eq_of_toNat_eq
  have := fn.isLt; have := pid.isLt; have := arg.isLt
  simp only [packRequest, BitVec.extractLsb'_toNat, BitVec.toNat_append, Nat.shiftRight_eq_div_pow]
  rw [← Nat.shiftLeft_add_eq_or_of_lt (by omega), ← Nat.shiftLeft_add_eq_or_of_lt (by omega)]
  simp only [Nat.shiftLeft_eq]
  omega

theorem packRequest_arg (fn pid : BitVec 4) (arg : BitVec 8) : (packRequest fn pid arg).extractLsb' 0 8 = arg := by
  apply BitVec.eq_of_toNat_eq
  have := fn.isLt; have := pid.isLt; have := arg.isLt
  simp only [packRequest, BitVec.extractLsb'_toNat, BitVec.toNat_append, Nat.shiftRight_eq_div_pow]
  rw [← Nat.shiftLeft_add_eq_or_of_lt (by omega), ← Nat.shiftLeft_add_eq_or_of_lt (by omega)]
  simp only [Nat.shiftLeft_eq]
  omega

theorem request_setWidth (q : Request) : ((q.setWidth 32).setWidth 16 : Request) = q := by
  apply BitVec.eq_of_toNat_eq; simp

theorem low_byte (b : Byte) : (b.setWidth 16).extractLsb' 0 8 = b := by
  apply BitVec.eq_of_toNat_eq; have := b.isLt; simp [Nat.shiftRight_eq_div_pow]
  omega

theorem high_byte (b : Byte) : (b.setWidth 16).extractLsb' 8 8 = 0#8 := by
  apply BitVec.eq_of_toNat_eq; have := b.isLt; simp [Nat.shiftRight_eq_div_pow]
  omega

theorem injImm_fields : ∀ (sel : InjSel) (st : BitVec 2), 
   (injImm sel st).extractLsb' 0 2 = st ∧ (injImm sel st).extractLsb' 9 7 = 0#7 ∧ (injImm sel st).extractLsb' 2 6 = 0#6 ∧
   selOf (injImm sel st)[8] = sel := by
  intro sel; cases sel <;> decide

/-- A field test that went on found zeros. -/
theorem ifZero_ok {z : Bool} {i j : Instr} : ifZero z i = .ok j ↔ z = true ∧ j = i := by
  unfold ifZero
  split <;> simp_all [eq_comm]

end Sys2Proof
end

