-- ==== Sys2Proof/Laws/PerInstr.lean ====
section
/-! SUPPORT. One statement per instruction: the word of an instruction names the instruction's port (30_encoding.md R90,
R94, R99). -/

namespace Sys2Proof.Laws.PortField

/-- `OP[7:4]` of a port word is its port's number; a request word has no bit above its sixteen. -/
def Statement (i : Instr) : Prop :=
  match i.port with
  | .command => (opField (encode i)).extractLsb' 4 4 = 0
  | .interrupt => (opField (encode i)).extractLsb' 4 4 = 1
  | .environment => (opField (encode i)).extractLsb' 4 4 = 2
  | .hardware => (encode i).extractLsb' 16 16 = 0

theorem high_of_request (q : Request) : (q.setWidth 32 : Word).extractLsb' 16 16 = 0 := by
  apply BitVec.eq_of_toNat_eq
  have h := q.isLt
  simp [Nat.shiftRight_eq_div_pow]
  omega

theorem construct (c : Slot) (k : Pid) (n : Idx) : Statement (.construct c k n) :=
  congrArg (BitVec.extractLsb' 4 4) (opField_packWord ..)

theorem beginCh (c : Slot) : Statement (.beginCh c) := congrArg (BitVec.extractLsb' 4 4) (opField_packWord ..)

theorem read (c : Slot) : Statement (.read c) := congrArg (BitVec.extractLsb' 4 4) (opField_packWord ..)

theorem write (c : Slot) (b : Byte) : Statement (.write c b) :=
  congrArg (BitVec.extractLsb' 4 4) (opField_packWord ..)

theorem avail (c : Slot) : Statement (.avail c) := congrArg (BitVec.extractLsb' 4 4) (opField_packWord ..)

theorem rcount (c : Slot) : Statement (.rcount c) := congrArg (BitVec.extractLsb' 4 4) (opField_packWord ..)

theorem flushRx (c : Slot) : Statement (.flushRx c) := congrArg (BitVec.extractLsb' 4 4) (opField_packWord ..)

theorem flushTx (c : Slot) : Statement (.flushTx c) := congrArg (BitVec.extractLsb' 4 4) (opField_packWord ..)

theorem irqRx (k : Pid) : Statement (.irqRx k) := congrArg (BitVec.extractLsb' 4 4) (opField_packWord ..)

theorem irqTx (k : Pid) : Statement (.irqTx k) := congrArg (BitVec.extractLsb' 4 4) (opField_packWord ..)

theorem hwrxd (k : Pid) (b : Byte) : Statement (.hwrxd k b) :=
  congrArg (BitVec.extractLsb' 4 4) (opField_packWord ..)

theorem hwinj (k : Pid) (sel : InjSel) (st : BitVec 2) : Statement (.hwinj k sel st) :=
  congrArg (BitVec.extractLsb' 4 4) (opField_packWord ..)

theorem hwReceiveArm (p : Pid) (c : Slot) : Statement (.hwReceiveArm p c) := high_of_request _

theorem hwTransmitByte (p : Pid) (b : Byte) : Statement (.hwTransmitByte p b) := high_of_request _

theorem hwIsReady (p : Pid) : Statement (.hwIsReady p) := high_of_request _

theorem hwUnlockAndAbortReceive (p : Pid) : Statement (.hwUnlockAndAbortReceive p) := high_of_request _

end Sys2Proof.Laws.PortField
end

