-- ==== Sys2Proof/Laws/Progress.lean ====
section
/-! SUPPORT. Where a micro-step leaves `UPC`: the command ended, stands at its next micro-step, or stopped in a double
arm; and the inputs, which no instruction touches. -/

namespace Sys2Proof.Machine

/-- The command in progress stands at its next micro-step; its locals are the old ones and indices just loaded. -/
structure Continues (s t : State) : Prop where
  command : t.upc.command = s.upc.command
  stepNumber : t.upc.stepNumber = s.upc.stepNumber + 1
  selected : ∃ c, t.upc.selected = some c ∧ (s.upc.selected = some c ∨ s.selects c = true) ∧
    ∀ x ∈ t.upc.indices, x ∈ s.upc.indices ∨ x.toNat < (s.cap c).toNat

/-- What a micro-step of a command can do to `UPC` and the inputs. -/
structure MicroStep (s t : State) : Prop where
  inputs : SameInputs s t
  upc : t.upc = .idle ∨ Continues s t ∨ (t.upc = s.upc ∧ t.envFault = true ∧ s.par.hwModel = .reference)

theorem sameInputs_refl (s : State) : SameInputs s s := ⟨rfl, rfl, rfl, rfl⟩

/-- A double arm is possible under the reference layer only (44_hardware_layer.md R225). -/
theorem hwReceiveArm_error_reference {p : Pid} {c : Slot} {s : State} {e : Stop} (h : hwReceiveArm p c s = .error e) :
    s.par.hwModel = .reference := by
  cases hr : s.answersByReference p with
  | false => rw [hwReceiveArm_free hr] at h; cases h
  | true =>
    simp only [State.answersByReference, Bool.and_eq_true, decide_eq_true_eq] at hr
    exact hr.1

section micro

variable {s t : State} {c : Slot}

theorem constructMicro_step {k : Pid} {n : Idx} (hu : s.upc.command = some (.construct c k n))
    (h : finish (constructMicro s) = .next t) : MicroStep s t := by
  unfold constructMicro at h
  split at h
  · split at h <;> cases h <;> exact ⟨⟨rfl, rfl, rfl, rfl⟩, Or.inl rfl⟩
  · next h1 =>
    cases hs : s.upc <;> rw [hs] at hu h1 <;> first | exact absurd rfl (h1 _ _ _) | simp [Upc.command] at hu

theorem beginMicro_step (hu : s.upc.command = some (.beginCh c)) (h : finish (beginMicro s) = .next t) :
    MicroStep s t := by
  unfold beginMicro at h
  split at h
  · next c' he =>
    rcases finish_selecting h with ⟨_, h⟩ | ⟨_, rfl⟩
    · cases ha : hwReceiveArm (s.chan c').handle c' s with
      | ok r =>
        simp only [ha, bind, Except.bind, pure, Except.pure] at h
        cases h
        have hl := (hwReceiveArm_ok (st := r.1) (t := r.2) ha).1
        exact ⟨⟨hl.inputs.par, hl.inputs.counts, hl.inputs.cmdQ, hl.inputs.turns⟩, Or.inl rfl⟩
      | error e =>
        obtain ⟨w, rfl, hl⟩ := hwReceiveArm_error ha
        have hr := hwReceiveArm_error_reference ha
        simp only [ha, bind, Except.bind] at h
        cases h
        exact ⟨⟨hl.inputs.par, hl.inputs.counts, hl.inputs.cmdQ, hl.inputs.turns⟩,
          Or.inr (Or.inr ⟨hl.block.upc, rfl, hr⟩)⟩
    · exact ⟨⟨rfl, rfl, rfl, rfl⟩, Or.inl rfl⟩
  · next h1 => cases hs : s.upc <;> rw [hs] at hu h1 <;> first | exact absurd rfl (h1 _) | simp [Upc.command] at hu

theorem readMicro_step (hu : s.upc.command = some (.read c)) (h : finish (readMicro s) = .next t) :
    MicroStep s t := by
  unfold readMicro at h
  split at h
  · next c' he =>
    rcases finish_selecting h with ⟨hs, h⟩ | ⟨_, rfl⟩
    · obtain ⟨a, ha, h⟩ := finish_bind faultsOnly_loadHead h
      obtain ⟨hb, rfl⟩ := loadHead_ok.1 ha
      cases h
      refine ⟨⟨rfl, rfl, rfl, rfl⟩, Or.inr (Or.inl ⟨by rw [he]; rfl, by rw [he]; rfl, c', rfl, Or.inr hs, ?_⟩)⟩
      intro x hx
      obtain rfl := List.mem_singleton.1 hx
      exact Or.inr (head_lt_cap hb)
    · exact ⟨⟨rfl, rfl, rfl, rfl⟩, Or.inl rfl⟩
  · next c' h0 he =>
    obtain ⟨a, ha, h⟩ := finish_bind faultsOnly_loadTail h
    obtain ⟨hb, rfl⟩ := loadTail_ok.1 ha
    cases h
    split
    · exact ⟨⟨rfl, rfl, rfl, rfl⟩, Or.inl rfl⟩
    · refine ⟨⟨rfl, rfl, rfl, rfl⟩, Or.inr (Or.inl ⟨by rw [he]; rfl, by rw [he]; rfl, c', rfl,
        Or.inl (by rw [he]; rfl), ?_⟩)⟩
      intro x hx
      rcases List.mem_cons.1 hx with rfl | hx
      · exact Or.inl (by rw [he]; exact List.mem_cons_self ..)
      · obtain rfl := List.mem_singleton.1 hx
        exact Or.inr (tail_lt_cap hb)
  · next c' h0 t0 he =>
    obtain ⟨a, _, h⟩ := finish_bind faultsOnly_loadByte h
    cases h
    exact ⟨⟨rfl, rfl, rfl, rfl⟩, Or.inr (Or.inl ⟨by rw [he]; rfl, by rw [he]; rfl, c', rfl,
      Or.inl (by rw [he]; rfl), fun x hx => Or.inl (by rw [he]; exact hx)⟩)⟩
  · obtain ⟨a, ha, h⟩ := finish_bind faultsOnly_advanceTail h
    obtain ⟨_, rfl⟩ := advanceTail_ok.1 ha
    cases h
    exact ⟨⟨by simp, by simp, by simp, by simp⟩, Or.inl rfl⟩
  · next h1 h2 h3 h4 =>
    cases hs : s.upc <;> rw [hs] at hu h1 h2 h3 h4 <;>
      first | exact absurd rfl (h1 _) | exact absurd rfl (h2 _ _) | exact absurd rfl (h3 _ _ _)
            | exact absurd rfl (h4 _ _ _ _) | simp [Upc.command] at hu

theorem availMicro_step (hu : s.upc.command = some (.avail c)) (h : finish (availMicro s) = .next t) :
    MicroStep s t := by
  unfold availMicro at h
  split at h
  · next c' he =>
    rcases finish_selecting h with ⟨hs, h⟩ | ⟨_, rfl⟩
    · obtain ⟨a, ha, h⟩ := finish_bind faultsOnly_loadHead h
      obtain ⟨hb, rfl⟩ := loadHead_ok.1 ha
      cases h
      refine ⟨⟨rfl, rfl, rfl, rfl⟩, Or.inr (Or.inl ⟨by rw [he]; rfl, by rw [he]; rfl, c', rfl, Or.inr hs, ?_⟩)⟩
      intro x hx
      obtain rfl := List.mem_singleton.1 hx
      exact Or.inr (head_lt_cap hb)
    · exact ⟨⟨rfl, rfl, rfl, rfl⟩, Or.inl rfl⟩
  · obtain ⟨a, _, h⟩ := finish_bind faultsOnly_loadTail h
    cases h
    exact ⟨⟨rfl, rfl, rfl, rfl⟩, Or.inl rfl⟩
  · next h1 h2 =>
    cases hs : s.upc <;> rw [hs] at hu h1 h2 <;>
      first | exact absurd rfl (h1 _) | exact absurd rfl (h2 _ _) | simp [Upc.command] at hu

theorem rcountMicro_step (hu : s.upc.command = some (.rcount c)) (h : finish (rcountMicro s) = .next t) :
    MicroStep s t := by
  unfold rcountMicro at h
  split at h
  · next c' he =>
    rcases finish_selecting h with ⟨hs, h⟩ | ⟨_, rfl⟩
    · obtain ⟨a, ha, h⟩ := finish_bind faultsOnly_loadHead h
      obtain ⟨hb, rfl⟩ := loadHead_ok.1 ha
      cases h
      refine ⟨⟨rfl, rfl, rfl, rfl⟩, Or.inr (Or.inl ⟨by rw [he]; rfl, by rw [he]; rfl, c', rfl, Or.inr hs, ?_⟩)⟩
      intro x hx
      obtain rfl := List.mem_singleton.1 hx
      exact Or.inr (head_lt_cap hb)
    · exact ⟨⟨rfl, rfl, rfl, rfl⟩, Or.inl rfl⟩
  · obtain ⟨a, _, h⟩ := finish_bind faultsOnly_loadTail h
    cases h
    exact ⟨⟨rfl, rfl, rfl, rfl⟩, Or.inl rfl⟩
  · next h1 h2 =>
    cases hs : s.upc <;> rw [hs] at hu h1 h2 <;>
      first | exact absurd rfl (h1 _) | exact absurd rfl (h2 _ _) | simp [Upc.command] at hu

theorem resetFirst_inputs {b : Buf} {u : State} (h : resetFirst b s = .ok u) : SameInputs s u := by
  obtain ⟨_, rfl⟩ := resetFirst_ok.1 h
  split <;> exact ⟨by simp, by simp, by simp, by simp⟩

theorem resetSecond_inputs {b : Buf} {u : State} (h : resetSecond b s = .ok u) : SameInputs s u := by
  obtain ⟨_, rfl⟩ := resetSecond_ok.1 h
  split <;> exact ⟨by simp, by simp, by simp, by simp⟩

theorem flushRxMicro_step (hu : s.upc.command = some (.flushRx c)) (h : finish (flushRxMicro s) = .next t) :
    MicroStep s t := by
  unfold flushRxMicro at h
  split at h
  · next c' he =>
    rcases finish_selecting h with ⟨hs, h⟩ | ⟨_, rfl⟩
    · obtain ⟨a, ha, h⟩ := finish_bind faultsOnly_resetFirst h
      have hi := resetFirst_inputs ha
      cases h
      exact ⟨⟨hi.par, hi.counts, hi.cmdQ, hi.turns⟩, Or.inr (Or.inl ⟨by rw [he]; rfl, by rw [he]; rfl, c', rfl,
        Or.inr hs, fun x hx => by cases hx⟩)⟩
    · exact ⟨⟨rfl, rfl, rfl, rfl⟩, Or.inl rfl⟩
  · obtain ⟨a, ha, h⟩ := finish_bind faultsOnly_resetSecond h
    have hi := resetSecond_inputs ha
    cases h
    exact ⟨⟨hi.par, hi.counts, hi.cmdQ, hi.turns⟩, Or.inl rfl⟩
  · next h1 h2 =>
    cases hs : s.upc <;> rw [hs] at hu h1 h2 <;>
      first | exact absurd rfl (h1 _) | exact absurd rfl (h2 _) | simp [Upc.command] at hu

theorem flushTxMicro_step (hu : s.upc.command = some (.flushTx c)) (h : finish (flushTxMicro s) = .next t) :
    MicroStep s t := by
  unfold flushTxMicro at h
  split at h
  · next c' he =>
    rcases finish_selecting h with ⟨hs, h⟩ | ⟨_, rfl⟩
    · obtain ⟨a, ha, h⟩ := finish_bind faultsOnly_resetFirst h
      have hi := resetFirst_inputs ha
      cases h
      exact ⟨⟨hi.par, hi.counts, hi.cmdQ, hi.turns⟩, Or.inr (Or.inl ⟨by rw [he]; rfl, by rw [he]; rfl, c', rfl,
        Or.inr hs, fun x hx => by cases hx⟩)⟩
    · exact ⟨⟨rfl, rfl, rfl, rfl⟩, Or.inl rfl⟩
  · obtain ⟨a, ha, h⟩ := finish_bind faultsOnly_resetSecond h
    have hi := resetSecond_inputs ha
    cases h
    exact ⟨⟨hi.par, hi.counts, hi.cmdQ, hi.turns⟩, Or.inl rfl⟩
  · next h1 h2 =>
    cases hs : s.upc <;> rw [hs] at hu h1 h2 <;>
      first | exact absurd rfl (h1 _) | exact absurd rfl (h2 _) | simp [Upc.command] at hu

theorem writeMicro_step {b : Byte} (hu : s.upc.command = some (.write c b)) (h : finish (writeMicro s) = .next t) :
    MicroStep s t := by
  unfold writeMicro at h
  split at h
  · next c' b' he =>
    rcases finish_selecting h with ⟨hs, h⟩ | ⟨_, rfl⟩
    · obtain ⟨a, ha, h⟩ := finish_bind faultsOnly_loadHead h
      obtain ⟨hb, rfl⟩ := loadHead_ok.1 ha
      cases h
      refine ⟨⟨rfl, rfl, rfl, rfl⟩, Or.inr (Or.inl ⟨by rw [he]; rfl, by rw [he]; rfl, c', rfl, Or.inr hs, ?_⟩)⟩
      intro x hx
      obtain rfl := List.mem_singleton.1 hx
      exact Or.inr (head_lt_cap hb)
    · exact ⟨⟨rfl, rfl, rfl, rfl⟩, Or.inl rfl⟩
  · next c' b' h0 he =>
    obtain ⟨a, ha, h⟩ := finish_bind faultsOnly_loadTail h
    obtain ⟨hb, rfl⟩ := loadTail_ok.1 ha
    cases h
    split
    · exact ⟨⟨rfl, rfl, rfl, rfl⟩, Or.inl rfl⟩
    · refine ⟨⟨rfl, rfl, rfl, rfl⟩, Or.inr (Or.inl ⟨by rw [he]; rfl, by rw [he]; rfl, c', rfl,
        Or.inl (by rw [he]; rfl), ?_⟩)⟩
      intro x hx
      rcases List.mem_cons.1 hx with rfl | hx
      · exact Or.inl (by rw [he]; exact List.mem_cons_self ..)
      · obtain rfl := List.mem_singleton.1 hx
        exact Or.inr (tail_lt_cap hb)
  · next c' b' h0 t0 he =>
    obtain ⟨a, ha, h⟩ := finish_bind faultsOnly_storeByte h
    obtain ⟨_, _, rfl⟩ := storeByte_ok.1 ha
    cases h
    exact ⟨⟨rfl, rfl, rfl, rfl⟩, Or.inr (Or.inl ⟨by rw [he]; rfl, by rw [he]; rfl, c', rfl,
      Or.inl (by rw [he]; rfl), fun x hx => Or.inl (by rw [he]; exact hx)⟩)⟩
  · next c' b' h0 t0 he =>
    obtain ⟨a, ha, h⟩ := finish_bind faultsOnly_advanceHead h
    obtain ⟨_, rfl⟩ := advanceHead_ok.1 ha
    cases h
    exact ⟨⟨by simp, by simp, by simp, by simp⟩, Or.inr (Or.inl ⟨by rw [he]; rfl, by rw [he]; rfl, c', rfl,
      Or.inl (by rw [he]; rfl), fun x hx => Or.inl (by rw [he]; exact hx)⟩)⟩
  · next c' b' h0 t0 he =>
    have hi := (layerStep_isReady (s.chan c').handle s).inputs
    cases h
    split
    · exact ⟨⟨hi.par, hi.counts, hi.cmdQ, hi.turns⟩, Or.inr (Or.inl ⟨by rw [he]; rfl, by rw [he]; rfl, c', rfl,
        Or.inl (by rw [he]; rfl), fun x hx => Or.inl (by rw [he]; exact hx)⟩)⟩
    · exact ⟨⟨hi.par, hi.counts, hi.cmdQ, hi.turns⟩, Or.inl rfl⟩
  · next c' b' h0 t0 r he =>
    obtain ⟨a, ha, h⟩ := finish_bind faultsOnly_loadHead h
    obtain ⟨hb, rfl⟩ := loadHead_ok.1 ha
    cases h
    refine ⟨⟨rfl, rfl, rfl, rfl⟩, Or.inr (Or.inl ⟨by rw [he]; rfl, by rw [he]; rfl, c', rfl,
      Or.inl (by rw [he]; rfl), ?_⟩)⟩
    intro x hx
    simp only [State.setUpc, Upc.indices, List.mem_cons, List.not_mem_nil, or_false] at hx
    rcases hx with rfl | rfl | rfl
    · exact Or.inl (by rw [he]; simp [Upc.indices])
    · exact Or.inl (by rw [he]; simp [Upc.indices])
    · exact Or.inr (head_lt_cap hb)
  · next c' b' h0 t0 r h2 he =>
    obtain ⟨a, ha, h⟩ := finish_bind faultsOnly_loadTail h
    obtain ⟨hb, rfl⟩ := loadTail_ok.1 ha
    cases h
    split
    · exact ⟨⟨rfl, rfl, rfl, rfl⟩, Or.inl rfl⟩
    · refine ⟨⟨rfl, rfl, rfl, rfl⟩, Or.inr (Or.inl ⟨by rw [he]; rfl, by rw [he]; rfl, c', rfl,
        Or.inl (by rw [he]; rfl), ?_⟩)⟩
      intro x hx
      simp only [State.setUpc, Upc.indices, List.mem_cons, List.not_mem_nil, or_false] at hx
      rcases hx with rfl | rfl | rfl | rfl
      · exact Or.inl (by rw [he]; simp [Upc.indices])
      · exact Or.inl (by rw [he]; simp [Upc.indices])
      · exact Or.inl (by rw [he]; simp [Upc.indices])
      · exact Or.inr (tail_lt_cap hb)
  · next c' b' h0 t0 r h2 t2 he =>
    obtain ⟨a, _, h⟩ := finish_bind faultsOnly_loadByte h
    cases h
    exact ⟨⟨rfl, rfl, rfl, rfl⟩, Or.inr (Or.inl ⟨by rw [he]; rfl, by rw [he]; rfl, c', rfl,
      Or.inl (by rw [he]; rfl), fun x hx => Or.inl (by rw [he]; exact hx)⟩)⟩
  · next c' b' h0 t0 r h2 t2 v he =>
    obtain ⟨a, ha, h⟩ := finish_bind faultsOnly_advanceTail h
    obtain ⟨_, rfl⟩ := advanceTail_ok.1 ha
    cases h
    exact ⟨⟨by simp, by simp, by simp, by simp⟩, Or.inr (Or.inl ⟨by rw [he]; rfl, by rw [he]; rfl, c', rfl,
      Or.inl (by rw [he]; rfl), fun x hx => Or.inl (by rw [he]; exact hx)⟩)⟩
  · next c' _ _ _ _ _ _ v he =>
    have hi := (layerStep_transmit (s.chan c').handle v s).inputs
    cases h
    exact ⟨⟨hi.par, hi.counts, hi.cmdQ, hi.turns⟩, Or.inl rfl⟩
  · next h1 h2 h3 h4 h5 h6 h7 h8 h9 h10 =>
    cases hs : s.upc <;> rw [hs] at hu h1 h2 h3 h4 h5 h6 h7 h8 h9 h10 <;>
      first | simp [Upc.command] at hu; done | exact absurd rfl (h1 _ _) | exact absurd rfl (h2 _ _ _)
            | exact absurd rfl (h3 _ _ _ _) | exact absurd rfl (h4 _ _ _ _) | exact absurd rfl (h5 _ _ _ _)
            | exact absurd rfl (h6 _ _ _ _ _) | exact absurd rfl (h7 _ _ _ _ _ _) | exact absurd rfl (h8 _ _ _ _ _ _ _)
            | exact absurd rfl (h9 _ _ _ _ _ _ _ _) | exact absurd rfl (h10 _ _ _ _ _ _ _ _)

end micro

/-! ### Every instruction -/

/-- What an instruction that goes on does to `UPC`: nothing, the start of a command, or a micro-step. -/
inductive UpcStep (i : Instr) (s t : State) : Prop where
  | same (h : t.upc = s.upc)
  | start (hs : s.upc = .idle) (h : t.upc.command = some i) (hn : t.upc.stepNumber = 1) (hc : t.chans = s.chans)
  | micro (h : s.upc.command = some i) (m : MicroStep s t)

theorem runCommand_upc {i : Instr} {first : Upc} {micro : State → Except Stop State} {s t : State}
    (hf : first.command = some i) (hn : first.stepNumber = 1)
    (hm : s.upc.command = some i → finish (micro s) = .next t → MicroStep s t)
    (h : runCommand i first micro s = .next t) : SameInputs s t ∧ UpcStep i s t := by
  rcases runCommand_next h with ⟨hi, rfl⟩ | ⟨hc, hf⟩ | ⟨_, _, rfl⟩
  · exact ⟨⟨rfl, rfl, rfl, rfl⟩, .start hi hf hn rfl⟩
  · exact ⟨(hm hc hf).inputs, .micro hc (hm hc hf)⟩
  · exact ⟨sameInputs_refl _, .same rfl⟩

theorem LayerStep.upc {p : Pid} {s t : State} (h : LayerStep p s t) (i : Instr) : SameInputs s t ∧ UpcStep i s t :=
  ⟨h.inputs, .same h.block.upc⟩

theorem execIrqRx_upc {k : Pid} {s t : State} (h : exec (.irqRx k) s = .next t) :
    SameInputs s t ∧ t.upc = s.upc := by
  have hl := layerStep_layerRx k s
  rw [execIrqRx_eq] at h
  split at h
  · cases h; exact ⟨hl.inputs, hl.block.upc⟩
  · next c hk =>
    rcases onReceiveComplete_cases c (layerRx k s) with e | ⟨e, _⟩ | ⟨v, hv, hb⟩
    · rw [e] at h; cases h
    · rw [e] at h; cases h
    · rw [onReceiveComplete_eq hv hb] at h
      split at h
      · obtain ⟨_, _, _, e, _, hi, _⟩ := rearm_next h
        exact ⟨⟨hi.par.trans hl.inputs.par, hi.counts.trans hl.inputs.counts, hi.cmdQ.trans hl.inputs.cmdQ,
          hi.turns.trans hl.inputs.turns⟩, e.trans hl.block.upc⟩
      · obtain ⟨_, _, _, e, _, hi, _⟩ := rearm_next h
        refine ⟨⟨hi.par.trans ?_, hi.counts.trans ?_, hi.cmdQ.trans ?_, hi.turns.trans ?_⟩, e.trans ?_⟩
        · simp only [pushed, setHead_par]; exact hl.inputs.par
        · simp only [pushed, setHead_counts]; exact hl.inputs.counts
        · simp only [pushed, setHead_cmdQ]; exact hl.inputs.cmdQ
        · simp only [pushed, setHead_turns]; exact hl.inputs.turns
        · simp only [pushed, setHead_upc]; exact hl.block.upc

theorem execIrqTx_upc {k : Pid} {s t : State} (h : exec (.irqTx k) s = .next t) :
    SameInputs s t ∧ t.upc = s.upc := by
  have hl := layerStep_layerTx k s
  rw [execIrqTx_eq] at h
  split at h
  · cases h; exact ⟨hl.inputs, hl.block.upc⟩
  · next c hk =>
    rcases onTransmitComplete_cases c (layerTx k s) with e | ⟨e, _⟩ | ⟨hb, he | ⟨v, he, hv⟩⟩
    · rw [e] at h; cases h
    · rw [e] at h; cases h
    · rw [onTransmitComplete_of_empty hb he] at h
      cases h
      exact ⟨hl.inputs, hl.block.upc⟩
    · rw [onTransmitComplete_of_written hb he hv] at h
      cases h
      have ht := layerStep_transmit ((layerTx k s).chan c).handle v (popped ⟨c, .tx⟩ (layerTx k s))
      refine ⟨⟨ht.inputs.par.trans ?_, ht.inputs.counts.trans ?_, ht.inputs.cmdQ.trans ?_, ht.inputs.turns.trans ?_⟩,
        ht.block.upc.trans ?_⟩
      · simp only [popped, setTail_par]; exact hl.inputs.par
      · simp only [popped, setTail_counts]; exact hl.inputs.counts
      · simp only [popped, setTail_cmdQ]; exact hl.inputs.cmdQ
      · simp only [popped, setTail_turns]; exact hl.inputs.turns
      · simp only [popped, setTail_upc]; exact hl.block.upc

theorem execHwrxd_upc {k : Pid} {b : Byte} {s t : State} (h : exec (.hwrxd k b) s = .next t) :
    SameInputs s t ∧ t.upc = s.upc := by
  change finish (deliver k b s) = .next t at h
  unfold deliver at h
  split at h
  · split at h
    · cases h; exact ⟨sameInputs_refl _, rfl⟩
    · next c hc =>
      obtain ⟨u, hu, h⟩ := finish_bind faultsOnly_memWrite h
      obtain ⟨_, rfl⟩ := memWrite_ok hu
      cases h
      exact ⟨⟨rfl, rfl, rfl, rfl⟩, rfl⟩
  · cases h; exact ⟨sameInputs_refl _, rfl⟩

/-- Every instruction that goes on leaves the inputs alone, and does to `UPC` what `UpcStep` says. -/
theorem exec_upc {i : Instr} {s t : State} (h : exec i s = .next t) : SameInputs s t ∧ UpcStep i s t := by
  cases i with
  | construct c k n => exact runCommand_upc rfl rfl constructMicro_step h
  | beginCh c => exact runCommand_upc rfl rfl beginMicro_step h
  | read c => exact runCommand_upc rfl rfl readMicro_step h
  | write c b => exact runCommand_upc rfl rfl writeMicro_step h
  | avail c => exact runCommand_upc rfl rfl availMicro_step h
  | rcount c => exact runCommand_upc rfl rfl rcountMicro_step h
  | flushRx c => exact runCommand_upc rfl rfl flushRxMicro_step h
  | flushTx c => exact runCommand_upc rfl rfl flushTxMicro_step h
  | irqRx k => exact (execIrqRx_upc h).imp_right .same
  | irqTx k => exact (execIrqTx_upc h).imp_right .same
  | hwrxd k b => exact (execHwrxd_upc h).imp_right .same
  | hwinj k sel st =>
    change execHwinj k sel st s = .next t at h
    unfold execHwinj at h
    split at h
    · cases h
      cases sel <;> exact (layerStep_setPeriph ..).upc _
    · cases h; exact ⟨sameInputs_refl _, .same rfl⟩
  | hwReceiveArm p c =>
    change finish (do let (_, s) ← hwReceiveArm p c s; return s) = .next t at h
    cases ha : hwReceiveArm p c s with
    | ok r =>
      rw [ha] at h
      cases h
      exact (hwReceiveArm_ok (st := r.1) (t := r.2) ha).1.upc _
    | error e =>
      obtain ⟨w, rfl, hl⟩ := hwReceiveArm_error ha
      rw [ha] at h
      cases h
      exact ⟨⟨hl.inputs.par, hl.inputs.counts, hl.inputs.cmdQ, hl.inputs.turns⟩, .same hl.block.upc⟩
  | hwTransmitByte p b => cases h; exact (layerStep_transmit ..).upc _
  | hwIsReady p => cases h; exact (layerStep_isReady ..).upc _
  | hwUnlockAndAbortReceive p => cases h; exact (layerStep_unlock ..).upc _

/-- A command stands at its first micro-step with nothing selected and no local bound. -/
theorem Upc.first_step {u : Upc} (h : u.stepNumber = 1) : u.selected = none ∧ u.indices = [] := by
  cases u <;> simp_all [Upc.stepNumber, Upc.selected, Upc.indices]

/-- The slot a command names. -/
def slotOf : Instr → Option Slot
  | .construct c _ _ | .beginCh c | .read c | .write c _ | .avail c | .rcount c | .flushRx c | .flushTx c => some c
  | .irqRx _ | .irqTx _ | .hwrxd _ _ | .hwinj _ _ _ => none
  | .hwReceiveArm _ _ | .hwTransmitByte _ _ | .hwIsReady _ | .hwUnlockAndAbortReceive _ => none

/-- The slot a command has selected is the slot it names. -/
theorem Upc.slot_of_selected {u : Upc} {c : Slot} (h : u.selected = some c) : u.command.bind slotOf = some c := by
  cases u <;> simp_all [Upc.selected, Upc.command, slotOf]

/-- With nothing selected no index is bound. -/
theorem Upc.indices_of_not_selected {u : Upc} (h : u.selected = none) : u.indices = [] := by
  cases u <;> simp_all [Upc.selected, Upc.indices]

theorem micro_of_running {i : Instr} {first : Upc} {micro : State → Except Stop State} {s t : State}
    (hm : s.upc.command = some i → finish (micro s) = .next t → MicroStep s t) (hc : s.upc.command = some i)
    (h : runCommand i first micro s = .next t) : MicroStep s t := by
  rw [runCommand_of_running hc] at h
  exact hm hc h

/-- The turn of the command in progress is a micro-step. -/
theorem exec_micro {i : Instr} {s t : State} (hc : s.upc.command = some i) (h : exec i s = .next t) :
    MicroStep s t := by
  cases i with
  | construct c k n => exact micro_of_running constructMicro_step hc h
  | beginCh c => exact micro_of_running beginMicro_step hc h
  | read c => exact micro_of_running readMicro_step hc h
  | write c b => exact micro_of_running writeMicro_step hc h
  | avail c => exact micro_of_running availMicro_step hc h
  | rcount c => exact micro_of_running rcountMicro_step hc h
  | flushRx c => exact micro_of_running flushRxMicro_step hc h
  | flushTx c => exact micro_of_running flushTxMicro_step hc h
  | irqRx k => exact absurd hc (by cases s.upc <;> simp [Upc.command])
  | irqTx k => exact absurd hc (by cases s.upc <;> simp [Upc.command])
  | hwrxd k b => exact absurd hc (by cases s.upc <;> simp [Upc.command])
  | hwinj k sel st => exact absurd hc (by cases s.upc <;> simp [Upc.command])
  | hwReceiveArm p c => exact absurd hc (by cases s.upc <;> simp [Upc.command])
  | hwTransmitByte p b => exact absurd hc (by cases s.upc <;> simp [Upc.command])
  | hwIsReady p => exact absurd hc (by cases s.upc <;> simp [Upc.command])
  | hwUnlockAndAbortReceive p => exact absurd hc (by cases s.upc <;> simp [Upc.command])

/-! ### Why an instruction can fault -/

section faults

variable {s : State}

theorem constructMicro_faults : FaultsOnly (constructMicro s) := by
  unfold constructMicro
  split
  · split <;> exact faultsOnly_ok _
  · exact faultsOnly_ok _

theorem readMicro_faults : FaultsOnly (readMicro s) := by
  unfold readMicro
  split
  · exact faultsOnly_selecting (faultsOnly_loadHead.bind fun _ => faultsOnly_ok _)
  · exact faultsOnly_loadTail.bind fun _ => faultsOnly_ok _
  · exact faultsOnly_loadByte.bind fun _ => faultsOnly_ok _
  · exact faultsOnly_advanceTail.bind fun _ => faultsOnly_ok _
  · exact faultsOnly_ok _

theorem availMicro_faults : FaultsOnly (availMicro s) := by
  unfold availMicro
  split
  · exact faultsOnly_selecting (faultsOnly_loadHead.bind fun _ => faultsOnly_ok _)
  · exact faultsOnly_loadTail.bind fun _ => faultsOnly_ok _
  · exact faultsOnly_ok _

theorem rcountMicro_faults : FaultsOnly (rcountMicro s) := by
  unfold rcountMicro
  split
  · exact faultsOnly_selecting (faultsOnly_loadHead.bind fun _ => faultsOnly_ok _)
  · exact faultsOnly_loadTail.bind fun _ => faultsOnly_ok _
  · exact faultsOnly_ok _

theorem flushRxMicro_faults : FaultsOnly (flushRxMicro s) := by
  unfold flushRxMicro
  split
  · exact faultsOnly_selecting (faultsOnly_resetFirst.bind fun _ => faultsOnly_ok _)
  · exact faultsOnly_resetSecond.bind fun _ => faultsOnly_ok _
  · exact faultsOnly_ok _

theorem flushTxMicro_faults : FaultsOnly (flushTxMicro s) := by
  unfold flushTxMicro
  split
  · exact faultsOnly_selecting (faultsOnly_resetFirst.bind fun _ => faultsOnly_ok _)
  · exact faultsOnly_resetSecond.bind fun _ => faultsOnly_ok _
  · exact faultsOnly_ok _

theorem writeMicro_faults : FaultsOnly (writeMicro s) := by
  unfold writeMicro
  split
  · exact faultsOnly_selecting (faultsOnly_loadHead.bind fun _ => faultsOnly_ok _)
  · exact faultsOnly_loadTail.bind fun _ => faultsOnly_ok _
  · exact faultsOnly_storeByte.bind fun _ => faultsOnly_ok _
  · exact faultsOnly_advanceHead.bind fun _ => faultsOnly_ok _
  · exact faultsOnly_ok _
  · exact faultsOnly_loadHead.bind fun _ => faultsOnly_ok _
  · exact faultsOnly_loadTail.bind fun _ => faultsOnly_ok _
  · exact faultsOnly_loadByte.bind fun _ => faultsOnly_ok _
  · exact faultsOnly_advanceTail.bind fun _ => faultsOnly_ok _
  · exact faultsOnly_ok _
  · exact faultsOnly_ok _

theorem beginMicro_not_fault (f : Fault) : beginMicro s ≠ .error (.fault f) := by
  intro h
  unfold beginMicro at h
  split at h
  · next c _ =>
    unfold selecting at h
    split at h
    · cases ha : hwReceiveArm (s.chan c).handle c s with
      | ok r => rw [ha] at h; cases h
      | error e =>
        obtain ⟨u, rfl, _⟩ := hwReceiveArm_error ha
        rw [ha] at h
        cases h
    · cases h
  · cases h

theorem FaultsOnly.fault {α : Type} {x : Except Stop α} {f : Fault} (hx : FaultsOnly x) (h : x = .error (.fault f)) :
    f = .unwrittenByte ∨ f = .indexOutOfRange := by
  rcases hx _ h with e | e <;> cases e
  · exact Or.inl rfl
  · exact Or.inr rfl

/-- An instruction faults on a byte never written or an index out of range, and on nothing else. -/
theorem exec_fault {i : Instr} {f : Fault} (h : exec i s = .fault f) : f = .unwrittenByte ∨ f = .indexOutOfRange := by
  cases i with
  | construct c k n => exact constructMicro_faults.fault (runCommand_fault h).2
  | beginCh c => exact absurd (runCommand_fault h).2 (beginMicro_not_fault f)
  | read c => exact readMicro_faults.fault (runCommand_fault h).2
  | write c b => exact writeMicro_faults.fault (runCommand_fault h).2
  | avail c => exact availMicro_faults.fault (runCommand_fault h).2
  | rcount c => exact rcountMicro_faults.fault (runCommand_fault h).2
  | flushRx c => exact flushRxMicro_faults.fault (runCommand_fault h).2
  | flushTx c => exact flushTxMicro_faults.fault (runCommand_fault h).2
  | irqRx k =>
    rw [execIrqRx_eq] at h
    split at h
    · cases h
    · next c _ =>
      rcases onReceiveComplete_cases c (layerRx k s) with e | ⟨e, _⟩ | ⟨v, hv, hb⟩
      · rw [e] at h; cases h; exact Or.inl rfl
      · rw [e] at h; cases h; exact Or.inr rfl
      · rw [onReceiveComplete_eq hv hb] at h
        split at h
        · obtain ⟨t, ht⟩ := rearm_goes_on ((layerRx k s).chan c).handle c (layerRx k s)
          rw [ht] at h; cases h
        · obtain ⟨t, ht⟩ := rearm_goes_on ((layerRx k s).chan c).handle c (pushed ⟨c, .rx⟩ v (layerRx k s))
          rw [ht] at h; cases h
  | irqTx k =>
    rw [execIrqTx_eq] at h
    split at h
    · cases h
    · next c _ =>
      rcases onTransmitComplete_cases c (layerTx k s) with e | ⟨e, _⟩ | ⟨hb, he | ⟨v, he, hv⟩⟩
      · rw [e] at h; cases h; exact Or.inl rfl
      · rw [e] at h; cases h; exact Or.inr rfl
      · rw [onTransmitComplete_of_empty hb he] at h; cases h
      · rw [onTransmitComplete_of_written hb he hv] at h; cases h
  | hwrxd k b =>
    change finish (deliver k b s) = _ at h
    unfold deliver at h
    split at h
    · split at h
      · cases h
      · exact (faultsOnly_memWrite.bind fun _ => faultsOnly_ok _).fault (finish_fault.1 h)
    · cases h
  | hwinj k sel st =>
    change execHwinj k sel st s = _ at h
    unfold execHwinj at h
    split at h <;> cases h
  | hwReceiveArm p c =>
    change finish (do let (_, s) ← hwReceiveArm p c s; return s) = _ at h
    cases ha : hwReceiveArm p c s with
    | ok r => rw [ha] at h; cases h
    | error e =>
      obtain ⟨w, rfl, _⟩ := hwReceiveArm_error ha
      rw [ha] at h
      cases h
  | hwTransmitByte p b => cases h
  | hwIsReady p => cases h
  | hwUnlockAndAbortReceive p => cases h

end faults

end Sys2Proof.Machine
end

