-- ==== Sys2Proof/Laws/Queue.lean ====
section
/-! SUPPORT. The queue a buffer holds: its live indices under a push and a pop (20_memory.md R79). -/

namespace Sys2Proof.Machine

/-- FULL over the integers. -/
theorem isFullAt_iff {h t n : Idx} (hn : 0 < n.toNat) :
    isFullAt h t n = true ↔ (h.toNat + 1) % n.toNat = t.toNat := by
  simp only [isFullAt, beq_iff_eq]
  rw [← BitVec.toNat_inj, idxSucc_toNat _ _ hn]

/-- FULL without a remainder. -/
theorem isFullAt_iff_of_lt {h t n : Idx} (hh : h.toNat < n.toNat) :
    isFullAt h t n = true ↔ (if h.toNat + 1 = n.toNat then t.toNat = 0 else t.toNat = h.toNat + 1) := by
  rw [isFullAt_iff (by omega)]
  by_cases e : h.toNat + 1 = n.toNat
  · rw [e, Nat.mod_self, if_pos rfl]; exact eq_comm
  · rw [Nat.mod_eq_of_lt (by omega), if_neg e]; exact eq_comm

theorem isEmptyAt_iff {h t : Idx} : isEmptyAt h t = true ↔ h.toNat = t.toNat := by
  simp only [isEmptyAt, beq_iff_eq, BitVec.toNat_inj]

theorem contents_length (s : State) (b : Buf) :
    (contents b s).length = (occupancyAt (s.head b) (s.tail b) (s.cap b.c)).toNat := by
  simp [contents, liveIndices]

/-- The oldest live index, and the others. -/
theorem liveIndices_cons {h t n : Idx} (hh : h.toNat < n.toNat) (ht : t.toNat < n.toNat) (hne : h ≠ t) :
   liveIndices h t n = t :: liveIndices h (idxSucc t n) n := by
  have hs := idxSucc_lt ht
  have e1 := occupancyAt_toNat hh ht
  have e2 := occupancyAt_toNat hh hs
  have e3 := idxSucc_toNat t n (by omega)
  have hne' : h.toNat ≠ t.toNat := fun e => hne (BitVec.eq_of_toNat_eq e)
  have hocc : (occupancyAt h t n).toNat = (occupancyAt h (idxSucc t n) n).toNat + 1 := by
    rw [e1, e2, e3]
    by_cases e : t.toNat + 1 = n.toNat
    · rw [e, Nat.mod_self]; split <;> split <;> omega
    · rw [Nat.mod_eq_of_lt (by omega)]; split <;> split <;> omega
  have hn := n.isLt
  unfold liveIndices
  rw [hocc, List.range_succ_eq_map, List.map_cons, List.map_map]
  congr 1
  · apply BitVec.eq_of_toNat_eq; simp; rw [Nat.mod_eq_of_lt ht]; omega
  · apply List.map_congr_left
    intro j _
    simp only [Function.comp_apply, e3]
    congr 1
    rw [Nat.mod_add_mod]; congr 1; omega

/-- The live indices after the head moved on, which was none of them. -/
theorem liveIndices_snoc {h t n : Idx} (hh : h.toNat < n.toNat) (ht : t.toNat < n.toNat) (hf : isFullAt h t n = false) :
   liveIndices (idxSucc h n) t n = liveIndices h t n ++ [h] ∧ h ∉ liveIndices h t n := by
  have hs := idxSucc_lt hh
  have e1 := occupancyAt_toNat hh ht
  have e2 := occupancyAt_toNat hs ht
  have e3 := idxSucc_toNat h n (by omega)
  have hf' : ¬ (if h.toNat + 1 = n.toNat then t.toNat = 0 else t.toNat = h.toNat + 1) := by
    rw [← isFullAt_iff_of_lt hh, hf]; decide
  have hn := n.isLt
  have hocc : (occupancyAt (idxSucc h n) t n).toNat = (occupancyAt h t n).toNat + 1 := by
    rw [e1, e2, e3]
    by_cases e : h.toNat + 1 = n.toNat
    · rw [if_pos e] at hf'; rw [e, Nat.mod_self]; split <;> split <;> omega
    · rw [if_neg e] at hf'; rw [Nat.mod_eq_of_lt (by omega)]; split <;> split <;> omega
  constructor
  · unfold liveIndices
    rw [hocc, List.range_succ, List.map_append, List.map_singleton]
    congr 2
    apply BitVec.eq_of_toNat_eq
    rw [e1]
    simp only [BitVec.toNat_ofNat]
    split
    · rw [show t.toNat + (h.toNat - t.toNat) = h.toNat by omega, Nat.mod_eq_of_lt hh]; omega
    · rw [show t.toNat + (h.toNat + n.toNat - t.toNat) = h.toNat + n.toNat by omega, Nat.add_mod_right,
        Nat.mod_eq_of_lt hh]; omega
  · unfold liveIndices
    intro hm
    obtain ⟨j, hj, he⟩ := List.mem_map.1 hm
    rw [List.mem_range, e1] at hj
    have he := congrArg BitVec.toNat he
    simp only [BitVec.toNat_ofNat] at he
    have hlt := Nat.mod_lt (t.toNat + j) (show 0 < n.toNat by omega)
    rw [Nat.mod_eq_of_lt (show (t.toNat + j) % n.toNat < 2^16 by omega)] at he
    by_cases hw : t.toNat + j < n.toNat
    · rw [Nat.mod_eq_of_lt hw] at he; split at hj <;> omega
    · rw [Nat.mod_eq_sub_mod (by omega), Nat.mod_eq_of_lt (by split at hj <;> omega)] at he; split at hj <;> omega

theorem Buf.space_ne {a b : Buf} (h : a ≠ b) : a.space ≠ b.space := by
  rcases a with ⟨ca, sa⟩; rcases b with ⟨cb, sb⟩
  cases sa <;> cases sb <;> simp_all [Buf.space]

/-- What a successful push does to the queues of all buffers. -/
theorem contents_pushed {s : State} {b : Buf} {v : Byte} (h : s.bufOk b = true)
    (hf : isFullAt (s.head b) (s.tail b) (s.cap b.c) = false) :
   contents b (pushed b v s) = contents b s ++ [some v] ∧ (pushed b v s).bufOk b = true ∧
     (∀ d, (pushed b v s).cap d = s.cap d) ∧
     ∀ a, a ≠ b → (pushed b v s).head a = s.head a ∧ (pushed b v s).tail a = s.tail a ∧
       contents a (pushed b v s) = contents a s := by
  have hh : ∀ a, (pushed b v s).head a = if a = b then idxSucc (s.head b) (s.cap b.c) else s.head a := by
    intro a; simp only [pushed]; rw [head_setHead]; rfl
  have ht : ∀ a, (pushed b v s).tail a = s.tail a := by intro a; simp only [pushed]; rw [tail_setHead]; rfl
  have hc : ∀ d, (pushed b v s).cap d = s.cap d := by intro a; simp only [pushed]; rw [setHead_cap]; rfl
  have hb : ∀ sp i, (pushed b v s).byteAt sp i = if sp = b.space ∧ i = s.head b then some v else s.byteAt sp i := by
    intro sp i; simp only [pushed]; rw [setHead_byteAt, byteAt_write]
  refine ⟨?_, ?_, hc, ?_⟩
  · obtain ⟨l1, l2⟩ := liveIndices_snoc (head_lt_cap h) (tail_lt_cap h) hf
    unfold contents
    rw [hh, ht, hc, if_pos rfl, l1, List.map_append]
    congr 1
    · apply List.map_congr_left
      intro i hi; rw [hb, if_neg]; rintro ⟨_, rfl⟩; exact l2 hi
    · simp [hb]
  · exact bufOk_setHead _ _ (idxSucc_lt (head_lt_cap h)) h
  · intro a ha
    refine ⟨by rw [hh, if_neg ha], ht a, ?_⟩
    unfold contents
    rw [hh, ht, hc, if_neg ha]
    apply List.map_congr_left
    intro i _; rw [hb, if_neg]; rintro ⟨e, _⟩; exact Buf.space_ne ha e

/-- What a pop does to the queues of all buffers. -/
theorem contents_popped {s : State} {b : Buf} (h : s.bufOk b = true) (hne : s.head b ≠ s.tail b) :
   contents b s = s.byteAt b.space (s.tail b) :: contents b (popped b s) ∧ (popped b s).bufOk b = true ∧
     (∀ d, (popped b s).cap d = s.cap d) ∧
     ∀ a, a ≠ b → (popped b s).head a = s.head a ∧ (popped b s).tail a = s.tail a ∧
       contents a (popped b s) = contents a s := by
  have ht : ∀ a, (popped b s).tail a = if a = b then idxSucc (s.tail b) (s.cap b.c) else s.tail a := by
    intro a; simp only [popped]; rw [tail_setTail]
  have hh : ∀ a, (popped b s).head a = s.head a := by intro a; simp only [popped]; rw [head_setTail]
  have hc : ∀ d, (popped b s).cap d = s.cap d := by intro a; simp only [popped]; rw [setTail_cap]
  have hb : ∀ sp, (popped b s).byteAt sp = s.byteAt sp := by
    intro sp; funext i; simp only [popped]; rw [setTail_byteAt]
  refine ⟨?_, bufOk_setTail _ _ (idxSucc_lt (tail_lt_cap h)) h, hc, ?_⟩
  · unfold contents
    rw [hh, ht, hc, if_pos rfl, liveIndices_cons (head_lt_cap h) (tail_lt_cap h) hne, hb]; rfl
  · intro a ha
    refine ⟨hh a, by rw [ht, if_neg ha], ?_⟩
    unfold contents
    rw [hh, ht, hc, if_neg ha, hb]

end Sys2Proof.Machine
end

