-- ==== Sys2Proof/Laws/Step.lean ====
section
/-! SUPPORT. What a step is: an instruction on a state with the same block, or a step that leaves the block alone. -/

namespace Sys2Proof.Machine

theorem step_of_not_faulted {s : State} (h : s.faulted = false) : step s = takeTurn s := by
  simp [step, oneStep, h]

theorem step_of_faulted {s : State} (h : s.faulted = true) : step s = .fault .envFault := by
  simp [step, oneStep, h]

/-- The block, the parameters and the layer of two states agree: they differ in the inputs and in what was observed of
them only. -/
structure SameMachine (s u : State) : Prop where
  par : u.par = s.par
  block : SameBlock s u
  periphs : u.periphs = s.periphs
  envFault : u.envFault = s.envFault

theorem sameMachine_refl (s : State) : SameMachine s s := ⟨rfl, ⟨rfl, rfl, rfl, rfl⟩, rfl, rfl⟩

theorem SameMachine.trans {s t u : State} (h : SameMachine s t) (k : SameMachine t u) : SameMachine s u :=
  ⟨k.par.trans h.par, ⟨k.block.chans.trans h.block.chans, k.block.reg.trans h.block.reg, k.block.mem.trans h.block.mem,
    k.block.upc.trans h.block.upc⟩, k.periphs.trans h.periphs, k.envFault.trans h.envFault⟩

/-- `r` comes of an instruction on the same machine as `s`, or goes on to the same machine, or is a refusal. -/
def FromExec (s : State) (r : Res) : Prop :=
  (∃ i u, SameMachine s u ∧ r = exec i u) ∨ (∃ u, SameMachine s u ∧ r = .next u) ∨ ∃ x, r = .refused x

theorem FromExec.lift {s u : State} {r : Res} (h : FromExec u r) (hs : SameMachine s u) : FromExec s r := by
  rcases h with ⟨i, v, hv, rfl⟩ | ⟨v, hv, rfl⟩ | h
  · exact Or.inl ⟨i, v, hs.trans hv, rfl⟩
  · exact Or.inr (Or.inl ⟨v, hs.trans hv, rfl⟩)
  · exact Or.inr (Or.inr h)

theorem fromExec_exec {s u : State} (i : Instr) (h : SameMachine s u) : FromExec s (exec i u) := Or.inl ⟨i, u, h, rfl⟩

theorem fromExec_next {s u : State} (h : SameMachine s u) : FromExec s (.next u) := Or.inr (Or.inl ⟨u, h, rfl⟩)

theorem issueWriten_from (c : Slot) (bs : List Byte) (n : Nat) (rest : List Issue) (s : State) :
    FromExec s (issueWriten c bs n rest s) := by
  cases bs with
  | nil => exact fromExec_next ⟨rfl, ⟨rfl, rfl, rfl, rfl⟩, rfl, rfl⟩
  | cons b bs => exact fromExec_exec (.write c b) (u := { s with cmdQ := .writenAsked c bs n :: rest }) ⟨rfl, ⟨rfl, rfl, rfl, rfl⟩, rfl, rfl⟩

theorem normalTurn_from (s : State) : FromExec s (normalTurn s) := by
  unfold normalTurn
  split
  · exact fromExec_exec _ (sameMachine_refl s)
  · unfold issueNext
    split
    · exact fromExec_next (sameMachine_refl s)
    · unfold commandWord
      split
      · exact fromExec_exec _ ⟨rfl, ⟨rfl, rfl, rfl, rfl⟩, rfl, rfl⟩
      · exact fromExec_next ⟨rfl, ⟨rfl, rfl, rfl, rfl⟩, rfl, rfl⟩
    · exact issueWriten_from ..
    · split
      · exact issueWriten_from ..
      · exact fromExec_next ⟨rfl, ⟨rfl, rfl, rfl, rfl⟩, rfl, rfl⟩

theorem takeTurn_from (s : State) : FromExec s (takeTurn s) := by
  unfold takeTurn
  split
  · exact normalTurn_from s
  · exact (normalTurn_from _).lift ⟨rfl, ⟨rfl, rfl, rfl, rfl⟩, rfl, rfl⟩
  · unfold eventWord
    split
    · exact fromExec_exec _ ⟨rfl, ⟨rfl, rfl, rfl, rfl⟩, rfl, rfl⟩
    · exact fromExec_next ⟨rfl, ⟨rfl, rfl, rfl, rfl⟩, rfl, rfl⟩
  · unfold eventWord
    split
    · exact fromExec_exec _ ⟨rfl, ⟨rfl, rfl, rfl, rfl⟩, rfl, rfl⟩
    · exact fromExec_next ⟨rfl, ⟨rfl, rfl, rfl, rfl⟩, rfl, rfl⟩
  · unfold requestWord
    split
    · exact fromExec_exec _ ⟨rfl, ⟨rfl, rfl, rfl, rfl⟩, rfl, rfl⟩
    · exact Or.inr (Or.inr ⟨_, rfl⟩)

/-- A step that goes on ran an instruction on the same machine, or left the machine alone. -/
theorem step_next {s t : State} (h : step s = .next t) :
    (∃ i u, SameMachine s u ∧ exec i u = .next t) ∨ SameMachine s t := by
  cases hf : s.faulted with
  | true => rw [step_of_faulted hf] at h; cases h
  | false =>
    rw [step_of_not_faulted hf] at h
    rcases takeTurn_from s with ⟨i, u, hu, hr⟩ | ⟨u, hu, hr⟩ | ⟨x, hr⟩
    · exact Or.inl ⟨i, u, hu, hr ▸ h⟩
    · rw [h] at hr; cases hr; exact Or.inr hu
    · rw [h] at hr; cases hr

/-- A step that faults is a step of a faulted run, or ran an instruction that faults. -/
theorem step_fault {s : State} {f : Fault} (h : step s = .fault f) :
    (s.faulted = true ∧ f = .envFault) ∨ ∃ i u, SameMachine s u ∧ exec i u = .fault f := by
  cases hf : s.faulted with
  | true => rw [step_of_faulted hf] at h; cases h; exact Or.inl ⟨rfl, rfl⟩
  | false =>
    rw [step_of_not_faulted hf] at h
    rcases takeTurn_from s with ⟨i, u, hu, hr⟩ | ⟨u, hu, hr⟩ | ⟨x, hr⟩
    · exact Or.inr ⟨i, u, hu, hr ▸ h⟩
    · rw [h] at hr; cases hr
    · rw [h] at hr; cases hr

/-- A run goes on with the rest after a step that goes on. -/
theorem run_next {s t : State} (h : step s = .next t) (n : Nat) :
    Sys2Proof.core.run (n + 1) s = Sys2Proof.core.run n t := by
  have h : Sys2Proof.core.step s = .next t := h
  simp only [Host.Core.run, h]

/-- A run ends at a step that faults. -/
theorem run_fault {s : State} {f : Fault} (h : step s = .fault f) (n : Nat) :
    Sys2Proof.core.run (n + 1) s = .fault f := by
  have h : Sys2Proof.core.step s = .fault f := h
  simp only [Host.Core.run, h]

/-- With no turn listed, the step is a turn of the command in progress. -/
theorem step_of_running {s : State} {i : Instr} (hf : s.faulted = false) (hc : s.upc.command = some i)
    (ht : s.turns = []) : step s = exec i s := by
  rw [step_of_not_faulted hf]
  simp [takeTurn, ht, normalTurn, hc]

/-! ### The instruction a step runs -/

/-- A decoder's verdict as an option. -/
theorem ok_of_toOption {r : Except DecodeError Instr} {i : Instr} (h : r.toOption = some i) : r = .ok i := by
  cases r with
  | error x => cases h
  | ok j => cases h; rfl

/-- The issuer's next issue runs the instruction it starts, on the same machine. -/
theorem normalTurn_of_nextIssue {s : State} {i : Instr} (hu : s.upc = .idle) (h : s.nextIssue = some i) :
    ∃ u, SameMachine s u ∧ normalTurn s = exec i u := by
  have hn : normalTurn s = issueNext s := by simp [normalTurn, hu, Upc.command]
  rw [hn]
  unfold State.nextIssue at h
  split at h
  · next w q hq =>
    simp only [issueNext, hq]
    refine ⟨{ s with cmdQ := q }, ⟨rfl, ⟨rfl, rfl, rfl, rfl⟩, rfl, rfl⟩, ?_⟩
    simp only [commandWord, ok_of_toOption h]
  · next c b bs n q hq =>
    cases h
    simp only [issueNext, hq]
    exact ⟨{ s with cmdQ := .writenAsked c bs n :: q }, ⟨rfl, ⟨rfl, rfl, rfl, rfl⟩, rfl, rfl⟩, rfl⟩
  · next c b bs n q hq =>
    split at h
    · next hl =>
      cases h
      simp only [issueNext, hq]
      refine ⟨{ s with cmdQ := .writenAsked c bs (n + 1) :: q }, ⟨rfl, ⟨rfl, rfl, rfl, rfl⟩, rfl, rfl⟩, ?_⟩
      simp [hl, issueWriten]
    · cases h
  · cases h

/-- The normal context's turn runs the command in progress, or the one the issuer starts. -/
theorem normalTurn_of_runs {s : State} {i : Instr} (h : (s.upc.command <|> s.nextIssue) = some i) :
    ∃ u, SameMachine s u ∧ normalTurn s = exec i u := by
  cases hc : s.upc.command with
  | some j =>
    rw [hc] at h
    cases h
    exact ⟨s, sameMachine_refl s, by simp [normalTurn, hc]⟩
  | none =>
    rw [hc] at h
    exact normalTurn_of_nextIssue (by cases hu : s.upc <;> simp_all [Upc.command]) h

/-- The step runs the instruction it is said to run, on the same machine. -/
theorem step_of_runs {s : State} {i : Instr} (hf : s.faulted = false) (h : s.runs = some i) :
    ∃ u, SameMachine s u ∧ step s = exec i u := by
  have other : ∀ ts, SameMachine s { s with turns := ts } := fun ts => ⟨rfl, ⟨rfl, rfl, rfl, rfl⟩, rfl, rfl⟩
  rw [step_of_not_faulted hf]
  unfold State.runs at h
  split at h
  · next ht => simp only [takeTurn, ht]; exact normalTurn_of_runs h
  · next ts ht =>
    simp only [takeTurn, ht]
    obtain ⟨u, hs, hr⟩ := normalTurn_of_runs (s := { s with turns := ts }) h
    exact ⟨u, (other ts).trans hs, hr⟩
  · next w ts ht => simp only [takeTurn, ht]; exact ⟨_, other ts, by simp only [eventWord, ok_of_toOption h]⟩
  · next w ts ht => simp only [takeTurn, ht]; exact ⟨_, other ts, by simp only [eventWord, ok_of_toOption h]⟩
  · next q ts ht => simp only [takeTurn, ht]; exact ⟨_, other ts, by simp only [requestWord, ok_of_toOption h]⟩

end Sys2Proof.Machine
end

