-- ==== Sys2Proof/Machine/Assembler.lean ====
section
/-! DEFINITION. The assembler text of 30_encoding.md R101, R102, printed and read. No step of the machine uses it
(log 20). -/

namespace Sys2Proof.Machine

/-! ### Printing -/

/-- `ch<n>` (30_encoding.md R101). -/
def asmSlot (c : Slot) : String := "ch" ++ toString c.val

/-- `p<n>` (30_encoding.md R101). -/
def asmPid (k : Pid) : String := "p" ++ toString k.val

/-- `rx` or `tx` (30_encoding.md R101). -/
def asmSel : InjSel → String
  | .rx => "rx"
  | .tx => "tx"

/-- `ok`, `busy` or `error` (30_encoding.md R101, codes of R99). -/
def asmStatus (st : BitVec 2) : String :=
  match st.toNat with
  | 0 => "ok"
  | 1 => "busy"
  | _ => "error"

/-- The assembler line of an operation (30_encoding.md R101); a hardware call is written as in HWLOG
(44_hardware_layer.md R215). -/
def asm : Instr → String
  | .construct c k n => "CONSTRUCT " ++ asmSlot c ++ ", " ++ asmPid k ++ ", " ++ toString n.toNat
  | .beginCh c => "BEGIN " ++ asmSlot c
  | .read c => "READ " ++ asmSlot c
  | .write c b => "WRITE " ++ asmSlot c ++ ", " ++ toString b.toNat
  | .avail c => "AVAIL " ++ asmSlot c
  | .rcount c => "RCOUNT " ++ asmSlot c
  | .flushRx c => "FLUSHRX " ++ asmSlot c
  | .flushTx c => "FLUSHTX " ++ asmSlot c
  | .irqRx k => "IRQRX " ++ asmPid k
  | .irqTx k => "IRQTX " ++ asmPid k
  | .hwrxd k b => "HWRXD " ++ asmPid k ++ ", " ++ toString b.toNat
  | .hwinj k sel st => "HWINJ " ++ asmPid k ++ ", " ++ asmSel sel ++ ", " ++ asmStatus st
  | .hwReceiveArm p c => "hw_receive_arm(" ++ asmPid p ++ ", " ++ asmSlot c ++ ")"
  | .hwTransmitByte p b => "hw_transmit_byte(" ++ asmPid p ++ ", " ++ toString b.toNat ++ ")"
  | .hwIsReady p => "hw_is_ready(" ++ asmPid p ++ ")"
  | .hwUnlockAndAbortReceive p => "hw_unlock_and_abort_receive(" ++ asmPid p ++ ")"

/-! ### Reading -/

/-- A line of assembler text: an operation, or the pseudo-instruction WRITEN (30_encoding.md R102). -/
inductive Line where
  | op (i : Instr)
  | writen (c : Slot) (bs : List Byte)
deriving DecidableEq, Repr

/-- The words of a line, split at blanks and commas, without the comment that a `;` opens (30_encoding.md R101);
`word` is what has been read of the current word. -/
def lineWords (word : List Char) : List Char → List (List Char)
  | [] => if word.isEmpty then [] else [word]
  | ch :: rest =>
    if ch = ';' then if word.isEmpty then [] else [word]
    else if ch = ' ' || ch = ',' then
      if word.isEmpty then lineWords [] rest else word :: lineWords [] rest
    else lineWords (word ++ [ch]) rest

/-- The value of a digit in base 16. -/
def digitValue (ch : Char) : Option Nat :=
  if '0' ≤ ch && ch ≤ '9' then some (ch.toNat - 48)
  else if 'a' ≤ ch && ch ≤ 'f' then some (ch.toNat - 87)
  else if 'A' ≤ ch && ch ≤ 'F' then some (ch.toNat - 55)
  else none

/-- Read digits of a base after the number `n` read so far. -/
def readDigits (base n : Nat) : List Char → Option Nat
  | [] => some n
  | ch :: rest =>
    match digitValue ch with
    | some d => if d < base then readDigits base (n * base + d) rest else none
    | none => none

/-- A decimal number of at least one digit. -/
def readDecimal (cs : List Char) : Option Nat := if cs.isEmpty then none else readDigits 10 0 cs

/-- A decimal number, or a hexadecimal one after `0x` (30_encoding.md R101). -/
def readNumber : List Char → Option Nat
  | '0' :: 'x' :: cs => if cs.isEmpty then none else readDigits 16 0 cs
  | cs => readDecimal cs

/-- The number below 16 that decimal digits name. -/
def readFin16 (cs : List Char) : Option (Fin 16) :=
  match readDecimal cs with
  | some n => if h : n < 16 then some ⟨n, h⟩ else none
  | none => none

/-- `ch<n>`. -/
def readSlot : List Char → Option Slot
  | 'c' :: 'h' :: cs => readFin16 cs
  | _ => none

/-- `p<n>`. -/
def readPid : List Char → Option Pid
  | 'p' :: cs => readFin16 cs
  | _ => none

/-- A data byte, 0 to 255. -/
def readByteText (cs : List Char) : Option Byte :=
  match readNumber cs with
  | some n => if n < 256 then some (BitVec.ofNat 8 n) else none
  | none => none

/-- A capacity, a decimal number of 16 bits. -/
def readCapacity (cs : List Char) : Option Idx :=
  match readDecimal cs with
  | some n => if n < 65536 then some (BitVec.ofNat 16 n) else none
  | none => none

/-- `rx` or `tx`. -/
def readSel (cs : List Char) : Option InjSel :=
  if cs = "rx".toList then some .rx else if cs = "tx".toList then some .tx else none

/-- `ok`, `busy` or `error`. -/
def readStatus (cs : List Char) : Option (BitVec 2) :=
  if cs = "ok".toList then some 0
  else if cs = "busy".toList then some 1
  else if cs = "error".toList then some 2
  else none

/-- A command with one slot operand (format C). -/
def readSlotOp (make : Slot → Instr) : List (List Char) → Option Line
  | [c] => (readSlot c).map fun c => .op (make c)
  | _ => none

/-- An event with one peripheral operand (format P). -/
def readPidOp (make : Pid → Instr) : List (List Char) → Option Line
  | [k] => (readPid k).map fun k => .op (make k)
  | _ => none

/-- CONSTRUCT with its capacity, or with the default one (30_encoding.md R102). -/
def readConstruct : List (List Char) → Option Line
  | [c, k, n] => do return .op (.construct (← readSlot c) (← readPid k) (← readCapacity n))
  | [c, k] => do return .op (.construct (← readSlot c) (← readPid k) Config.defaultCapacity)
  | _ => none

/-- WRITE (format B). -/
def readWrite : List (List Char) → Option Line
  | [c, b] => do return .op (.write (← readSlot c) (← readByteText b))
  | _ => none

/-- HWRXD (format D). -/
def readHwrxd : List (List Char) → Option Line
  | [k, b] => do return .op (.hwrxd (← readPid k) (← readByteText b))
  | _ => none

/-- HWINJ (format J). -/
def readHwinj : List (List Char) → Option Line
  | [k, sel, st] => do return .op (.hwinj (← readPid k) (← readSel sel) (← readStatus st))
  | _ => none

/-- WRITEN: a slot and any number of bytes (30_encoding.md R102). -/
def readWriten : List (List Char) → Option Line
  | c :: bs => do return .writen (← readSlot c) (← bs.mapM readByteText)
  | [] => none

/-- Read the operands after a mnemonic (30_encoding.md R101, R102). -/
def readOperands (mnemonic : List Char) (args : List (List Char)) : Option Line :=
  if mnemonic = "CONSTRUCT".toList then readConstruct args
  else if mnemonic = "BEGIN".toList then readSlotOp .beginCh args
  else if mnemonic = "READ".toList then readSlotOp .read args
  else if mnemonic = "WRITE".toList then readWrite args
  else if mnemonic = "AVAIL".toList then readSlotOp .avail args
  else if mnemonic = "RCOUNT".toList then readSlotOp .rcount args
  else if mnemonic = "FLUSHRX".toList then readSlotOp .flushRx args
  else if mnemonic = "FLUSHTX".toList then readSlotOp .flushTx args
  else if mnemonic = "IRQRX".toList then readPidOp .irqRx args
  else if mnemonic = "IRQTX".toList then readPidOp .irqTx args
  else if mnemonic = "HWRXD".toList then readHwrxd args
  else if mnemonic = "HWINJ".toList then readHwinj args
  else if mnemonic = "WRITEN".toList then readWriten args
  else none

/-- Read one line of assembler text (30_encoding.md R101). -/
def readLine (line : String) : Option Line :=
  match lineWords [] line.toList with
  | [] => none
  | mnemonic :: args => readOperands mnemonic args

end Sys2Proof.Machine
end

