-- ==== Sys2Proof/Tests/Slice0.lean ====
section
/-! SUPPORT. Tests of the model against words and vectors of 95_test_vectors.md (each names its vector), and one witness
theorem for each statement that has hypotheses. -/

namespace Sys2Proof.Machine.Tests

/-! ### Helpers -/

/-- What `f` reads of the next state; `none` when there is none. -/
def got {α : Type} (r : Res) (f : State → α) : Option α :=
  match r with
  | .next t => some (f t)
  | .fault _ => none
  | .refused _ => none

/-- The fault an outcome ends in, if any. -/
def faultOf (r : Res) : Option Fault :=
  match r with
  | .fault e => some e
  | .next _ => none
  | .refused _ => none

theorem next_of_got {r : Res} (h : (got r fun _ => ()) = some ()) : ∃ t, r = .next t := by
  cases r with
  | next t => exact ⟨t, rfl⟩
  | fault e => cases h
  | refused e => cases h

/-- Bytes at consecutive addresses. -/
def cells (a : Nat) : List Byte → Memory
  | [] => []
  | v :: vs => (a, v) :: cells (a + 1) vs

/-- Channel 0 on `p0` with `N = 4`: the four indices, storage from index 0, and `UPC`. -/
def ch0 (rxh rxt txh txt : Idx) (rx tx : List Byte) (u : Upc) : State :=
  { State.reset with
    chans := State.reset.chans.set 0 ⟨true, 0, 4, rxh, rxt, txh, txt⟩
    reg := State.reset.reg.set 0 (some 0)
    upc := u
    mem := cells 0 rx ++ cells 65536 tx }

/-- The same state with `SCR[0] = v`. -/
def scr0 (v : Byte) (s : State) : State := { s with mem := s.mem ++ [(131072, v)] }

/-- The same state with `RXARM[0]`. -/
def arm0 (a : Option Slot) (s : State) : State := s.setPeriph 0 { s.periph 0 with rxArm := a }

/-- The same state with `TXBUSY[0] = 1` and `TXCUR[0] = v`. -/
def busy0 (v : Byte) (s : State) : State := s.setPeriph 0 { s.periph 0 with txBusy := true, txCur := v }

/-- The same state with `RXDONE[0] = 1`. -/
def done0 (s : State) : State := s.setPeriph 0 { s.periph 0 with rxDone := true }

/-- The same state with `INJRX[0] = l`. -/
def injRx0 (l : List HwStatus) (s : State) : State := s.setPeriph 0 { s.periph 0 with injRx := l }

/-- The same state with `INJTX[0] = l`. -/
def injTx0 (l : List HwStatus) (s : State) : State := s.setPeriph 0 { s.periph 0 with injTx := l }

/-- The same state under `HwModel = free`. -/
def free (s : State) : State := { s with par := { s.par with hwModel := .free } }

/-- The same state under `FLUSH_ORDER = tail_first`. -/
def tailFirst (s : State) : State := { s with par := { s.par with flushOrder := .tailFirst } }

/-- The same state where reading a byte nothing has written is a fault. -/
def faulting (s : State) : State := { s with par := { s.par with unwritten := .fault } }

/-- The same state with `NCH = 4`. -/
def four (s : State) : State := { s with par := { s.par with nch := 4 } }

/-- The same state with another `UPC`. -/
def at' (u : Upc) (s : State) : State := { s with upc := u }

/-- The same state with turns to come. -/
def turn (ts : List Turn) (s : State) : State := { s with turns := ts }

/-- The same state with issues to come. -/
def issue (q : List Issue) (s : State) : State := { s with cmdQ := q }

/-- An idle channel with empty buffers. -/
def idle0 : State := ch0 0 0 0 0 [] [] .idle

/-! ### Well-formedness -/

/-- 30_encoding.md R95: `ST = 3` is refused, the other three statuses are not. -/
theorem test_wellFormed_refuses_status_3 :
    Instr.wellFormed (.hwinj 0 .rx 3) = false ∧ Instr.wellFormed (.hwinj 15 .tx 2) = true := by decide

/-! ### Decoding: E1 to E8c, E10, E11 -/

theorem test_decode_construct : decodeOn .command 0x01120100 = .ok (.construct 1 2 256) := by decide
theorem test_decode_begin : decodeOn .command 0x02100000 = .ok (.beginCh 1) := by decide
theorem test_decode_read : decodeOn .command 0x03500000 = .ok (.read 5) := by decide
theorem test_decode_write : decodeOn .command 0x04100041 = .ok (.write 1 0x41) := by decide
theorem test_decode_avail : decodeOn .command 0x05000000 = .ok (.avail 0) := by decide
theorem test_decode_rcount : decodeOn .command 0x06000000 = .ok (.rcount 0) := by decide
theorem test_decode_flushRx : decodeOn .command 0x07000000 = .ok (.flushRx 0) := by decide
theorem test_decode_flushTx : decodeOn .command 0x08300000 = .ok (.flushTx 3) := by decide
theorem test_decode_irqRx : decodeOn .interrupt 0x10020000 = .ok (.irqRx 2) := by decide
theorem test_decode_irqTx : decodeOn .interrupt 0x110F0000 = .ok (.irqTx 15) := by decide
theorem test_decode_hwrxd : decodeOn .environment 0x20010066 = .ok (.hwrxd 1 0x66) := by decide
theorem test_decode_hwinj : decodeOn .environment 0x21000102 = .ok (.hwinj 0 .tx 2) := by decide
theorem test_decode_hwReceiveArm : decodeTableWord 16 0x0201 = some (.hwReceiveArm 2 1) := by decide
theorem test_decode_hwTransmitByte : decodeTableWord 16 0x1041 = some (.hwTransmitByte 0 0x41) := by decide
theorem test_decode_hwIsReady : decodeTableWord 16 0x2500 = some (.hwIsReady 5) := by decide
theorem test_decode_hwUnlock : decodeTableWord 16 0x3200 = some (.hwUnlockAndAbortReceive 2) := by decide

/-- E10 on the command port. -/
theorem test_decode_illegal_commands :
    [0x00000000, 0x09000000, 0xFF000000, 0x03000001, 0x03010000, 0x04000141, 0x04020041, 0x10000000].all
      (fun w => (decodeOn .command w).toOption == none) = true := by decide

/-- E10 on the interrupt and environment ports. -/
theorem test_decode_illegal_events :
    [0x03000000, 0x10120000, 0x11000001, 0x12000000].all
      (fun w => (decodeOn .interrupt w).toOption == none) = true ∧
    [0x2000010A, 0x21000003, 0x21000004].all
      (fun w => (decodeOn .environment w).toOption == none) = true := by decide

/-- 30_encoding.md R99: `FN` 4 to 15 is no request, and unused argument bits must be zero. -/
theorem test_decode_illegal_requests :
    [0x4000, 0xF000, 0x0011, 0x2501, 0x3201].all (fun q => (decodeRequest q).toOption == none) = true := by decide

/-- The encoder gives the words of E1b and E8b. -/
theorem test_encode_words :
    encode (.construct 1 2 256) = 0x01120100 ∧ encode (.hwinj 0 .tx 2) = 0x21000102 := by decide

/-! ### Commands: the vectors of section 2.3, at the micro-step that shows them -/

/-- K3: a second channel for `p0` replaces the registry entry. -/
theorem test_construct_K3 :
    got (exec (.construct 1 0 8) (ch0 0 0 0 0 [] [] (.construct1 1 0 8)))
      (fun t => (t.regAt 0, (t.chan 0).valid, t.chan 1, t.results)) =
      some (some 1, true, ⟨true, 0, 8, 0, 0, 0, 0⟩, [0x00000000]) := by decide

/-- K2: the slot is valid. -/
theorem test_construct_K2 :
    got (exec (.construct 0 0 4) (ch0 0 0 0 0 [] [] (.construct1 0 0 4))) (fun t => (t.results, t.upc)) =
      some ([0x03000000], .idle) := by decide

/-- G1. -/
theorem test_begin_G1 :
    got (exec (.beginCh 0) (at' (.begin1 0) idle0)) (fun t => ((t.periph 0).rxArm, t.hwlog, t.results)) =
      some (some 0, [.receiveArm 0 0 .ok], [0x00000000]) := by decide

/-- G3: the second arm sets `ENVFAULT`. -/
theorem test_begin_G3 :
    got (exec (.beginCh 0) (arm0 (some 0) (at' (.begin1 0) idle0))) (fun t => (t.envFault, t.results)) =
      some (true, []) := by decide

/-- R3: READ's step R.4 wraps the tail. -/
theorem test_read_R3 :
    got (exec (.read 0) (ch0 0 3 0 0 [10, 20, 30, 40] [] (.read4 0 0 3 40)))
      (fun t => ((t.chan 0).rxt, t.results)) = some (0, [0x00000028]) := by decide

/-- R4: empty away from index 0. -/
theorem test_read_R4 :
    got (exec (.read 0) (ch0 2 2 0 0 [10, 20] [] (.read2 0 2))) (fun t => ((t.chan 0).rxt, t.results)) =
      some (2, [0x02000000]) := by decide

/-- A1. -/
theorem test_avail_A1 :
    got (exec (.avail 0) (ch0 3 0 0 0 [10, 20, 30] [] (.avail2 0 3))) (·.results) = some [0x00000001] := by decide

/-- A2. -/
theorem test_avail_A2 :
    got (exec (.avail 0) (ch0 2 2 0 0 [10, 20] [] (.avail2 0 2))) (·.results) = some [0x00000000] := by decide

/-- C2: the head has wrapped below the tail. -/
theorem test_rcount_C2 :
    got (exec (.rcount 0) (ch0 0 3 0 0 [] [] (.rcount2 0 0))) (·.results) = some [0x00000001] := by decide

/-- B2: the largest capacity, where `h - t + N` needs 17 bits. -/
theorem test_occupancy_B2 : occupancyAt 0 65534 65535 = 1 ∧ occupancyAt 1 255 256 = 2 := by decide

/-- H1, `head_first`: F.1 stores the head. -/
theorem test_flushRx_H1_head :
    got (exec (.flushRx 0) (ch0 3 1 0 0 [10, 20, 30] [] (.flushRx1 0))) (fun t => ((t.chan 0).rxh, (t.chan 0).rxt)) =
      some (0, 1) := by decide

/-- H1, `tail_first`: F.1 stores the tail. -/
theorem test_flushRx_H1_tail :
    got (exec (.flushRx 0) (tailFirst (ch0 3 1 0 0 [10, 20, 30] [] (.flushRx1 0))))
      (fun t => ((t.chan 0).rxh, (t.chan 0).rxt)) = some (3, 0) := by decide

/-- H4, `tail_first`: G.2 stores the head after the handler has moved the tail. -/
theorem test_flushTx_H4 :
    got (exec (.flushTx 0) (tailFirst (ch0 0 0 3 1 [] [1, 2, 3] (.flushTx2 0))))
      (fun t => ((t.chan 0).txh, (t.chan 0).txt, t.results)) = some (0, 1, [0x00000000]) := by decide

/-- W3: FULL at W.2. -/
theorem test_write_W3 :
    got (exec (.write 0 5) (busy0 1 (ch0 0 0 0 1 [] [1, 2, 3, 4] (.write2 0 5 0)))) (fun t => (t.results, t.hwlog)) =
      some ([0x01000000], []) := by decide

/-- W6: the answer of the transmit request is discarded and the byte is lost. -/
theorem test_write_W6 :
    got (exec (.write 0 0x41) (injTx0 [.error] (ch0 0 0 1 1 [] [0x41] (.write10 0 0x41 0 0 true 1 0 0x41))))
      (fun t => (t.results, (t.periph 0).txBusy, t.hwlog)) =
      some ([0x00000000], false, [.transmitByte 0 0x41 .error]) := by decide

/-! ### Events: section 2.4 -/

/-- I3: the push wraps the head. -/
theorem test_irqRx_I3 :
    got (exec (.irqRx 0) (done0 (scr0 40 (ch0 3 1 0 0 [10, 20, 30] [] .idle))))
      (fun t => ((t.chan 0).rxh, t.byteAt (.rxmem 0) 3, (t.periph 0).rxArm, (t.periph 0).rxDone, t.hwlog)) =
      some (0, some 40, some 0, false, [.receiveArm 0 0 .ok]) := by decide

/-- I6: both arms fail. -/
theorem test_irqRx_I6 :
    got (exec (.irqRx 0) (injRx0 [.busy, .error] (done0 (scr0 0x31 idle0))))
      (fun t => ((t.chan 0).rxh, (t.periph 0).rxArm, t.hwlog)) =
      some (1, none, [.receiveArm 0 0 .busy, .unlockAndAbortReceive 0, .receiveArm 0 0 .error]) := by decide

/-- I9: a spurious completion before any delivery, where such a read is a fault. -/
theorem test_irqRx_I9 : faultOf (exec (.irqRx 0) (faulting (arm0 (some 0) idle0))) = some .unwrittenByte := by decide

/-- I2 with I4: the byte is dropped and the first arm fails; neither is reached where the handler faults (I9). -/
theorem test_irqRx_conditions :
    conditions (.irqRx 0) (injRx0 [.busy] (done0 (scr0 40 (ch0 3 0 0 0 [10, 20, 30] [] .idle)))) =
      [.receiveOverrun, .hardwareBusyOnRearm] ∧
    conditions (.irqRx 0) (faulting (injRx0 [.busy] (ch0 3 0 0 0 [10, 20, 30] [] .idle))) = [] := by decide

/-- R175: from the reset parameters a handler run before BEGIN pushes some byte and arms a receive itself. -/
theorem test_irqRx_before_begin :
    got (exec (.irqRx 0) idle0) (fun t => ((t.chan 0).rxh, (t.periph 0).rxArm, t.written (.rxmem 0) 0, t.hwlog)) =
      some (1, some 0, true, [.receiveArm 0 0 .ok]) := by decide

/-- T3: the pop wraps the tail. -/
theorem test_irqTx_T3 :
    got (exec (.irqTx 0) (busy0 3 (ch0 0 0 0 3 [] [1, 2, 3, 4] .idle)))
      (fun t => ((t.chan 0).txt, (t.periph 0).line, (t.periph 0).txCur, t.hwlog)) =
      some (0, [3], 4, [.transmitByte 0 4 .ok]) := by decide

/-- T4: the popped byte is refused and lost. -/
theorem test_irqTx_T4 :
    got (exec (.irqTx 0) (injTx0 [.busy] (busy0 1 (ch0 0 0 3 1 [] [1, 2, 3] .idle))))
      (fun t => ((t.chan 0).txt, (t.periph 0).line, (t.periph 0).txBusy)) = some (2, [1], false) := by decide

/-! ### The hardware layer: section 2.5 -/

/-- V2. -/
theorem test_hwrxd_V2 :
    got (exec (.hwrxd 0 0x0A) (arm0 (some 0) idle0))
      (fun t => (t.byteAt (.scr 0) 0, (t.periph 0).rxArm, (t.periph 0).rxDone)) =
      some (some 0x0A, none, true) := by decide

/-- V4: `PID >= NP`. -/
theorem test_hwrxd_V4 : got (exec (.hwrxd 6 0x0A) (arm0 (some 0) idle0)) (·.mem) = some [] := by decide

/-- V5, its second word. -/
theorem test_hwinj_V5 :
    got (exec (.hwinj 0 .rx 2) (injRx0 [.busy] idle0)) (fun t => (t.periph 0).injRx) = some [.busy, .error] := by decide

/-- V7: a no-op under `HwModel = free`. -/
theorem test_hwinj_V7 :
    got (exec (.hwinj 0 .tx 1) (free idle0)) (fun t => (t.periph 0).injTx) = some [] := by decide

/-- R218: a forced ok is consumed and lets the natural answer through. -/
theorem test_hwReceiveArm_forced_ok :
    got (exec (.hwReceiveArm 0 0) (injRx0 [.ok, .busy] idle0)) (fun t => ((t.periph 0).rxArm, (t.periph 0).injRx)) =
      some (some 0, [.busy]) := by decide

/-- V8. -/
theorem test_hwTransmitByte_V8 :
    got (exec (.hwTransmitByte 0 9) (busy0 1 idle0)) (fun t => (t.hwlog, (t.periph 0).txCur)) =
      some ([.transmitByte 0 9 .busy], 1) := by decide

/-- V9. -/
theorem test_hwIsReady_V9 :
    got (exec (.hwIsReady 0) (busy0 1 idle0)) (·.hwlog) = some [.isReady 0 false] := by decide

/-- V10. -/
theorem test_hwUnlock_V10 :
    got (exec (.hwUnlockAndAbortReceive 0) (arm0 (some 0) idle0)) (fun t => (t.periph 0).rxArm) = some none := by decide

/-! ### The step -/

/-- E10: an illegal word on the command port returns ILLEGAL. -/
theorem test_step_illegal_command :
    got (step (issue [.word 0x03000001] idle0)) (·.results) = some [0x05000000] := by decide

/-- X1: an event between W.4 and W.5 leaves the command where it stands. -/
theorem test_step_event_keeps_upc :
    got (step (turn [.interrupt 0x11000000] (busy0 0x41 (ch0 0 0 2 1 [] [0x41, 0x42] (.write5 0 0x42 1 1)))))
      (fun t => (t.upc, (t.chan 0).txt, t.hwlog)) =
      some (.write5 0 0x42 1 1, 2, [.transmitByte 0 0x42 .ok]) := by decide

/-- E11: a placed request word is run by the next step. -/
theorem test_placed_request :
    got (step (State.reset.withFetchWord 16 0x0201)) (·.hwlog) = some [.receiveArm 2 1 .ok] := by decide

/-- E1b: a placed command word is run by the next step. -/
theorem test_placed_command :
    got (step (State.reset.withFetchWord 32 0x01120100)) (·.upc) = some (.construct1 1 2 256) := by decide

/-- 10_state.md R40: reset memory is canonical. -/
theorem test_reset_memory : State.reset.mem.wf := by decide

/-! ### Well-booted runs: 70_reset_and_hazards.md R282 -/

/-- CONSTRUCT and BEGIN of channel 0 on `p1`, and of channel 1 on `p2`, from start to end. -/
def boot : List Happening :=
  [.starts (.construct 0 1 8), .builds 0 1 8, .starts (.construct 1 2 8), .builds 1 2 8, .starts (.beginCh 0),
    .starts (.beginCh 1)]

/-- The boot, a WRITE, a delivery and its event among the BEGINs, and READ afterwards. -/
theorem test_wellBooted_accepts :
    (wellBooted State.reset.par (boot ++ [.takes (.irqRx 1), .starts (.read 0)]) &&
    wellBooted State.reset.par [.starts (.construct 0 1 8), .takes (.hwinj 1 .rx 1), .builds 0 1 8,
      .starts (.write 0 0x41), .takes (.hwrxd 1 0x0A), .takes (.irqRx 1), .starts (.beginCh 0)]) = true := by decide

/-- An event before the first CONSTRUCT, one between the start and the end of the last, READ before the last BEGIN, a
channel never begun, a channel begun twice, a late CONSTRUCT, one peripheral for two channels, and a request word. -/
theorem test_wellBooted_rejects :
    [[.takes (.irqTx 1)] ++ boot,
      [.starts (.construct 0 1 8), .takes (.irqRx 1), .builds 0 1 8, .starts (.beginCh 0)],
      [.starts (.construct 0 1 8), .builds 0 1 8, .starts (.read 0), .starts (.beginCh 0)],
      [.starts (.construct 0 1 8), .builds 0 1 8, .takes (.irqRx 1)],
      boot ++ [.starts (.beginCh 0)], boot ++ [.starts (.read 0), .starts (.beginCh 0)],
      boot ++ [.starts (.construct 2 3 8)],
      [.starts (.construct 0 1 8), .builds 0 1 8, .starts (.construct 1 1 8), .builds 1 1 8, .starts (.beginCh 0),
        .starts (.beginCh 1)],
      boot ++ [.takes (.hwReceiveArm 1 0)]].all (fun l => !wellBooted State.reset.par l) = true := by decide

/-- A command is seen where it starts, CONSTRUCT where it ends too, an event where it is taken. -/
theorem test_happens :
    (issue [.word 0x03000000] idle0).happens = some (.starts (.read 0)) ∧
    (issue [.word 0x03000000] (at' (.read1 0) idle0)).happens = none ∧
    (at' (.construct1 1 2 8) idle0).happens = some (.builds 1 2 8) ∧
    (turn [.interrupt 0x10000000] (at' (.construct1 1 2 8) idle0)).happens = some (.takes (.irqRx 0)) := by decide

/-! ### The ghost TXSTATE: 42_interrupt_handlers.md R173 -/

/-- WRITE's step W.10 moves it to Transmitting, IRQTX on an empty buffer to Idle; it has no value under a free layer. -/
theorem test_txState :
    idle0.txState 0 = some .idle ∧
    got (exec (.write 0 0x41) (ch0 0 0 1 1 [] [0x41] (.write10 0 0x41 0 0 true 1 0 0x41))) (·.txState 0) =
      some (some .transmitting) ∧
    got (exec (.irqTx 0) (busy0 0x41 (ch0 0 0 1 1 [] [0x41] .idle))) (·.txState 0) = some (some .idle) ∧
    (free idle0).txState 0 = none := by decide

/-! ### Assembler text: E1b, E8b, the default capacity of 30_encoding.md R102, a comment and WRITEN -/

theorem test_asm_print :
    asm (.construct 1 2 256) = "CONSTRUCT ch1, p2, 256" ∧ asm (.hwinj 0 .tx 2) = "HWINJ p0, tx, error" := by decide

theorem test_asm_read :
    readLine "CONSTRUCT ch1, p2" = some (.op (.construct 1 2 256)) ∧
    readLine "WRITE ch1, 0x41 ; A" = some (.op (.write 1 0x41)) ∧
    readLine "WRITEN ch0, 1, 0xDE" = some (.writen 0 [1, 0xDE]) := by decide

/-! ### Witnesses: for each statement with hypotheses, states and operands that meet them, clause by clause -/

/-- The ends of the operand ranges. -/
theorem witness_DecodeOfEncodeIsTheInstruction :
    Instr.wellFormed (.construct 15 15 65535) = true ∧ Instr.wellFormed (.hwinj 15 .tx 2) = true ∧
    Instr.wellFormed (.hwTransmitByte 15 255) = true := by decide

theorem witness_OnlyEncodedWordsDecode :
    (Port.environment ≠ .hardware ∧ decodeOn .environment 0x21000102 = .ok (.hwinj 0 .tx 2)) ∧
    decodeRequest 0x0201 = .ok (.hwReceiveArm 2 1) := by decide

theorem witness_DecodedWordsHaveTheirFormatsShape : decodeWord 0x210F0102 = .ok (.hwinj 15 .tx 2) := by decide

theorem witness_IllegalWordsChangeNothing :
    idle0.faulted = false ∧
    (decodeOn .command 0x03000001 = .error .nonzeroField ∧
      (issue [.word 0x03000001] idle0).cmdQ = [.word 0x03000001] ∧ idle0.upc = .idle) ∧
    (decodeOn .interrupt 0x03000000 = .error .wrongPort ∧
      (turn [.interrupt 0x03000000] idle0).turns = [.interrupt 0x03000000]) ∧
    decodeOn .environment 0x21000003 = .error .reservedStatus ∧
      (turn [.environment 0x21000003] idle0).turns = [.environment 0x21000003] := by decide

theorem witness_StepRunsTheDecodedInstruction :
    idle0.faulted = false ∧
    (decodeOn .command 0x03000000 = .ok (.read 0) ∧
      (issue [.word 0x03000000] idle0).cmdQ = [.word 0x03000000] ∧ idle0.upc = .idle) ∧
    (at' (.read1 0) idle0).upc.command = some (.read 0) ∧
    (decodeOn .interrupt 0x10000000 = .ok (.irqRx 0) ∧
      (turn [.interrupt 0x10000000] idle0).turns = [.interrupt 0x10000000]) ∧
    (decodeOn .environment 0x2000000A = .ok (.hwrxd 0 0x0A) ∧
      (turn [.environment 0x2000000A] idle0).turns = [.environment 0x2000000A]) ∧
    decodeRequest 0x2500 = .ok (.hwIsReady 5) ∧ (turn [.hardware 0x2500] idle0).turns = [.hardware 0x2500] := by
  decide

/-- The two forms of a turn of the normal context, for the statements that assume one. -/
theorem witness_NormalTurn :
    NormalTurn idle0 [] ∧ NormalTurn (turn [.normal, .interrupt 0x10000000] idle0) [.interrupt 0x10000000] :=
  ⟨.inl ⟨rfl, rfl⟩, .inr rfl⟩

/-- The two forms of an answer list that forces no failure, for the statements that assume one. -/
theorem witness_NoFailureForced : NoFailureForced [] [] ∧ NoFailureForced [.ok, .busy] [.busy] :=
  ⟨.inl ⟨rfl, rfl⟩, .inr rfl⟩

theorem witness_PlacedWordIsRunByTheNextStep :
    idle0.faulted = false ∧ decodeTableWord 32 0x03000000 = some (.read 0) ∧
    decodeTableWord 32 0x10000000 = some (.irqRx 0) ∧ decodeTableWord 32 0x2000000A = some (.hwrxd 0 0x0A) ∧
    decodeTableWord 16 0x2500 = some (.hwIsReady 5) := by decide

theorem witness_CommandsStartAtTheirFirstStep : idle0.upc = .idle := by decide

/-- `NCH = 4` and slot 4, and an empty slot, for each of the seven commands. -/
theorem witness_CommandsOnNoChannelAreRefused :
    (four idle0).par.nch ≤ (4 : Slot).val ∧ (idle0.chan 5).valid = false ∧
    (at' (.begin1 4) (four idle0)).upc = .begin1 4 ∧ (at' (.read1 5) idle0).upc = .read1 5 ∧
    (at' (.write1 5 0x41) idle0).upc = .write1 5 0x41 ∧ (at' (.avail1 5) idle0).upc = .avail1 5 ∧
    (at' (.rcount1 5) idle0).upc = .rcount1 5 ∧ (at' (.flushRx1 5) idle0).upc = .flushRx1 5 ∧
    (at' (.flushTx1 4) (four idle0)).upc = .flushTx1 4 := by decide

/-- The last slot, identity and the smallest capacity; then each of the four refusals. -/
theorem witness_ConstructBuildsTheChannelOrIsRejected :
    ((15 : Slot).val < idle0.par.nch ∧ (idle0.chan 15).valid = false ∧ (5 : Pid).val < idle0.par.np ∧ (1 : Idx) ≠ 0) ∧
    (four idle0).par.nch ≤ (4 : Slot).val ∧ (idle0.chan 0).valid = true ∧ idle0.par.np ≤ (6 : Pid).val := by decide

theorem witness_BeginArmsTheScratchByte :
    let s := at' (.begin1 0) idle0
    (s.upc = .begin1 0 ∧ (0 : Slot).val < s.par.nch ∧ (s.chan 0).valid = true ∧ (s.chan 0).handle.val < s.par.np ∧
      s.par.hwModel = .reference ∧ (s.periph (s.chan 0).handle).rxArm = none ∧
      NoFailureForced (s.periph (s.chan 0).handle).injRx []) ∧
    NoFailureForced ((injRx0 [.ok] s).periph 0).injRx [] :=
  ⟨⟨by decide, by decide, by decide, by decide, by decide, by decide, .inl ⟨rfl, rfl⟩⟩, .inr rfl⟩

theorem witness_BeginReturnsOkWhateverTheLayerAnswers :
    let s := at' (.begin1 0) idle0
    let t := injRx0 [.busy] s
    (s.upc = .begin1 0 ∧ (0 : Slot).val < s.par.nch ∧ (s.chan 0).valid = true) ∧ (free s).par.hwModel = .free ∧
    (t.periph (t.chan 0).handle).injRx = [.busy] ∧ HwStatus.busy ≠ .ok := by decide

theorem witness_DoubleArmFaultsTheRun :
    (let s := { idle0 with envFault := true }; s.par.hwModel = .reference ∧ s.envFault = true) ∧
    (let s := arm0 (some 0) (at' (.begin1 0) (scr0 40 idle0))
     (0 : Pid).val < s.par.np ∧ s.par.hwModel = .reference ∧ (s.periph 0).rxArm ≠ none ∧
      (s.upc = .begin1 0 ∧ (0 : Slot).val < s.par.nch ∧ (s.chan 0).valid = true ∧ (s.chan 0).handle = 0) ∧
      s.regAt 0 = some 0 ∧ s.bufOk ⟨0, .rx⟩ = true ∧ s.byteAt (.scr 0) 0 = some 40) ∧
    NoFailureForced ((arm0 (some 0) idle0).periph 0).injRx [] ∧
    NoFailureForced ((injRx0 [.ok] (arm0 (some 0) idle0)).periph 0).injRx [] ∧
    (5 : Pid).val < idle0.par.np :=
  ⟨by decide, by decide, .inl ⟨rfl, rfl⟩, .inr rfl, by decide⟩

/-- A buffer read at its last index. -/
theorem witness_ReadFollowsItsStepList :
    let s := ch0 0 3 0 0 [10, 20, 30, 40] [] .idle
    s.bufOk ⟨0, .rx⟩ = true ∧ ((0 : Slot).val < s.par.nch ∧ (s.chan 0).valid = true) ∧
    (at' (.read2 0 3) s).upc = .read2 0 3 ∧ (3 : Idx) = (s.chan 0).rxt ∧ (0 : Idx) ≠ (s.chan 0).rxt ∧
    ((at' (.read3 0 0 3) s).upc = .read3 0 0 3 ∧ (3 : Idx).toNat < (s.chan 0).cap.toNat ∧
      s.byteAt (.rxmem 0) 3 = some 40) ∧
    (at' (.read4 0 0 3 40) s).upc = .read4 0 0 3 40 := by decide

theorem witness_ReadReturnsTheOldestByteOrEmpty :
    (let s := ch0 0 3 0 0 [10, 20, 30, 40] [] .idle
     s.upc = .idle ∧ (0 : Slot).val < s.par.nch ∧ (s.chan 0).valid = true ∧ s.bufOk ⟨0, .rx⟩ = true ∧
      (s.chan 0).rxh ≠ (s.chan 0).rxt ∧ s.byteAt (.rxmem 0) (s.chan 0).rxt = some 40) ∧
    let s := ch0 3 3 0 0 [10, 20, 30, 40] [] .idle
    s.upc = .idle ∧ (s.chan 0).valid = true ∧ s.bufOk ⟨0, .rx⟩ = true ∧ (s.chan 0).rxh = (s.chan 0).rxt := by decide

theorem witness_AvailTellsWhetherTheBufferIsNonEmpty :
    let s := ch0 0 3 0 0 [10, 20, 30, 40] [] .idle
    s.bufOk ⟨0, .rx⟩ = true ∧ s.upc = .idle ∧ (0 : Slot).val < s.par.nch ∧ (s.chan 0).valid = true ∧
    (at' (.avail1 0) s).upc = .avail1 0 ∧ (at' (.avail2 0 0) s).upc = .avail2 0 0 := by decide

theorem witness_RcountReturnsTheOccupancy :
    let s := ch0 0 3 0 0 [10, 20, 30, 40] [] .idle
    s.bufOk ⟨0, .rx⟩ = true ∧ s.upc = .idle ∧ (0 : Slot).val < s.par.nch ∧ (s.chan 0).valid = true ∧
    (at' (.rcount1 0) s).upc = .rcount1 0 ∧
    ((at' (.rcount2 0 3) s).upc = .rcount2 0 3 ∧ (3 : Idx).toNat < (s.chan 0).cap.toNat) := by decide

theorem witness_FlushRxStoresZeroTwiceInFlushOrder :
    let s := tailFirst (ch0 3 1 0 0 [10, 20, 30] [] .idle)
    s.bufOk ⟨0, .rx⟩ = true ∧ s.upc = .idle ∧ (0 : Slot).val < s.par.nch ∧ (s.chan 0).valid = true ∧
    (at' (.flushRx1 0) s).upc = .flushRx1 0 ∧ (at' (.flushRx2 0) s).upc = .flushRx2 0 := by decide

theorem witness_FlushTxStoresZeroTwiceInFlushOrder :
    let s := ch0 0 0 2 3 [] [1, 2, 3, 4] .idle
    s.bufOk ⟨0, .tx⟩ = true ∧ s.upc = .idle ∧ (0 : Slot).val < s.par.nch ∧ (s.chan 0).valid = true ∧
    (at' (.flushTx1 0) s).upc = .flushTx1 0 ∧ (at' (.flushTx2 0) s).upc = .flushTx2 0 := by decide

/-- The push at the last index, and its refusal. -/
theorem witness_WritePushFollowsItsStepList :
    let s := ch0 0 0 3 1 [] [1, 2, 3] .idle
    (s.bufOk ⟨0, .tx⟩ = true ∧ (0 : Slot).val < s.par.nch ∧ (s.chan 0).valid = true ∧
      (at' (.write1 0 4) s).upc = .write1 0 4) ∧
    ((at' (.write2 0 4 0) s).upc = .write2 0 4 0 ∧
      ((0 : Idx).toNat + 1) % (s.chan 0).cap.toNat = (s.chan 0).txt.toNat) ∧
    ((3 : Idx).toNat + 1) % (s.chan 0).cap.toNat ≠ (s.chan 0).txt.toNat ∧
    ((at' (.write3 0 4 3 1) s).upc = .write3 0 4 3 1 ∧ (3 : Idx).toNat < (s.chan 0).cap.toNat) ∧
    (at' (.write4 0 4 3 1) s).upc = .write4 0 4 3 1 := by decide

theorem witness_WriteKickOffFollowsItsStepList :
    let s := ch0 0 0 0 3 [] [1, 2, 3, 4] .idle
    (hwIsReady ((busy0 1 s).chan 0).handle (busy0 1 s)).1 = false ∧ (hwIsReady (s.chan 0).handle s).1 = true ∧
    s.bufOk ⟨0, .tx⟩ = true ∧ (3 : Idx) = (s.chan 0).txt ∧ (0 : Idx) ≠ (s.chan 0).txt ∧
    ((3 : Idx).toNat < (s.chan 0).cap.toNat ∧ s.byteAt (.txmem 0) 3 = some 4) ∧
    (at' (.write10 0 4 3 3 true 0 3 4) s).upc = .write10 0 4 3 3 true 0 3 4 := by decide

theorem witness_WriteOnAFullBufferReturnsFull :
    let s := ch0 0 0 3 0 [] [1, 2, 3] .idle
    s.upc = .idle ∧ (0 : Slot).val < s.par.nch ∧ (s.chan 0).valid = true ∧ s.bufOk ⟨0, .tx⟩ = true ∧
    ((s.chan 0).txh.toNat + 1) % (s.chan 0).cap.toNat = (s.chan 0).txt.toNat := by decide

theorem witness_WriteQueuesTheByteWhileBusy :
    let s := busy0 1 (ch0 0 0 3 1 [] [1, 2, 3] .idle)
    s.upc = .idle ∧ (0 : Slot).val < s.par.nch ∧ (s.chan 0).valid = true ∧ s.bufOk ⟨0, .tx⟩ = true ∧
    ((s.chan 0).txh.toNat + 1) % (s.chan 0).cap.toNat ≠ (s.chan 0).txt.toNat ∧ s.par.hwModel = .reference ∧
    (s.chan 0).handle.val < s.par.np ∧ (s.periph (s.chan 0).handle).txBusy = true := by decide

/-- On an empty buffer and on one that holds a byte (W1, W5). -/
theorem witness_WriteSubmitsTheOldestByteWhenIdle :
    (let s := idle0
     s.upc = .idle ∧ (0 : Slot).val < s.par.nch ∧ (s.chan 0).valid = true ∧ s.bufOk ⟨0, .tx⟩ = true ∧
      ((s.chan 0).txh.toNat + 1) % (s.chan 0).cap.toNat ≠ (s.chan 0).txt.toNat ∧ s.par.hwModel = .reference ∧
      (s.chan 0).handle.val < s.par.np ∧ (s.periph (s.chan 0).handle).txBusy = false ∧
      (s.periph (s.chan 0).handle).injTx = [] ∧ (s.chan 0).txh = (s.chan 0).txt) ∧
    let s := ch0 0 0 2 1 [] [1, 2] .idle
    s.bufOk ⟨0, .tx⟩ = true ∧ ((s.chan 0).txh.toNat + 1) % (s.chan 0).cap.toNat ≠ (s.chan 0).txt.toNat ∧
    (s.chan 0).txh ≠ (s.chan 0).txt ∧ s.byteAt (.txmem 0) (s.chan 0).txt = some 2 := by decide

theorem witness_WritenIssuesUntilTheFirstFailure :
    (idle0.faulted = false ∧ idle0.upc = .idle) ∧
    (issue [.writen 0 [] 0] idle0).cmdQ = [.writen 0 [] 0] ∧
    (issue [.writen 0 [5] 0] idle0).cmdQ = [.writen 0 [5] 0] ∧
    (issue [.writenAsked 0 [5] 3] idle0).cmdQ = [.writenAsked 0 [5] 3] ∧
    (issue [.writenAsked 0 [] 3] idle0).cmdQ = [.writenAsked 0 [] 3] ∧
    (0x00000000 : Word) >>> 24 = 0 ∧ (0x01000000 : Word) >>> 24 ≠ 0 := by decide

/-- With room at the last index (I3), and full (I2). -/
theorem witness_IrqRxPushesTheScratchByte :
    (let s := scr0 40 (ch0 3 1 0 0 [10, 20, 30] [] .idle)
     (0 : Pid).val < s.par.np ∧ s.regAt 0 = some 0 ∧ s.bufOk ⟨0, .rx⟩ = true ∧ s.byteAt (.scr 0) 0 = some 40 ∧
      ((s.chan 0).rxh.toNat + 1) % (s.chan 0).cap.toNat ≠ (s.chan 0).rxt.toNat) ∧
    let s := scr0 40 (ch0 3 0 0 0 [10, 20, 30] [] .idle)
    s.bufOk ⟨0, .rx⟩ = true ∧ s.byteAt (.scr 0) 0 = some 40 ∧
    ((s.chan 0).rxh.toNat + 1) % (s.chan 0).cap.toNat = (s.chan 0).rxt.toNat := by decide

theorem witness_IrqRxRearmsUnconditionally :
    let s := done0 (scr0 40 (ch0 3 0 0 0 [10, 20, 30] [] .idle))
    ((0 : Pid).val < s.par.np ∧ s.regAt 0 = some 0 ∧ (s.chan 0).handle = 0 ∧ s.bufOk ⟨0, .rx⟩ = true ∧
      s.byteAt (.scr 0) 0 = some 40 ∧ s.par.hwModel = .reference ∧ (s.periph 0).rxArm = none) ∧
    NoFailureForced (s.periph 0).injRx [] ∧ NoFailureForced ((injRx0 [.ok, .busy] s).periph 0).injRx [.busy] :=
  ⟨by decide, .inl ⟨rfl, rfl⟩, .inr rfl⟩

/-- I4, the retry that meets a forced ok, and I6. -/
theorem witness_FailedRearmIsRetriedExactlyOnce :
    (let s := injRx0 [.busy] (done0 (scr0 0x31 idle0))
     (0 : Pid).val < s.par.np ∧ s.regAt 0 = some 0 ∧ (s.chan 0).handle = 0 ∧ s.bufOk ⟨0, .rx⟩ = true ∧
      s.byteAt (.scr 0) 0 = some 0x31 ∧ s.par.hwModel = .reference ∧ (s.periph 0).injRx = [.busy] ∧
      HwStatus.busy ≠ .ok) ∧
    (((injRx0 [.busy, .ok] (done0 (scr0 0x31 idle0))).periph 0).injRx = [.busy, .ok] ∧
      NoFailureForced [.ok] []) ∧
    ((injRx0 [.busy, .error] (done0 (scr0 0x31 idle0))).periph 0).injRx = [.busy, .error] ∧ HwStatus.error ≠ .ok :=
  ⟨by decide, ⟨rfl, .inr rfl⟩, by decide⟩

/-- An arm answered ok, a double arm, and a failed first arm. -/
theorem witness_IrqRxMakesOneOfTwoCallSequences :
    let s := done0 (scr0 40 idle0)
    (s.envFault = false ∧ (0 : Pid).val < s.par.np ∧ s.regAt 0 = some 0) ∧
    (∃ t, exec (.irqRx 0) s = .next t) ∧ (∃ t, exec (.irqRx 0) (arm0 (some 0) s) = .next t) ∧
    ∃ t, exec (.irqRx 0) (injRx0 [.busy] s) = .next t :=
  ⟨by decide, next_of_got (by decide), next_of_got (by decide), next_of_got (by decide)⟩

theorem witness_IrqTxPopsTheOldestByte :
    (let s := ch0 0 0 0 3 [] [1, 2, 3, 4] .idle
     (0 : Pid).val < s.par.np ∧ s.regAt 0 = some 0 ∧ s.bufOk ⟨0, .tx⟩ = true ∧ (s.chan 0).txh ≠ (s.chan 0).txt ∧
      s.byteAt (.txmem 0) (s.chan 0).txt = some 4) ∧
    let s := ch0 0 0 3 3 [] [1, 2, 3, 4] .idle
    s.bufOk ⟨0, .tx⟩ = true ∧ (s.chan 0).txh = (s.chan 0).txt := by decide

/-- A byte in flight and none, a forced ok and a forced failure (T4), a byte to pop and none. -/
theorem witness_IrqTxCompletesTheByteInFlight :
    (let s := busy0 3 (ch0 0 0 0 3 [] [1, 2, 3, 4] .idle)
     (0 : Pid).val < s.par.np ∧ s.regAt 0 = some 0 ∧ (s.chan 0).handle = 0 ∧ s.bufOk ⟨0, .tx⟩ = true ∧
      s.par.hwModel = .reference ∧ (s.periph 0).txBusy = true ∧ (s.chan 0).txh ≠ (s.chan 0).txt ∧
      s.byteAt (.txmem 0) (s.chan 0).txt = some 4) ∧
    ((busy0 3 idle0).periph 0).injTx = [] ∧ NoFailureForced [.ok] [] ∧ (idle0.periph 0).txBusy = false ∧
    (((injTx0 [.busy] (busy0 3 idle0)).periph 0).injTx = [.busy] ∧ HwStatus.busy ≠ .ok) ∧
    let s := busy0 0x41 (ch0 0 0 1 1 [] [0x41] .idle)
    s.bufOk ⟨0, .tx⟩ = true ∧ (s.periph 0).txBusy = true ∧ (s.chan 0).txh = (s.chan 0).txt :=
  ⟨by decide, by decide, .inr rfl, by decide, by decide, by decide⟩

/-- The first identity without a channel, and the first beyond `NP`. -/
theorem witness_UnregisteredEventsAreIgnored : idle0.par.np ≤ (6 : Pid).val ∧ idle0.regAt 1 = none := by decide

/-- Where such a read faults, for each of the four reads; and where it has any value, for the same four. -/
theorem witness_UnwrittenBytesFaultOrHoldAnyValue :
    [faulting, id].all (fun f =>
      (let s := f idle0
       (0 : Pid).val < s.par.np && s.regAt 0 == some 0 && s.bufOk ⟨0, .rx⟩ && !s.written (.scr 0) 0) &&
      (let s := f (ch0 0 3 0 0 [10, 20, 30] [] (.read3 0 0 3))
       s.upc == .read3 0 0 3 && s.bufOk ⟨0, .rx⟩ && (3 : Idx).toNat < (s.chan 0).cap.toNat &&
        !s.written (.rxmem 0) 3) &&
      (let s := f (ch0 0 0 0 3 [] [1, 2, 3] (.write8 0 9 0 3 true 0 3))
       s.upc == .write8 0 9 0 3 true 0 3 && s.bufOk ⟨0, .tx⟩ && (3 : Idx).toNat < (s.chan 0).cap.toNat &&
        !s.written (.txmem 0) 3) &&
      let s := f (ch0 0 0 0 1 [] [1] .idle)
      s.bufOk ⟨0, .tx⟩ && (s.chan 0).txh != (s.chan 0).txt && !s.written (.txmem 0) (s.chan 0).txt) = true ∧
    (∀ s, (faulting s).par.unwritten = .fault) ∧
    ∀ a b c d rx tx u, (ch0 a b c d rx tx u).par.unwritten = .anyValue :=
  ⟨by decide, fun _ => rfl, fun _ _ _ _ _ _ _ => rfl⟩

theorem witness_HwrxdDeliversIntoTheArmedSlot :
    (let s := arm0 (some 15) idle0; (0 : Pid).val < s.par.np ∧ (s.periph 0).rxArm = some 15) ∧
    idle0.par.np ≤ (6 : Pid).val ∧ (idle0.periph 5).rxArm = none := by decide

theorem witness_HwinjQueuesAForcedAnswer :
    (let st : BitVec 2 := 2
     let answer := HwStatus.error
     st = 0 ∧ answer = .ok ∨ st = 1 ∧ answer = .busy ∨ st = 2 ∧ answer = .error) ∧
    ((5 : Pid).val < idle0.par.np ∧ idle0.par.hwModel = .reference) ∧
    idle0.par.np ≤ (6 : Pid).val ∧ (free idle0).par.hwModel = .free := by decide

theorem witness_ArmRequestAnswersAsTheReference :
    ((5 : Pid).val < idle0.par.np ∧ idle0.par.hwModel = .reference) ∧
    (((injRx0 [.error, .ok] idle0).periph 0).injRx = [.error, .ok] ∧ HwStatus.error ≠ .ok) ∧
    (((injRx0 [.ok] idle0).periph 0).injRx = [.ok] ∧ ((injRx0 [.ok] idle0).periph 0).rxArm = none) ∧
    (idle0.periph 5).injRx = [] ∧ (idle0.periph 5).rxArm = none := by decide

theorem witness_TransmitRequestAnswersAsTheReference :
    ((5 : Pid).val < idle0.par.np ∧ idle0.par.hwModel = .reference) ∧
    (((injTx0 [.busy] idle0).periph 0).injTx = [.busy] ∧ HwStatus.busy ≠ .ok) ∧
    (((busy0 1 idle0).periph 0).injTx = [] ∧ ((busy0 1 idle0).periph 0).txBusy = true) ∧
    ((injTx0 [.ok] idle0).periph 0).injTx = [.ok] ∧ ((injTx0 [.ok] idle0).periph 0).txBusy = false := by decide

theorem witness_ReadyAndUnlockRequestsAnswerAsTheReference :
    (5 : Pid).val < idle0.par.np ∧ idle0.par.hwModel = .reference := by decide

theorem witness_EveryRequestCompletesUnderAFreeLayer :
    (5 : Pid).val < (free idle0).par.np ∧ (free idle0).par.hwModel = .free := by decide

theorem witness_RequestsForAbsentPeripheralsChangeNothing : idle0.par.np ≤ (6 : Pid).val := by decide

theorem witness_EmptyAndFullExcludeEachOther :
    ((65534 : Idx).toNat < (65535 : Idx).toNat ∧ 2 ≤ (65535 : Idx).toNat) ∧
    (0 : Idx).toNat < (1 : Idx).toNat ∧ (1 : Idx).toNat = 1 := by decide

theorem witness_OccupancyIsBetweenEmptyAndFull :
    (0 : Idx).toNat < (65535 : Idx).toNat ∧ (65534 : Idx).toNat < (65535 : Idx).toNat := by decide

/-- Room for one byte more; a full buffer; a byte to pop at the last index; an empty buffer. -/
theorem witness_PushAppendsAndPopTakesTheOldest :
    (let s := ch0 0 0 1 3 [] [1, 2, 3, 4] .idle
     s.bufOk ⟨0, .tx⟩ = true ∧ (contents ⟨0, .tx⟩ s).length + 1 < (s.cap 0).toNat ∧
      contents ⟨0, .tx⟩ s = [some 4, some 1]) ∧
    (let s := ch0 0 0 2 3 [] [1, 2, 3, 4] .idle
     s.bufOk ⟨0, .tx⟩ = true ∧ ¬(contents ⟨0, .tx⟩ s).length + 1 < (s.cap 0).toNat) ∧
    contents ⟨0, .tx⟩ (ch0 0 0 3 3 [] [1, 2, 3, 4] .idle) = [] := by decide

/-- The source's example scenario (S1), to its sixth operation. -/
theorem witness_BuffersAreFifoQueues :
    idle0.bufOk ⟨0, .rx⟩ = true ∧
    ∃ t, runBuf ⟨0, .rx⟩ [.push 10, .push 20, .push 30, .push 40, .pop, .push 40] idle0 =
      .ok ([10, 20, 30, 40], [10], t) :=
  ⟨by decide, _, rfl⟩

theorem witness_CommandsRunTheBufferPrimitives :
    (let s := ch0 0 3 0 0 [10, 20, 30, 40] [] .idle
     s.upc = .idle ∧ s.selects 0 = true ∧ (pop ⟨0, .rx⟩ s).toOption.map (·.1) = some (some 40)) ∧
    (idle0.selects 0 = true ∧ (pop ⟨0, .rx⟩ idle0).toOption.map (·.1) = some none) ∧
    (push ⟨0, .tx⟩ 5 idle0).toOption.map (·.1) = some true ∧
    (push ⟨0, .tx⟩ 5 (ch0 0 0 3 0 [] [1, 2, 3] .idle)).toOption.map (·.1) = some false := by decide

/-- For the statements about any next state: a step of READ that changes an index. -/
theorem witness_OnlyTheseOperationsWriteEachIndex :
    ∃ t, exec (.read 0) (ch0 0 3 0 0 [10, 20, 30, 40] [] (.read4 0 0 3 40)) = .next t ∧ (t.chan 0).rxt ≠ 3 :=
  ⟨_, rfl, by decide⟩

theorem witness_OnlyConstructWritesTheControlRegisters :
    ∃ t, exec (.construct 1 0 8) (ch0 0 0 0 0 [] [] (.construct1 1 0 8)) = .next t ∧ t.regAt 0 ≠ some 0 ∧
      (t.chan 1).valid = true :=
  ⟨_, rfl, by decide⟩

theorem witness_OnlyTheseOperationsWriteStorage :
    (∃ t, exec (.hwrxd 0 7) (arm0 (some 0) (scr0 5 idle0)) = .next t ∧
      t.byteAt (.scr 0) 0 ≠ (scr0 5 idle0).byteAt (.scr 0) 0) ∧
    ∃ t, exec (.write 0 4) (ch0 0 0 3 1 [] [1, 2, 3, 9] (.write3 0 4 3 1)) = .next t ∧
      t.byteAt (.txmem 0) 3 = some 4 ∧ (ch0 0 0 3 1 [] [1, 2, 3, 9] .idle).byteAt (.txmem 0) 3 = some 9 :=
  ⟨⟨_, rfl, by decide⟩, _, rfl, by decide⟩

theorem witness_EventsLeaveThePreemptedCommandAlone :
    Instr.port (.irqTx 0) ≠ .command ∧
    ∃ t, exec (.irqTx 0) (busy0 0x41 (ch0 0 0 2 1 [] [0x41, 0x42] (.write5 0 0x42 1 1))) = .next t :=
  ⟨by decide, _, rfl⟩

theorem witness_DispatchTouchesOnlyTheRegisteredChannel :
    let s := busy0 3 (ch0 0 0 0 3 [] [1, 2, 3, 4] .idle)
    s.regAt 0 = some 0 ∧ (15 : Slot) ≠ 0 ∧ ∃ t, exec (.irqTx 0) s = .next t :=
  ⟨by decide, by decide, _, rfl⟩

/-- X7, both events on one channel. -/
theorem witness_ReceiveAndTransmitEventsCommute :
    let s := busy0 1 (done0 (scr0 30 (ch0 2 0 3 1 [10, 20] [1, 2, 3] .idle)))
    (∃ a, exec (.irqRx 0) s = .next a) ∧ ∃ b, exec (.irqTx 0) s = .next b :=
  ⟨⟨_, rfl⟩, _, rfl⟩

/-- WRITE in its step W.3. -/
def midWrite : State := ch0 0 0 3 1 [] [] (.write3 0 4 3 1)

theorem witness_EveryStepKeepsMemoryCanonical : midWrite.mem.wf ∧ ∃ t, step midWrite = .next t :=
  ⟨by decide, _, rfl⟩

theorem witness_ResetMeetsTheInvariant : Config.Params.wf ⟨16, 1, .tailFirst, .free, .fault⟩ := by decide

theorem midWrite_written (sp : Space) (i : Idx) : midWrite.written sp i = false := rfl

theorem midWrite_inv : Inv midWrite where
  par := by decide
  mem := by decide
  chan := by intro c; revert c; decide
  reg := by intro k c; revert k c; decide
  upc := by
    intro c h
    obtain rfl : (0 : Slot) = c := Option.some.inj h
    refine ⟨rfl, fun x hx => ?_⟩
    have hx : x = 3 ∨ x = 1 := by simpa [midWrite, ch0, Upc.indices] using hx
    rcases hx with rfl | rfl <;> decide
  storage := by
    intro c i h
    simp only [midWrite_written, Bool.false_eq_true, or_self] at h

theorem witness_EveryStepKeepsTheInvariant : Inv midWrite ∧ ∃ t, step midWrite = .next t :=
  ⟨midWrite_inv, _, rfl⟩

theorem witness_NoStepMeetsAnIndexOutOfRange : Inv midWrite := midWrite_inv

theorem witness_CommandsEndWithinTenMicroSteps :
    Inv midWrite ∧ midWrite.faulted = false ∧ midWrite.upc ≠ .idle ∧ midWrite.turns = [] :=
  ⟨midWrite_inv, by decide⟩

theorem witness_SurfacingConditionsAreTheStatusesReturned :
    (∃ t, exec (.write 0 5) (ch0 0 0 3 0 [] [1, 2, 3] (.write2 0 5 3)) = .next t) ∧
    ∃ t, exec (.read 0) (ch0 2 2 0 0 [10, 20] [] (.read2 0 2)) = .next t :=
  ⟨⟨_, rfl⟩, _, rfl⟩

/-- H4 under `tail_first`. -/
theorem witness_FlushTxPreemptedLooksFull :
    let s := tailFirst (busy0 1 (ch0 0 0 3 0 [] [1, 2, 3] (.flushTx2 0)))
    s.upc = .flushTx2 0 ∧ s.par.flushOrder = .tailFirst ∧ (0 : Pid).val < s.par.np ∧ s.regAt 0 = some 0 ∧
    s.bufOk ⟨0, .tx⟩ = true ∧ 2 ≤ (s.chan 0).cap.toNat ∧ (s.chan 0).txt = 0 ∧ (s.chan 0).txh ≠ 0 ∧
    s.byteAt (.txmem 0) 0 = some 1 := by decide

/-- H7. -/
theorem witness_WritePreemptedInItsPopSubmitsTwice :
    let s := free (ch0 0 0 3 0 [] [1, 2, 3] (.write8 0 3 2 0 true 3 0))
    s.upc = .write8 0 3 2 0 true 3 0 ∧ (0 : Pid).val < s.par.np ∧ s.regAt 0 = some 0 ∧
    s.bufOk ⟨0, .tx⟩ = true ∧ (0 : Idx) = (s.chan 0).txt ∧ (s.chan 0).txh ≠ (s.chan 0).txt ∧
    s.byteAt (.txmem 0) 0 = some 1 := by decide

end Sys2Proof.Machine.Tests
end

