-- ==== Sys2Proof/Proofs/StepDecoded.lean ====
section
/-! What a turn runs, one equation per port, and the obligation that a step runs the decoded instruction. -/

namespace Sys2Proof.Machine

/-! ### Words that decode -/

theorem commandWord_of_decode {w : Word} {i : Instr} (h : decodeOn .command w = .ok i) (s : State) :
    commandWord w s = exec i s := by
  simp only [commandWord, h]

theorem eventWord_of_decode {p : Port} {w : Word} {i : Instr} (h : decodeOn p w = .ok i) (s : State) :
    eventWord p w s = exec i s := by
  simp only [eventWord, h]

theorem requestWord_of_decode {q : Request} {i : Instr} (h : decodeRequest q = .ok i) (s : State) :
    requestWord q s = exec i s := by
  simp only [requestWord, h]

/-! ### The normal context's turn -/

theorem normalTurn_of_running {s : State} {i : Instr} (h : s.upc.command = some i) : normalTurn s = exec i s := by
  simp only [normalTurn, h]

theorem normalTurn_of_word {s : State} {w : Word} {q : List Issue} (hu : s.upc = .idle) (hq : s.cmdQ = .word w :: q) :
    normalTurn s = commandWord w { s with cmdQ := q } := by
  simp only [normalTurn, Upc.command_eq_none.mpr hu, issueNext, hq]

/-! ### The turn a step takes -/

/-- With no turn listed, dropping "the turn" leaves the state as it is; so both forms of a normal turn are one. -/
theorem step_of_normalTurn {s : State} {ts : List Turn} (hf : s.faulted = false) (h : NormalTurn s ts) :
    step s = normalTurn { s with turns := ts } := by
  rw [step_of_not_faulted hf]
  rcases h with ⟨hs, rfl⟩ | hs
  · have same : { s with turns := [] } = s := by rw [← hs]
    rw [same]
    simp only [takeTurn, hs]
  · simp only [takeTurn, hs]

theorem step_of_interrupt {s : State} {w : Word} {ts : List Turn} (hf : s.faulted = false)
    (h : s.turns = .interrupt w :: ts) : step s = eventWord .interrupt w { s with turns := ts } := by
  rw [step_of_not_faulted hf]
  simp only [takeTurn, h]

theorem step_of_environment {s : State} {w : Word} {ts : List Turn} (hf : s.faulted = false)
    (h : s.turns = .environment w :: ts) : step s = eventWord .environment w { s with turns := ts } := by
  rw [step_of_not_faulted hf]
  simp only [takeTurn, h]

theorem step_of_hardware {s : State} {q : Request} {ts : List Turn} (hf : s.faulted = false)
    (h : s.turns = .hardware q :: ts) : step s = requestWord q { s with turns := ts } := by
  rw [step_of_not_faulted hf]
  simp only [takeTurn, h]

/-- Settles O7: the turn is the one at the head of the list, and each kind of turn runs what its word decodes to. -/
theorem stepRunsTheDecodedInstruction : Obligations.StepRunsTheDecodedInstruction := by
  intro s i ts hf
  refine ⟨fun w q hw hu hq ht => ?command, fun hc ht => ?running, fun w hw ht => ?interrupt,
    fun w hw ht => ?environment, fun q hq ht => ?hardware⟩
  case command =>
    rw [step_of_normalTurn hf ht, normalTurn_of_word (s := { s with turns := ts }) hu hq, commandWord_of_decode hw]
  case running => rw [step_of_normalTurn hf ht, normalTurn_of_running (s := { s with turns := ts }) hc]
  case interrupt => rw [step_of_interrupt hf ht, eventWord_of_decode hw]
  case environment => rw [step_of_environment hf ht, eventWord_of_decode hw]
  case hardware => rw [step_of_hardware hf ht, requestWord_of_decode hq]

end Sys2Proof.Machine
end

