-- ==== Sys2Proof/Proofs/Invariant.lean ====
section
/-! The invariant: what a valid slot keeps under every instruction, one lemma per clause of `Inv`, and the obligations
that reset meets it and that every step keeps it. -/

namespace Sys2Proof.Machine

/-! ### What the invariant says of a command in progress, of a registry entry and of a valid slot -/

theorem Inv.valid_of_selected {s : State} {c : Slot} (h : Inv s) (hc : s.upc.selected = some c) :
    (s.chan c).valid = true :=
  (h.upc c hc).1

theorem Inv.valid_of_lookup {s : State} {k : Pid} {c : Slot} (h : Inv s) (hk : lookup k s = some c) :
    (s.chan c).valid = true := by
  obtain ⟨_, hreg⟩ := lookup_eq_some.mp hk
  obtain ⟨_, hv, _⟩ := h.reg k c hreg
  exact hv

theorem Inv.bufOk_of_valid {s : State} {b : Buf} (h : Inv s) (hv : (s.chan b.c).valid = true) :
    s.bufOk b = true := by
  obtain ⟨_, _, hrx, htx⟩ := h.chan b.c hv
  rcases b with ⟨c, side⟩
  cases side
  · exact hrx
  · exact htx

/-- The invariant speaks of the parameters and the block only. -/
theorem Inv.of_sameMachine {s u : State} (h : Inv s) (e : SameMachine s u) : Inv u where
  par := e.par ▸ h.par
  mem := e.block.mem ▸ h.mem
  chan := by
    intro c hv
    rw [chan_congr e.block.chans] at hv ⊢
    rw [e.par, bufOk_congr e.block.chans, bufOk_congr e.block.chans]
    exact h.chan c hv
  reg := by
    intro k c hk
    rw [regAt_congr e.block.reg] at hk
    rw [e.par, chan_congr e.block.chans]
    exact h.reg k c hk
  upc := by
    intro c hc
    rw [e.block.upc] at hc ⊢
    rw [cap_chan, chan_congr e.block.chans]
    exact h.upc c hc
  storage := by
    intro c i hw
    rw [written_congr e.block.mem, written_congr e.block.mem] at hw
    rw [cap_chan, chan_congr e.block.chans]
    exact h.storage c i hw

/-! ### Reset -/

/-- No storage is written, no slot valid and no entry registered at reset, so each clause has nothing to say of. -/
theorem inv_resetWith {p : Config.Params} (hp : p.wf) : Inv (State.resetWith p) where
  par := hp
  mem := ⟨List.Pairwise.nil, fun _ he => absurd he List.not_mem_nil⟩
  chan := fun c hv => by simp [State.chan, State.resetWith, Chan.reset] at hv
  reg := fun k c hk => by simp [State.regAt, State.resetWith] at hk
  upc := fun c hc => by simp [State.resetWith, Upc.selected] at hc
  storage := fun c i hw => by
    simp [State.written, State.resetWith, Memory.read, Memory.unlisted] at hw

/-- Settles O54: the standard parameters are legal, and reset meets the invariant under all legal ones. -/
theorem resetMeetsTheInvariant : Obligations.ResetMeetsTheInvariant :=
  ⟨inv_resetWith (by decide), fun _ hp => inv_resetWith hp⟩

/-! ### What an effect keeps of a valid slot, and what a construction makes -/

theorem constructRejected_eq_false {c : Slot} {k : Pid} {n : Idx} {s : State} :
    constructRejected c k n s = false ↔
      c.val < s.par.nch ∧ (s.chan c).valid = false ∧ k.val < s.par.np ∧ 0 < n.toNat := by
  have hn : ¬n = 0#16 ↔ 0 < n.toNat := by
    rw [Nat.pos_iff_ne_zero, ne_eq, ← BitVec.toNat_inj]
    rfl
  simp [constructRejected, hn, and_assoc]

/-- CONSTRUCT either leaves the block alone or was not rejected. -/
theorem Effect.of_construct {s t : State} {c : Slot} {k : Pid} {n : Idx} (h : Effect s t (.construct c k n)) :
    t.chans = s.chans ∨ constructRejected c k n s = false := by
  generalize hi : Instr.construct c k n = i at h
  cases h with
  | nothing i hc => exact Or.inl hc
  | construct c' k' n' h => cases hi; exact Or.inr h
  | flushHead i c' side e => subst hi; cases side <;> cases e
  | flushTail i c' side e => subst hi; cases side <;> cases e
  | readTail | writeStore | writeHead | writeTail | receive | transmit | deliver => cases hi

/-- A valid slot stays valid and keeps its handle and capacity: only an invalid slot is constructed. -/
theorem Effect.valid_kept {i : Instr} {s t : State} (h : Effect s t i) {c : Slot} (hv : (s.chan c).valid = true) :
    (t.chan c).valid = true ∧ (t.chan c).handle = (s.chan c).handle ∧ (t.chan c).cap = (s.chan c).cap := by
  rcases effect_control h with ⟨c', k, n, _, hr, hc, _⟩ | ⟨_, hk⟩
  · obtain ⟨_, hfree, _⟩ := constructRejected_eq_false.mp hr
    have hne : c ≠ c' := by rintro rfl; rw [hfree] at hv; cases hv
    rw [chan_congr hc, chan_setChan_ne _ _ hne]
    exact ⟨hv, rfl, rfl⟩
  · obtain ⟨h1, h2, h3⟩ := hk c
    exact ⟨h1.trans hv, h2, h3⟩

/-- A buffer of a valid slot keeps its indices in range. -/
theorem Effect.bufOk_kept {i : Instr} {s t : State} (h : Effect s t i) {b : Buf} (hv : (s.chan b.c).valid = true)
    (hb : s.bufOk b = true) : t.bufOk b = true := by
  by_cases hi : ∃ c k n, i = .construct c k n
  · obtain ⟨c, k, n, rfl⟩ := hi
    rcases h.of_construct with hc | hr
    · rw [bufOk_congr hc]; exact hb
    · refine effect_bufOk h b hb fun c' k' n' e => ?_
      cases e
      rintro rfl
      obtain ⟨_, hfree, _⟩ := constructRejected_eq_false.mp hr
      rw [hfree] at hv
      cases hv
  · exact effect_bufOk h b hb fun c k n e => absurd ⟨c, k, n, e⟩ hi

/-! ### Each clause of the invariant under an instruction that goes on -/

section clauses

variable {i : Instr} {s t : State}

/-- The memory list: at most one byte is written. -/
theorem Effect.mem_wf (h : Effect s t i) (hm : s.mem.wf) : t.mem.wf := by
  rcases effect_bytes h with e | ⟨_, _, _, e, _⟩
  · rw [e]; exact hm
  · rw [e]; exact Memory.wf_write hm ..

/-- A slot that is valid afterwards was valid before, or has just been constructed. -/
theorem Effect.chanInv (h : Effect s t i) (hp : t.par = s.par) (hs : Inv s) : ChanInv t := by
  intro c hv
  rw [hp]
  by_cases hvs : (s.chan c).valid = true
  · obtain ⟨hlt, hnp, hrx, htx⟩ := hs.chan c hvs
    obtain ⟨_, hh, _⟩ := h.valid_kept hvs
    rw [hh]
    exact ⟨hlt, hnp, h.bufOk_kept hvs hrx, h.bufOk_kept hvs htx⟩
  · rcases effect_control h with ⟨c', k, n, _, hr, hc, _⟩ | ⟨_, hk⟩
    · obtain ⟨hlt, _, hnp, hpos⟩ := constructRejected_eq_false.mp hr
      obtain rfl : c = c' := by
        by_contra hne
        rw [chan_congr hc, chan_setChan_ne _ _ hne] at hv
        exact hvs hv
      have hchan : t.chan c = ⟨true, k, n, 0, 0, 0, 0⟩ := by rw [chan_congr hc, chan_setChan_same]
      simp only [bufOk_iff, State.head, State.tail, State.cap, hchan]
      exact ⟨hlt, hnp, ⟨hpos, hpos⟩, hpos, hpos⟩
    · exact absurd ((hk c).1 ▸ hv) hvs

/-- A registry entry is the one just made, or an older one, whose slot was valid and keeps its handle. -/
theorem Effect.regInv (h : Effect s t i) (hp : t.par = s.par) (hs : RegInv s) : RegInv t := by
  have kept : ∀ j d, s.regAt j = some d → j.val < t.par.np ∧ (t.chan d).valid = true ∧ (t.chan d).handle = j := by
    intro j d hj
    obtain ⟨hnp, hv, hh⟩ := hs j d hj
    obtain ⟨hv', hh', _⟩ := h.valid_kept hv
    exact ⟨hp ▸ hnp, hv', hh'.trans hh⟩
  intro j d hj
  rcases effect_control h with ⟨c, k, n, _, hr, hc, hreg, _⟩ | ⟨hreg, _⟩
  · rw [regAt_congr hreg] at hj
    by_cases hjk : j = k
    · subst hjk
      rw [regAt_setReg_same] at hj
      cases hj
      obtain ⟨_, _, hnp, _⟩ := constructRejected_eq_false.mp hr
      rw [hp, chan_congr hc, chan_setChan_same]
      exact ⟨hnp, rfl, rfl⟩
    · exact kept j d (regAt_setReg_ne s _ hjk ▸ hj)
  · exact kept j d (regAt_congr hreg j ▸ hj)

/-- A command that goes on runs on the slot it had selected or has just selected, and its locals are older ones or
indices of that slot just loaded. -/
theorem Continues.upcInv (h : Continues s t) (hs : UpcInv s) {c : Slot} (hc : t.upc.selected = some c) :
    (s.chan c).valid = true ∧ ∀ x ∈ t.upc.indices, x.toNat < (s.cap c).toNat := by
  obtain ⟨c', hc', hsel, hidx⟩ := h.selected
  obtain rfl : c' = c := Option.some.inj (hc'.symm.trans hc)
  have hslot : t.upc.command.bind slotOf = some c' := Upc.slot_of_selected hc
  have old : ∀ d, s.upc.selected = some d → d = c' := by
    intro d hd
    have := Upc.slot_of_selected hd
    rw [← h.command, hslot] at this
    exact (Option.some.inj this).symm
  refine ⟨hsel.elim (fun hd => (hs _ hd).1) (fun hd => ((selects_iff s c').mp hd).2), fun x hx => ?_⟩
  rcases hidx x hx with hx | hx
  · cases hd : s.upc.selected with
    | none => rw [Upc.indices_of_not_selected hd] at hx; cases hx
    | some d =>
      obtain rfl := old d hd
      exact (hs _ hd).2 x hx
  · exact hx

theorem Effect.upcInv (h : Effect s t i) (hu : UpcStep i s t) (hs : UpcInv s) : UpcInv t := by
  have kept : ∀ c, (s.chan c).valid = true ∧ (∀ x ∈ t.upc.indices, x.toNat < (s.cap c).toNat) →
      (t.chan c).valid = true ∧ ∀ x ∈ t.upc.indices, x.toNat < (t.cap c).toNat := by
    intro c ⟨hv, hx⟩
    obtain ⟨hv', _, hcap⟩ := h.valid_kept hv
    rw [cap_chan, hcap]
    exact ⟨hv', hx⟩
  intro c hc
  refine kept c ?_
  rcases hu with e | ⟨_, _, hn, _⟩ | ⟨_, m⟩
  · rw [e] at hc ⊢; exact hs c hc
  · rw [(Upc.first_step hn).1] at hc; cases hc
  · rcases m.upc with e | hcont | ⟨e, _⟩
    · rw [e] at hc; cases hc
    · exact hcont.upcInv hs hc
    · rw [e] at hc ⊢; exact hs c hc

/-- A byte written before belongs to a valid slot, which keeps its capacity; the one byte an instruction writes lies in
the slot a command has selected or the registry names. -/
theorem Effect.storageInv (h : Effect s t i) (hs : Inv s) : StorageInv t := by
  have kept : ∀ c (x : Idx), (s.chan c).valid = true → x.toNat < (s.cap c).toNat →
      (t.chan c).valid = true ∧ x.toNat < (t.cap c).toNat := by
    intro c x hv hx
    obtain ⟨hv', _, hcap⟩ := h.valid_kept hv
    rw [cap_chan, hcap]
    exact ⟨hv', hx⟩
  have old : ∀ c x, s.written (.rxmem c) x = true ∨ s.written (.txmem c) x = true →
      (t.chan c).valid = true ∧ x.toNat < (t.cap c).toNat := fun c x hw =>
    kept c x (hs.storage c x hw).1 (hs.storage c x hw).2
  intro c x hw
  rcases effect_bytes h with e | ⟨sp, y, v, e, who⟩
  · rw [written_congr e, written_congr e] at hw
    exact old c x hw
  · by_cases hnew : (Space.rxmem c = sp ∨ Space.txmem c = sp) ∧ x = y
    · obtain ⟨hsp, rfl⟩ := hnew
      rcases who with ⟨d, _, _, rfl, hsel, hy⟩ | ⟨_, d, _, hk, rfl, hy⟩ | ⟨_, _, d, _, rfl⟩
      · obtain rfl : c = d := by simpa using hsp
        exact kept c x (hs.valid_of_selected hsel) hy
      · obtain rfl : c = d := by simpa using hsp
        exact kept c x (hs.valid_of_lookup hk) hy
      · simp at hsp
    · refine old c x ?_
      rw [not_and] at hnew
      rw [written_of_write e, written_of_write e, if_neg fun h => hnew (Or.inl h.1) h.2,
        if_neg fun h => hnew (Or.inr h.1) h.2] at hw
      exact hw

end clauses

/-- Every instruction that goes on keeps the invariant. -/
theorem exec_inv {i : Instr} {s t : State} (hs : Inv s) (h : exec i s = .next t) : Inv t := by
  have he := exec_effect h
  obtain ⟨hin, hu⟩ := exec_upc h
  exact ⟨hin.par ▸ hs.par, he.mem_wf hs.mem, he.chanInv hin.par hs, he.regInv hin.par hs.reg, he.upcInv hu hs.upc,
    he.storageInv hs⟩

/-- Settles O55: a step that goes on runs an instruction on the same machine, or leaves the machine alone. -/
theorem everyStepKeepsTheInvariant : Obligations.EveryStepKeepsTheInvariant := by
  intro s t hs h
  rcases step_next h with ⟨i, u, hu, hx⟩ | hst
  · exact exec_inv (hs.of_sameMachine hu) hx
  · exact hs.of_sameMachine hst

end Sys2Proof.Machine
end

