-- ==== Sys2Proof/Proofs/IndexSafety.lean ====
section
/-! No step from a state that meets the invariant meets an index out of its range: each access does not where its buffer
(and its own index) is in range, so no micro-step does, nor a handler. -/

namespace Sys2Proof.Machine

/-- An operation that does not stop on an index out of range. -/
def InRange {α : Type} (x : Except Stop α) : Prop := x ≠ .error (.fault .indexOutOfRange)

theorem inRange_ok {α : Type} (a : α) : InRange (.ok a : Except Stop α) := nofun

theorem InRange.bind {α β : Type} {x : Except Stop α} {f : α → Except Stop β} (hx : InRange x)
    (hf : ∀ a, InRange (f a)) : InRange (x >>= f) := by
  intro h
  cases x with
  | error e => cases h; exact hx rfl
  | ok a => exact hf a h

theorem inRange_selecting {c : Slot} {k : Except Stop State} {s : State} (hk : s.selects c = true → InRange k) :
    InRange (selecting c k s) := by
  unfold selecting
  split
  · next hs => exact hk hs
  · exact inRange_ok _

/-! ### Single accesses -/

section accesses

variable {s : State} {b : Buf}

theorem inRange_onBuf {α : Type} {k : Except Stop α} (hb : s.bufOk b = true) (hk : InRange k) :
    InRange (s.onBuf b k) := by
  rw [onBuf_of_bufOk k hb]
  exact hk

theorem inRange_memRead {sp : Space} {i : Idx} (hi : i.toNat < s.size sp) : InRange (s.memRead sp i) := by
  unfold State.memRead
  rw [if_pos hi]
  split <;> nofun

theorem inRange_memWrite {sp : Space} {i : Idx} {v : Byte} (hi : i.toNat < s.size sp) :
    InRange (s.memWrite sp i v) := by
  rw [memWrite_of_size v hi]
  exact inRange_ok _

theorem inRange_loadHead (hb : s.bufOk b = true) : InRange (loadHead b s) := inRange_onBuf hb (inRange_ok _)
theorem inRange_loadTail (hb : s.bufOk b = true) : InRange (loadTail b s) := inRange_onBuf hb (inRange_ok _)
theorem inRange_resetFirst (hb : s.bufOk b = true) : InRange (resetFirst b s) := inRange_onBuf hb (inRange_ok _)
theorem inRange_resetSecond (hb : s.bufOk b = true) : InRange (resetSecond b s) := inRange_onBuf hb (inRange_ok _)

theorem inRange_advanceHead {i : Idx} (hb : s.bufOk b = true) : InRange (advanceHead b i s) :=
  inRange_onBuf hb (inRange_ok _)

theorem inRange_advanceTail {i : Idx} (hb : s.bufOk b = true) : InRange (advanceTail b i s) :=
  inRange_onBuf hb (inRange_ok _)

theorem inRange_storeByte {i : Idx} {v : Byte} (hb : s.bufOk b = true) (hi : i.toNat < (s.cap b.c).toNat) :
    InRange (storeByte b i v s) :=
  inRange_onBuf hb (inRange_memWrite (by rw [size_space]; exact hi))

theorem inRange_loadByte {i : Idx} (hb : s.bufOk b = true) (hi : i.toNat < (s.cap b.c).toNat) :
    InRange (loadByte b i s) :=
  inRange_onBuf hb (inRange_memRead (by rw [size_space]; exact hi))

end accesses

/-! ### The buffers an instruction reaches -/

theorem Inv.bufOk_of_selects {s : State} {b : Buf} (h : Inv s) (hs : s.selects b.c = true) : s.bufOk b = true :=
  h.bufOk_of_valid ((selects_iff s b.c).mp hs).2

theorem Inv.bufOk_of_upc {s : State} {b : Buf} {u : Upc} (h : Inv s) (e : s.upc = u) (hc : u.selected = some b.c) :
    s.bufOk b = true :=
  h.bufOk_of_valid (h.valid_of_selected (e ▸ hc))

theorem Inv.local_lt {s : State} {c : Slot} {x : Idx} {u : Upc} (h : Inv s) (e : s.upc = u)
    (hc : u.selected = some c) (hx : x ∈ u.indices) : x.toNat < (s.cap c).toNat :=
  (h.upc c (e ▸ hc)).2 x (e ▸ hx)

theorem Inv.bufOk_of_lookup {s : State} {b : Buf} {k : Pid} (h : Inv s) (hk : lookup k s = some b.c) :
    s.bufOk b = true :=
  h.bufOk_of_valid (h.valid_of_lookup hk)

/-! ### The commands' micro-steps -/

section micro

variable {s : State} (hs : Inv s)

include hs

theorem readMicro_inRange : InRange (readMicro s) := by
  unfold readMicro
  split
  · exact inRange_selecting fun h => (inRange_loadHead (hs.bufOk_of_selects h)).bind fun _ => inRange_ok _
  · next c h e =>
    exact (inRange_loadTail (hs.bufOk_of_upc e rfl)).bind fun _ => inRange_ok _
  · next c h t e =>
    exact (inRange_loadByte (hs.bufOk_of_upc e rfl) (hs.local_lt e rfl (by simp [Upc.indices]))).bind
      fun _ => inRange_ok _
  · next c h t v e =>
    exact (inRange_advanceTail (hs.bufOk_of_upc e rfl)).bind fun _ => inRange_ok _
  · exact inRange_ok _

theorem availMicro_inRange : InRange (availMicro s) := by
  unfold availMicro
  split
  · exact inRange_selecting fun h => (inRange_loadHead (hs.bufOk_of_selects h)).bind fun _ => inRange_ok _
  · next c h e =>
    exact (inRange_loadTail (hs.bufOk_of_upc e rfl)).bind fun _ => inRange_ok _
  · exact inRange_ok _

theorem rcountMicro_inRange : InRange (rcountMicro s) := by
  unfold rcountMicro
  split
  · exact inRange_selecting fun h => (inRange_loadHead (hs.bufOk_of_selects h)).bind fun _ => inRange_ok _
  · next c h e =>
    exact (inRange_loadTail (hs.bufOk_of_upc e rfl)).bind fun _ => inRange_ok _
  · exact inRange_ok _

theorem flushRxMicro_inRange : InRange (flushRxMicro s) := by
  unfold flushRxMicro
  split
  · exact inRange_selecting fun h => (inRange_resetFirst (hs.bufOk_of_selects h)).bind fun _ => inRange_ok _
  · next c e =>
    exact (inRange_resetSecond (hs.bufOk_of_upc e rfl)).bind fun _ => inRange_ok _
  · exact inRange_ok _

theorem flushTxMicro_inRange : InRange (flushTxMicro s) := by
  unfold flushTxMicro
  split
  · exact inRange_selecting fun h => (inRange_resetFirst (hs.bufOk_of_selects h)).bind fun _ => inRange_ok _
  · next c e =>
    exact (inRange_resetSecond (hs.bufOk_of_upc e rfl)).bind fun _ => inRange_ok _
  · exact inRange_ok _

theorem writeMicro_inRange : InRange (writeMicro s) := by
  unfold writeMicro
  split
  · exact inRange_selecting fun h => (inRange_loadHead (hs.bufOk_of_selects h)).bind fun _ => inRange_ok _
  · next c b h e =>
    exact (inRange_loadTail (hs.bufOk_of_upc e rfl)).bind fun _ => inRange_ok _
  · next c b h t e =>
    exact (inRange_storeByte (hs.bufOk_of_upc e rfl) (hs.local_lt e rfl (by simp [Upc.indices]))).bind
      fun _ => inRange_ok _
  · next c b h t e =>
    exact (inRange_advanceHead (hs.bufOk_of_upc e rfl)).bind fun _ => inRange_ok _
  · exact inRange_ok _
  · next c b h t r e =>
    exact (inRange_loadHead (hs.bufOk_of_upc e rfl)).bind fun _ => inRange_ok _
  · next c b h t r h2 e =>
    exact (inRange_loadTail (hs.bufOk_of_upc e rfl)).bind fun _ => inRange_ok _
  · next c b h t r h2 t2 e =>
    exact (inRange_loadByte (hs.bufOk_of_upc e rfl) (hs.local_lt e rfl (by simp [Upc.indices]))).bind
      fun _ => inRange_ok _
  · next c b h t r h2 t2 v e =>
    exact (inRange_advanceTail (hs.bufOk_of_upc e rfl)).bind fun _ => inRange_ok _
  · exact inRange_ok _
  · exact inRange_ok _

end micro

/-! ### The events and every instruction -/

/-- IRQRX meets an index out of range only in the RX buffer of the channel `lookup` finds: its push is the one access
that can, and its re-arm always goes on. -/
theorem execIrqRx_indexOutOfRange {k : Pid} {s : State} (h : exec (.irqRx k) s = .fault .indexOutOfRange) :
    ∃ c, lookup k s = some c ∧ s.bufOk ⟨c, .rx⟩ = false := by
  have hl := layerStep_layerRx k s
  rw [execIrqRx_eq] at h
  split at h
  · cases h
  · next c hk =>
    rcases onReceiveComplete_cases c (layerRx k s) with e | ⟨_, hb⟩ | ⟨v, hv, hb⟩
    · rw [e] at h; cases h
    · exact ⟨c, hk, (bufOk_congr hl.block.chans _).symm.trans hb⟩
    · rw [onReceiveComplete_eq hv hb, ← apply_ite] at h
      obtain ⟨t, ht⟩ := rearm_goes_on ((layerRx k s).chan c).handle c _
      rw [ht] at h
      cases h

/-- IRQTX meets an index out of range only in the TX buffer of the channel `lookup` finds. -/
theorem execIrqTx_indexOutOfRange {k : Pid} {s : State} (h : exec (.irqTx k) s = .fault .indexOutOfRange) :
    ∃ c, lookup k s = some c ∧ s.bufOk ⟨c, .tx⟩ = false := by
  have hl := layerStep_layerTx k s
  rw [execIrqTx_eq] at h
  split at h
  · cases h
  · next c hk =>
    rcases onTransmitComplete_cases c (layerTx k s) with e | ⟨_, hb⟩ | ⟨hb, he | ⟨v, he, hv⟩⟩
    · rw [e] at h; cases h
    · exact ⟨c, hk, (bufOk_congr hl.block.chans _).symm.trans hb⟩
    · rw [onTransmitComplete_of_empty hb he] at h; cases h
    · rw [onTransmitComplete_of_written hb he hv] at h; cases h

/-- HWRXD writes the one scratch byte of a slot. -/
theorem inRange_deliver (k : Pid) (b : Byte) (s : State) : InRange (deliver k b s) := by
  unfold deliver
  split
  · split
    · exact inRange_ok _
    · next c _ =>
      have h0 : (0 : Idx).toNat < s.size (.scr c) := Nat.one_pos
      exact (inRange_memWrite h0).bind fun _ => inRange_ok _
  · exact inRange_ok _

/-- From a state that meets the invariant no instruction meets an index out of range. -/
theorem exec_ne_indexOutOfRange {s : State} (hs : Inv s) (i : Instr) : exec i s ≠ .fault .indexOutOfRange := by
  intro h
  cases i with
  | construct c k n =>
    have hm := (runCommand_fault h).2
    unfold constructMicro at hm
    split at hm
    · split at hm <;> cases hm
    · cases hm
  | beginCh c => exact beginMicro_not_fault _ (runCommand_fault h).2
  | read c => exact readMicro_inRange hs (runCommand_fault h).2
  | write c b => exact writeMicro_inRange hs (runCommand_fault h).2
  | avail c => exact availMicro_inRange hs (runCommand_fault h).2
  | rcount c => exact rcountMicro_inRange hs (runCommand_fault h).2
  | flushRx c => exact flushRxMicro_inRange hs (runCommand_fault h).2
  | flushTx c => exact flushTxMicro_inRange hs (runCommand_fault h).2
  | irqRx k =>
    obtain ⟨c, hk, hb⟩ := execIrqRx_indexOutOfRange h
    rw [hs.bufOk_of_lookup hk] at hb
    cases hb
  | irqTx k =>
    obtain ⟨c, hk, hb⟩ := execIrqTx_indexOutOfRange h
    rw [hs.bufOk_of_lookup hk] at hb
    cases hb
  | hwrxd k b => exact inRange_deliver k b s (finish_fault.mp h)
  | hwinj k sel st =>
    change execHwinj k sel st s = _ at h
    unfold execHwinj at h
    split at h <;> cases h
  | hwReceiveArm p c =>
    have hm := finish_fault.mp h
    cases ha : hwReceiveArm p c s with
    | ok r => rw [ha] at hm; cases hm
    | error e =>
      obtain ⟨_, rfl, _⟩ := hwReceiveArm_error ha
      rw [ha] at hm
      cases hm
  | hwTransmitByte p b => cases h
  | hwIsReady p => cases h
  | hwUnlockAndAbortReceive p => cases h

/-- Settles O56: a step that faults faults with its own fault or in an instruction it runs on the same machine. -/
theorem noStepMeetsAnIndexOutOfRange : Obligations.NoStepMeetsAnIndexOutOfRange := by
  intro s hs h
  rcases step_fault h with ⟨_, e⟩ | ⟨i, u, hu, hx⟩
  · cases e
  · exact exec_ne_indexOutOfRange (hs.of_sameMachine hu) i hx

end Sys2Proof.Machine
end

