-- ==== Sys2Proof/Proofs/Writers.lean ====
section
/-! Which instructions write which registers and bytes, read off the effect of an instruction that goes on. -/

namespace Sys2Proof.Machine

/-! ### Index registers (10_state.md R26) -/

theorem head_congr {s t : State} (h : t.chans = s.chans) (b : Buf) : t.head b = s.head b := by
  simp only [State.head, chan_congr h]

theorem tail_congr {s t : State} (h : t.chans = s.chans) (b : Buf) : t.tail b = s.tail b := by
  simp only [State.tail, chan_congr h]

theorem head_setChan_ne (s : State) {b : Buf} {c : Slot} (x : Chan) (h : b.c ≠ c) :
    (s.setChan c x).head b = s.head b := by
  simp only [State.head, chan_setChan_ne s x h]

theorem tail_setChan_ne (s : State) {b : Buf} {c : Slot} (x : Chan) (h : b.c ≠ c) :
    (s.setChan c x).tail b = s.tail b := by
  simp only [State.tail, chan_setChan_ne s x h]

/-- The operations that write the head of a buffer: `RXH` and `TXH` of R26. -/
def WritesHead (b : Buf) (i : Instr) : Prop :=
  match b.side with
  | .rx => (∃ k, i = .irqRx k) ∨ i = .flushRx b.c ∨ ∃ k n, i = .construct b.c k n
  | .tx => (∃ x, i = .write b.c x) ∨ i = .flushTx b.c ∨ ∃ k n, i = .construct b.c k n

/-- The operations that write the tail of a buffer: `RXT` and `TXT` of R26. -/
def WritesTail (b : Buf) (i : Instr) : Prop :=
  match b.side with
  | .rx => i = .read b.c ∨ i = .flushRx b.c ∨ ∃ k n, i = .construct b.c k n
  | .tx => (∃ k, i = .irqTx k) ∨ (∃ x, i = .write b.c x) ∨ i = .flushTx b.c ∨ ∃ k n, i = .construct b.c k n

theorem writesHead_construct (b : Buf) (k : Pid) (n : Idx) : WritesHead b (.construct b.c k n) := by
  rcases b with ⟨c, side⟩
  cases side <;> exact Or.inr (Or.inr ⟨k, n, rfl⟩)

theorem writesHead_flush (b : Buf) : WritesHead b (flushOf b.side b.c) := by
  rcases b with ⟨c, side⟩
  cases side <;> exact Or.inr (Or.inl rfl)

theorem writesTail_construct (b : Buf) (k : Pid) (n : Idx) : WritesTail b (.construct b.c k n) := by
  rcases b with ⟨c, side⟩
  cases side
  · exact Or.inr (Or.inr ⟨k, n, rfl⟩)
  · exact Or.inr (Or.inr (Or.inr ⟨k, n, rfl⟩))

theorem writesTail_flush (b : Buf) : WritesTail b (flushOf b.side b.c) := by
  rcases b with ⟨c, side⟩
  cases side
  · exact Or.inr (Or.inl rfl)
  · exact Or.inr (Or.inr (Or.inl rfl))

/-- A head set in one buffer changed in that buffer only. -/
theorem eq_of_setHead_head_ne {s t u : State} {a b : Buf} {v : Idx} (hc : t.chans = (u.setHead b v).chans)
    (hu : u.head a = s.head a) (h : t.head a ≠ s.head a) : a = b := by
  by_contra hne
  rw [head_congr hc, head_setHead, if_neg hne] at h
  exact h hu

/-- A tail set in one buffer changed in that buffer only. -/
theorem eq_of_setTail_tail_ne {s t : State} {a b : Buf} {v : Idx} (hc : t.chans = (s.setTail b v).chans)
    (h : t.tail a ≠ s.tail a) : a = b := by
  by_contra hne
  rw [tail_congr hc, tail_setTail, if_neg hne] at h
  exact h rfl

theorem Effect.writesHead {i : Instr} {s t : State} (h : Effect s t i) {b : Buf} (hb : t.head b ≠ s.head b) :
    WritesHead b i := by
  have viaTail : ∀ b' v, t.chans = (s.setTail b' v).chans → WritesHead b i := fun b' v hc =>
    absurd ((head_congr hc b).trans (head_setTail s b b' v)) hb
  cases h with
  | nothing i hc => exact absurd (head_congr hc b) hb
  | writeStore c x i' sel hi hc => exact absurd (head_congr hc b) hb
  | deliver k c v hc => exact absurd (head_congr hc b) hb
  | readTail c v ok hv hc => exact viaTail _ _ hc
  | writeTail c x v ok hv hc => exact viaTail _ _ hc
  | flushTail i c side hi ok hc => exact viaTail _ _ hc
  | transmit k c hk ok hc => exact viaTail _ _ hc
  | construct c k n hr hc =>
    by_cases e : b.c = c
    · subst e; exact writesHead_construct b k n
    · exact absurd ((head_congr hc b).trans (head_setChan_ne s _ e)) hb
  | writeHead c x v ok hv hc =>
    cases eq_of_setHead_head_ne hc rfl hb
    exact Or.inl ⟨x, rfl⟩
  | flushHead i c side hi ok hc =>
    cases eq_of_setHead_head_ne hc rfl hb
    exact hi ▸ writesHead_flush _
  | receive k c v hk ok hc =>
    cases eq_of_setHead_head_ne hc rfl hb
    exact Or.inl ⟨k, rfl⟩

theorem Effect.writesTail {i : Instr} {s t : State} (h : Effect s t i) {b : Buf} (hb : t.tail b ≠ s.tail b) :
    WritesTail b i := by
  have viaHead : ∀ b' v, t.chans = (s.setHead b' v).chans → WritesTail b i := fun b' v hc =>
    absurd ((tail_congr hc b).trans (tail_setHead s b b' v)) hb
  cases h with
  | nothing i hc => exact absurd (tail_congr hc b) hb
  | writeStore c x i' sel hi hc => exact absurd (tail_congr hc b) hb
  | deliver k c v hc => exact absurd (tail_congr hc b) hb
  | writeHead c x v ok hv hc => exact viaHead _ _ hc
  | flushHead i c side hi ok hc => exact viaHead _ _ hc
  | receive k c v hk ok hc => exact absurd ((tail_congr hc b).trans (tail_setHead _ b _ _)) hb
  | construct c k n hr hc =>
    by_cases e : b.c = c
    · subst e; exact writesTail_construct b k n
    · exact absurd ((tail_congr hc b).trans (tail_setChan_ne s _ e)) hb
  | readTail c v ok hv hc =>
    cases eq_of_setTail_tail_ne hc hb
    exact Or.inl rfl
  | writeTail c x v ok hv hc =>
    cases eq_of_setTail_tail_ne hc hb
    exact Or.inr (Or.inl ⟨x, rfl⟩)
  | flushTail i c side hi ok hc =>
    cases eq_of_setTail_tail_ne hc hb
    exact hi ▸ writesTail_flush _
  | transmit k c hk ok hc =>
    cases eq_of_setTail_tail_ne hc hb
    exact Or.inl ⟨k, rfl⟩

/-- Settles O47: the four index registers are the heads and tails of the slot's two buffers. -/
theorem onlyTheseOperationsWriteEachIndex : Obligations.OnlyTheseOperationsWriteEachIndex := by
  intro i s t c h
  have he := exec_effect h
  exact ⟨he.writesHead (b := ⟨c, .rx⟩), he.writesTail (b := ⟨c, .rx⟩), he.writesHead (b := ⟨c, .tx⟩),
    he.writesTail (b := ⟨c, .tx⟩)⟩

/-! ### Control registers and the registry (10_state.md R21 to R23, R31) -/

/-- A control register of a slot that changed was written by the construction of that slot. -/
theorem Effect.constructs_of_control_ne {i : Instr} {s t : State} (h : Effect s t i) {c : Slot}
    (hne : (t.chan c).valid ≠ (s.chan c).valid ∨ (t.chan c).handle ≠ (s.chan c).handle ∨
      (t.chan c).cap ≠ (s.chan c).cap) : ∃ k n, i = .construct c k n := by
  rcases effect_control h with ⟨c', k, n, rfl, _, hc, _⟩ | ⟨_, hk⟩
  · by_cases e : c = c'
    · subst e; exact ⟨k, n, rfl⟩
    · rw [chan_congr hc, chan_setChan_ne _ _ e] at hne
      simp at hne
  · obtain ⟨h1, h2, h3⟩ := hk c
    rw [h1, h2, h3] at hne
    simp at hne

/-- A registry entry that changed was written by a construction for that identity. -/
theorem Effect.constructs_of_regAt_ne {i : Instr} {s t : State} (h : Effect s t i) {k : Pid}
    (hne : t.regAt k ≠ s.regAt k) : ∃ c n, i = .construct c k n := by
  rcases effect_control h with ⟨c, k', n, rfl, _, _, hreg, _⟩ | ⟨hreg, _⟩
  · by_cases e : k = k'
    · subst e; exact ⟨c, n, rfl⟩
    · rw [regAt_congr hreg, regAt_setReg_ne _ _ e] at hne
      exact absurd rfl hne
  · exact absurd (regAt_congr hreg k) hne

/-- Settles O48: only CONSTRUCT of a free slot writes the control registers, so a valid slot keeps them. -/
theorem onlyConstructWritesTheControlRegisters : Obligations.OnlyConstructWritesTheControlRegisters := by
  intro i s t h
  have he := exec_effect h
  exact ⟨fun c => ⟨he.valid_kept, he.constructs_of_control_ne⟩, fun k => he.constructs_of_regAt_ne⟩

/-! ### Storage and scratch (10_state.md R27, R30) -/

/-- A byte that reads differently is the one byte the instruction wrote, in its own space. -/
theorem Effect.writer_of_byteAt_ne {i : Instr} {s t : State} (h : Effect s t i) (hp : t.par = s.par) {sp : Space}
    {x : Idx} (hne : t.byteAt sp x ≠ s.byteAt sp x) :
    (∃ c b, i = .write c b ∧ sp = .txmem c) ∨ (∃ k c, i = .irqRx k ∧ sp = .rxmem c) ∨
      ∃ k b c, i = .hwrxd k b ∧ sp = .scr c := by
  rcases effect_bytes h with e | ⟨sp', y, v, e, who⟩
  · exact absurd (byteAt_congr hp e sp x) hne
  · have hsp : sp = sp' := by
      by_contra hn
      rw [byteAt_of_write hp e, if_neg fun h => hn h.1] at hne
      exact hne rfl
    subst hsp
    rcases who with ⟨c, b, hi, hs, _⟩ | ⟨k, c, hi, _, hs, _⟩ | ⟨k, b, c, hi, hs⟩
    · exact Or.inl ⟨c, b, hi, hs⟩
    · exact Or.inr (Or.inl ⟨k, c, hi, hs⟩)
    · exact Or.inr (Or.inr ⟨k, b, c, hi, hs⟩)

/-- Settles O49: the three kinds of spaces have one writer each. -/
theorem onlyTheseOperationsWriteStorage : Obligations.OnlyTheseOperationsWriteStorage := by
  intro i s t c x h
  have writer := fun sp => (exec_effect h).writer_of_byteAt_ne (exec_upc h).1.par (sp := sp) (x := x)
  refine ⟨fun hne => ?scratch, fun hne => ?rx, fun hne => ?tx⟩
  case scratch =>
    rcases writer _ hne with ⟨_, _, _, e⟩ | ⟨_, _, _, e⟩ | ⟨k, b, _, hi, _⟩
    · cases e
    · cases e
    · exact ⟨k, b, hi⟩
  case rx =>
    rcases writer _ hne with ⟨_, _, _, e⟩ | ⟨k, _, hi, _⟩ | ⟨_, _, _, _, e⟩
    · cases e
    · exact ⟨k, hi⟩
    · cases e
  case tx =>
    rcases writer _ hne with ⟨_, b, hi, e⟩ | ⟨_, _, _, e⟩ | ⟨_, _, _, _, e⟩
    · cases e; exact ⟨b, hi⟩
    · cases e
    · cases e

end Sys2Proof.Machine
end

