-- ==== Sys2Proof/Proofs/IndexArithmetic.lean ====
section
/-! EMPTY, FULL and the occupancy of a buffer, on indices in range (10_state.md R28, R29). -/

namespace Sys2Proof.Machine

/-- Settles O42: FULL names the index after the head, which is the head itself for `N = 1` only. -/
theorem emptyAndFullExcludeEachOther : Obligations.EmptyAndFullExcludeEachOther := by
  intro h t n hh ht
  rw [isEmptyAt_iff, isFullAt_iff_of_lt hh]
  refine ⟨fun hn => ?_, fun hn => ?_⟩
  · rintro ⟨he, hf⟩
    split at hf <;> omega
  · rw [if_pos (by omega)]
    omega

/-- Settles O43: over the integers the remainder is in `[0, N)`, so the 16 bits hold it; the rest follows from its
two-case form. -/
theorem occupancyIsBetweenEmptyAndFull : Obligations.OccupancyIsBetweenEmptyAndFull := by
  intro h t n hh ht
  have hocc := occupancyAt_toNat hh ht
  refine ⟨?_, hocc, ?_, ?_, ?_⟩
  · have hn := n.isLt
    have hpos : (0 : Int) < n.toNat := by omega
    have h0 := Int.emod_nonneg ((h.toNat : Int) - t.toNat + n.toNat) hpos.ne'
    have h1 := Int.emod_lt_of_pos ((h.toNat : Int) - t.toNat + n.toNat) hpos
    rw [occupancyAt, BitVec.toNat_ofNat, Nat.mod_eq_of_lt (by omega), Int.toNat_of_nonneg h0]
  · have := occupancyAt_lt hh ht
    omega
  · rw [isEmptyAt_iff, hocc]
    split <;> omega
  · rw [isFullAt_iff_of_lt hh, hocc]
    split <;> split <;> omega

end Sys2Proof.Machine
end

