-- ==== Sys2Proof/Proofs/CommandStart.lean ====
section
/-! The start of a command (10_state.md R33). -/

namespace Sys2Proof.Machine

/-- Settles O9: each command is a turn of `runCommand`, which starts it when `UPC` is idle. -/
theorem commandsStartAtTheirFirstStep : Obligations.CommandsStartAtTheirFirstStep := by
  intro s hu c k n b
  exact ⟨runCommand_of_idle hu, runCommand_of_idle hu, runCommand_of_idle hu, runCommand_of_idle hu,
    runCommand_of_idle hu, runCommand_of_idle hu, runCommand_of_idle hu, runCommand_of_idle hu⟩

end Sys2Proof.Machine
end

