-- ==== Sys2Proof/Proofs/UnwrittenBytes.lean ====
section
/-! Reading a byte that nothing has written, in the four places that read one: it has no value, and the read faults, or
it has some value, and the operation goes on with it (93_implementation_defined.md U7). -/

namespace Sys2Proof.Machine

/-! ### A byte without a value -/

theorem loadByte_of_no_value {b : Buf} {i : Idx} {s : State} (hb : s.bufOk b = true)
    (hi : i.toNat < (s.cap b.c).toNat) (hv : s.byteAt b.space i = none) :
    loadByte b i s = .error (.fault .unwrittenByte) := by
  rw [loadByte, onBuf_of_bufOk _ hb, State.memRead, if_pos (by rw [size_space]; exact hi), hv]

theorem pop_of_no_value {b : Buf} {s : State} (hb : s.bufOk b = true) (he : s.head b ≠ s.tail b)
    (hv : s.byteAt b.space (s.tail b) = none) : pop b s = .error (.fault .unwrittenByte) := by
  simp [pop, loadHead_of_bufOk hb, loadTail_of_bufOk hb, bind, Except.bind, isEmptyAt, he,
    loadByte_of_no_value hb (tail_lt_cap hb) hv]

theorem onReceiveComplete_of_no_value {c : Slot} {s : State} (hv : s.byteAt (.scr c) 0 = none) :
    onReceiveComplete c s = .error (.fault .unwrittenByte) := by
  simp only [onReceiveComplete, loadScratch_eq, hv, bind, Except.bind]

theorem onTransmitComplete_of_no_value {c : Slot} {s : State} (hb : s.bufOk ⟨c, .tx⟩ = true)
    (he : s.head ⟨c, .tx⟩ ≠ s.tail ⟨c, .tx⟩) (hv : s.byteAt (.txmem c) (s.tail ⟨c, .tx⟩) = none) :
    onTransmitComplete c s = .error (.fault .unwrittenByte) := by
  have hp : pop ⟨c, .tx⟩ s = .error (.fault .unwrittenByte) := pop_of_no_value hb he hv
  simp only [onTransmitComplete, hp, bind, Except.bind]

/-! ### The micro-steps that load a byte -/

theorem exec_read_of_read3 {s : State} {c : Slot} {h t : Idx} (hu : s.upc = .read3 c h t) :
    exec (.read c) s = finish (loadByte ⟨c, .rx⟩ t s >>= fun v => .ok (s.setUpc (.read4 c h t v))) := by
  rw [exec_read_of_running (by rw [hu]; rfl), readMicro, hu]
  rfl

theorem exec_write_of_write8 {s : State} {c : Slot} {b : Byte} {h t h2 t2 : Idx} {r : Bool}
    (hu : s.upc = .write8 c b h t r h2 t2) :
    exec (.write c b) s =
      finish (loadByte ⟨c, .tx⟩ t2 s >>= fun v => .ok (s.setUpc (.write9 c b h t r h2 t2 v))) := by
  rw [exec_write_of_running (by rw [hu]; rfl), writeMicro, hu]
  rfl

/-! ### The events after the layer's part -/

theorem layerTx_hwlog (k : Pid) (s : State) : (layerTx k s).hwlog = s.hwlog := by
  unfold layerTx
  split <;> rfl

theorem LayerStep.byteAt {p : Pid} {s t : State} (h : LayerStep p s t) (sp : Space) (i : Idx) :
    t.byteAt sp i = s.byteAt sp i :=
  byteAt_congr h.inputs.par h.block.mem sp i

/-- IRQRX of a registered identity is the handler's turn on the state the layer's part leaves. -/
theorem execIrqRx_of_registered {k : Pid} {c : Slot} {s : State} (hk : k.val < s.par.np) (hr : s.regAt k = some c) :
    exec (.irqRx k) s = finish (onReceiveComplete c (layerRx k s)) := by
  rw [execIrqRx_eq, lookup_eq_some.mpr ⟨hk, hr⟩]

theorem execIrqTx_of_registered {k : Pid} {c : Slot} {s : State} (hk : k.val < s.par.np) (hr : s.regAt k = some c) :
    exec (.irqTx k) s = finish (onTransmitComplete c (layerTx k s)) := by
  rw [execIrqTx_eq, lookup_eq_some.mpr ⟨hk, hr⟩]

theorem execIrqRx_of_no_value {k : Pid} {c : Slot} {s : State} (hk : k.val < s.par.np) (hr : s.regAt k = some c)
    (hv : s.byteAt (.scr c) 0 = none) : exec (.irqRx k) s = .fault .unwrittenByte := by
  have hl := layerStep_layerRx k s
  rw [execIrqRx_of_registered hk hr, onReceiveComplete_of_no_value ((hl.byteAt _ _).trans hv)]
  rfl

theorem execIrqTx_of_no_value {k : Pid} {c : Slot} {s : State} (hk : k.val < s.par.np) (hr : s.regAt k = some c)
    (hb : s.bufOk ⟨c, .tx⟩ = true) (he : s.head ⟨c, .tx⟩ ≠ s.tail ⟨c, .tx⟩)
    (hv : s.byteAt (.txmem c) (s.tail ⟨c, .tx⟩) = none) : exec (.irqTx k) s = .fault .unwrittenByte := by
  have hl := layerStep_layerTx k s
  have hh := head_congr hl.block.chans ⟨c, .tx⟩
  have ht := tail_congr hl.block.chans ⟨c, .tx⟩
  rw [execIrqTx_of_registered hk hr, onTransmitComplete_of_no_value ((bufOk_congr hl.block.chans _).trans hb)
    (by rw [hh, ht]; exact he) (by rw [ht, hl.byteAt]; exact hv)]
  rfl

/-- A byte just pushed reads back at the old head. -/
theorem byteAt_pushed (b : Buf) (v : Byte) (s : State) : (pushed b v s).byteAt b.space (s.head b) = some v := by
  rw [pushed, setHead_byteAt, byteAt_write, if_pos ⟨rfl, rfl⟩]

/-- With a scratch byte that has a value IRQRX goes on, and its push stands unless the buffer was full. -/
theorem execIrqRx_pushes {k : Pid} {c : Slot} {v : Byte} {s : State} (hk : k.val < s.par.np) (hr : s.regAt k = some c)
    (hb : s.bufOk ⟨c, .rx⟩ = true) (hv : s.byteAt (.scr c) 0 = some v) :
    ∃ t, exec (.irqRx k) s = .next t ∧
      (isFullAt (s.head ⟨c, .rx⟩) (s.tail ⟨c, .rx⟩) (s.cap c) = false →
        t.byteAt (.rxmem c) (s.head ⟨c, .rx⟩) = some v) := by
  have hl := layerStep_layerRx k s
  have hc := chan_congr hl.block.chans c
  have he := onReceiveComplete_eq ((hl.byteAt _ _).trans hv) ((bufOk_congr hl.block.chans _).trans hb)
  rw [execIrqRx_of_registered hk hr, he, head_congr hl.block.chans, tail_congr hl.block.chans, cap_chan, hc,
    ← cap_chan]
  cases isFullAt (s.head ⟨c, .rx⟩) (s.tail ⟨c, .rx⟩) (s.cap c) with
  | true =>
    obtain ⟨t, ht⟩ := rearm_goes_on (s.chan c).handle c (layerRx k s)
    exact ⟨t, ht, nofun⟩
  | false =>
    obtain ⟨t, ht⟩ := rearm_goes_on (s.chan c).handle c (pushed ⟨c, .rx⟩ v (layerRx k s))
    refine ⟨t, ht, fun _ => ?_⟩
    obtain ⟨_, _, hmem, _, _, hin, _⟩ := rearm_next ht
    rw [byteAt_congr hin.par hmem, ← head_congr hl.block.chans]
    exact byteAt_pushed ⟨c, .rx⟩ v (layerRx k s)

/-- On a non-empty buffer whose oldest byte has a value IRQTX submits that byte. -/
theorem execIrqTx_submits {k : Pid} {c : Slot} {v : Byte} {s : State} (hk : k.val < s.par.np) (hr : s.regAt k = some c)
    (hb : s.bufOk ⟨c, .tx⟩ = true) (he : s.head ⟨c, .tx⟩ ≠ s.tail ⟨c, .tx⟩)
    (hv : s.byteAt (.txmem c) (s.tail ⟨c, .tx⟩) = some v) :
    ∃ t st, exec (.irqTx k) s = .next t ∧ t.hwlog = s.hwlog ++ [.transmitByte (s.chan c).handle v st] := by
  have hl := layerStep_layerTx k s
  have hh := head_congr hl.block.chans ⟨c, .tx⟩
  have ht := tail_congr hl.block.chans ⟨c, .tx⟩
  rw [execIrqTx_of_registered hk hr, onTransmitComplete_of_written ((bufOk_congr hl.block.chans _).trans hb)
    (by rw [hh, ht]; exact he) (by rw [ht, hl.byteAt]; exact hv), chan_congr hl.block.chans]
  have hlog : (popped ⟨c, .tx⟩ (layerTx k s)).hwlog = s.hwlog := by rw [popped, setTail_hwlog, layerTx_hwlog]
  exact ⟨_, (hwTransmitByte (s.chan c).handle v (popped ⟨c, .tx⟩ (layerTx k s))).1, rfl,
    by rw [hwTransmitByte_hwlog, hlog]⟩

/-! ### The two treatments -/

/-- Settles O34: a byte nothing has written has no value under the one treatment and some value under the other. -/
theorem unwrittenBytesFaultOrHoldAnyValue : Obligations.UnwrittenBytesFaultOrHoldAnyValue := by
  intro s c
  refine ⟨fun hf => ?fault, fun ha => ?anyValue⟩
  case fault =>
    have noValue : ∀ {sp i}, s.written sp i = false → s.byteAt sp i = none := (byteAt_none_iff hf _ _).mpr
    refine ⟨fun k hk hr hw => ?_, fun h t hu hb ht hw => ?_, fun b h t r h2 t2 hu hb ht hw => ?_,
      fun k hk hr hb he hw => ?_⟩
    · exact execIrqRx_of_no_value hk hr (noValue hw)
    · rw [exec_read_of_read3 hu, loadByte_of_no_value hb ht (noValue hw)]
      rfl
    · rw [exec_write_of_write8 hu, loadByte_of_no_value hb ht (noValue hw)]
      rfl
    · exact execIrqTx_of_no_value hk hr hb he (noValue hw)
  case anyValue =>
    refine ⟨fun k hk hr hb => ?_, fun h t hu hb ht => ?_, fun b h t r h2 t2 hu hb ht => ?_,
      fun k hk hr hb he => ?_⟩
    · obtain ⟨v, hv⟩ := byteAt_of_anyValue ha (.scr c) 0
      obtain ⟨t, ht, hpush⟩ := execIrqRx_pushes hk hr hb hv
      refine ⟨v, t, hv, ht, fun hnf => hpush (Bool.eq_false_iff.mpr fun hfull => hnf ?_)⟩
      exact (isFullAt_iff (cap_pos hb)).mp hfull
    · obtain ⟨v, hv⟩ := byteAt_of_anyValue ha (.rxmem c) t
      rw [exec_read_of_read3 hu, loadByte_ok.mpr ⟨hb, ht, hv⟩]
      exact ⟨v, hv, rfl⟩
    · obtain ⟨v, hv⟩ := byteAt_of_anyValue ha (.txmem c) t2
      rw [exec_write_of_write8 hu, loadByte_ok.mpr ⟨hb, ht, hv⟩]
      exact ⟨v, hv, rfl⟩
    · obtain ⟨v, hv⟩ := byteAt_of_anyValue ha (.txmem c) (s.chan c).txt
      obtain ⟨t, st, ht, hlog⟩ := execIrqTx_submits hk hr hb he hv
      exact ⟨v, t, st, hv, ht, hlog⟩

end Sys2Proof.Machine
end

