-- ==== Sys2Proof/Proofs/MemoryForm.lean ====
section
/-! The memory list keeps its canonical form, whatever else the state holds (20_memory.md R60; logs 3 and 4). -/

namespace Sys2Proof.Machine

/-- Settles O53: a step that goes on runs an instruction, which writes at most one byte, or leaves the memory alone. -/
theorem everyStepKeepsMemoryCanonical : Obligations.EveryStepKeepsMemoryCanonical := by
  intro s t hm h
  rcases step_next h with ⟨i, u, hu, hx⟩ | hst
  · have hmu : u.mem.wf := hu.block.mem ▸ hm
    exact (exec_effect hx).mem_wf hmu
  · exact hst.block.mem ▸ hm

end Sys2Proof.Machine
end

