-- ==== Sys2Proof/Proofs/DecodeEncode.lean ====
section
/-! Decoder and encoder are inverse to each other, and the shape of the words that decode (30_encoding.md R91 to R95,
R99): facts about the immediate field, then one lemma per direction, then the obligations. -/

namespace Sys2Proof

/-! ### The immediate field -/

theorem setWidth_low_byte {imm : BitVec 16} (h : imm.extractLsb' 8 8 = 0) :
    (imm.extractLsb' 0 8).setWidth 16 = imm := by
  have parts : imm.extractLsb' 8 8 ++ imm.extractLsb' 0 8 = imm := BitVec.extractLsb'_append_extractLsb'
  rw [h] at parts
  rw [BitVec.setWidth_eq_append (by decide)]
  exact parts

/-- HWINJ's immediate is its selector and its status when the bits between and above them are zero. -/
theorem injImm_of_zeros {imm : BitVec 16} (hhigh : imm.extractLsb' 9 7 = 0) (hmid : imm.extractLsb' 2 6 = 0) :
    injImm (selOf (imm.getLsbD 8)) (imm.extractLsb' 0 2) = imm := by
  have parts : imm.extractLsb' 9 7 ++ imm.extractLsb' 8 1 ++ imm.extractLsb' 2 6 ++ imm.extractLsb' 0 2 = imm := by
    rw [BitVec.extractLsb'_append_extractLsb'_eq_extractLsb' (start₁ := 8) (len₁ := 1) rfl,
      BitVec.extractLsb'_append_extractLsb'_eq_extractLsb' (start₁ := 2) (len₁ := 6) rfl,
      BitVec.extractLsb'_append_extractLsb'_eq_extractLsb' (start₁ := 0) (len₁ := 2) rfl, BitVec.extractLsb'_eq_self]
  have bit : imm.extractLsb' 8 1 = BitVec.ofBool (imm.getLsbD 8) := by
    apply BitVec.eq_of_getLsbD_eq
    simp
  rw [hhigh, hmid, bit] at parts
  cases hs : imm.getLsbD 8 <;> rw [hs] at parts <;> exact parts

/-! ### The argument of a request word that is one slot number -/

theorem arg_of_nibble {q : Request} (h : q.extractLsb' 4 4 = 0) :
    (q.extractLsb' 0 4).setWidth 8 = q.extractLsb' 0 8 := by
  have parts : q.extractLsb' 4 4 ++ q.extractLsb' 0 4 = q.extractLsb' 0 8 :=
    BitVec.extractLsb'_append_extractLsb'_eq_extractLsb' rfl
  rw [h] at parts
  rw [BitVec.setWidth_eq_append (by decide)]
  exact parts

theorem packRequest_low_nibble (fn pid n : BitVec 4) :
    (packRequest fn pid (n.setWidth 8)).extractLsb' 0 4 = n := by
  rw [packRequest, BitVec.extractLsb'_append_eq_of_add_le (by decide), BitVec.extractLsb'_setWidth_of_le (by decide),
    BitVec.extractLsb'_eq_self]

theorem packRequest_high_nibble (fn pid n : BitVec 4) :
    (packRequest fn pid (n.setWidth 8)).extractLsb' 4 4 = 0 := by
  rw [packRequest, BitVec.extractLsb'_append_eq_of_add_le (by decide), BitVec.setWidth_eq_append (by decide)]
  exact BitVec.extractLsb'_append_eq_left

/-! ### The word ports -/

/-- A word port takes the words that `decodeWord` reads as instructions of that port. -/
theorem decodeOn_ok {p : Port} {w : Word} {i : Instr} (hp : p ≠ .hardware) :
    decodeOn p w = .ok i ↔ decodeWord w = .ok i ∧ i.port = p := by
  cases p with
  | hardware => exact absurd rfl hp
  | command | interrupt | environment =>
    cases hd : decodeWord w with
    | error e => simp [decodeOn, hd]
    | ok j =>
      simp only [decodeOn, hd, Except.ok.injEq]
      split
      · next hj => exact ⟨fun e => by cases e; exact ⟨rfl, hj⟩, fun ⟨e, _⟩ => congrArg _ e⟩
      · next hj => exact ⟨nofun, fun ⟨e, hi⟩ => absurd (e ▸ hi) hj⟩

/-! ### Decoding what was encoded -/

/-- The fields of the packed word are the operands, and zero where the format has none. -/
theorem decodeWord_encode {i : Instr} (hw : i.wellFormed = true) (hp : i.port ≠ .hardware) :
    decodeWord (encode i) = .ok i := by
  cases i with
  | hwReceiveArm | hwTransmitByte | hwIsReady | hwUnlockAndAbortReceive => exact absurd rfl hp
  | hwinj k sel st =>
    have hst : st ≠ 3#2 := bne_iff_ne.mp hw
    obtain ⟨hstatus, hhigh, hmid, hsel⟩ := injImm_fields sel st
    simp [encode, decodeWord, opField_packWord, chField_packWord, pidField_packWord, immField_packWord,
      numberOf_bitsOf, ifZero, hstatus, hhigh, hmid, hsel, hst]
  | construct | beginCh | read | write | avail | rcount | flushRx | flushTx | irqRx | irqTx | hwrxd =>
    simp [encode, decodeWord, opField_packWord, chField_packWord, pidField_packWord, immField_packWord,
      numberOf_bitsOf, low_byte, high_byte, ifZero]

theorem decodeRequest_encode {i : Instr} (hp : i.port = .hardware) :
    decodeRequest ((encode i).setWidth 16) = .ok i := by
  cases i with
  | hwReceiveArm p c =>
    simp only [encode, request_setWidth]
    simp [decodeRequest, packRequest_fn, packRequest_pid, packRequest_low_nibble, packRequest_high_nibble,
      numberOf_bitsOf, ifZero]
  | hwTransmitByte | hwIsReady | hwUnlockAndAbortReceive =>
    simp only [encode, request_setWidth]
    simp [decodeRequest, packRequest_fn, packRequest_pid, packRequest_arg, numberOf_bitsOf, ifZero]
  | construct | beginCh | read | write | avail | rcount | flushRx | flushTx | irqRx | irqTx | hwrxd | hwinj => cases hp

/-! ### Encoding what was decoded -/

/-- A word is packed from its fields, whatever they are known to be. -/
theorem packWord_of_fields {w : Word} {op : BitVec 8} {ch pid : BitVec 4} {imm : BitVec 16}
    (hop : (opField w).toNat = op.toNat) (hch : ch = chField w) (hpid : pid = pidField w) (himm : imm = immField w) :
    packWord op ch pid imm = w := by
  rw [← BitVec.eq_of_toNat_eq hop, hch, hpid, himm, packWord_fields]

/-- A request word is packed from its fields. -/
theorem packRequest_of_fields {q : Request} {fn : BitVec 4} {arg : BitVec 8}
    (hfn : (q.extractLsb' 12 4).toNat = fn.toNat) (harg : arg = q.extractLsb' 0 8) :
    packRequest fn (bitsOf (numberOf (q.extractLsb' 8 4))) arg = q := by
  have high : q.extractLsb' 12 4 ++ q.extractLsb' 8 4 = q.extractLsb' 8 8 :=
    BitVec.extractLsb'_append_extractLsb'_eq_extractLsb' rfl
  rw [packRequest, ← BitVec.eq_of_toNat_eq hfn, bitsOf_numberOf, high, harg]
  exact BitVec.extractLsb'_append_extractLsb'

theorem packWord_of_onlyCh {w : Word} {op : BitVec 8} (hop : (opField w).toNat = op.toNat)
    (hz : (pidField w == 0 && immField w == 0) = true) : packWord op (bitsOf (numberOf (chField w))) 0 0 = w := by
  obtain ⟨hpid, himm⟩ : pidField w = 0 ∧ immField w = 0 := by simpa using hz
  exact packWord_of_fields hop rfl hpid.symm himm.symm

theorem packWord_of_onlyPid {w : Word} {op : BitVec 8} (hop : (opField w).toNat = op.toNat)
    (hz : (chField w == 0 && immField w == 0) = true) : packWord op 0 (bitsOf (numberOf (pidField w))) 0 = w := by
  obtain ⟨hch, himm⟩ : chField w = 0 ∧ immField w = 0 := by simpa using hz
  exact packWord_of_fields hop hch.symm rfl himm.symm

theorem packWord_of_chByte {w : Word} {op : BitVec 8} (hop : (opField w).toNat = op.toNat)
    (hz : (pidField w == 0 && (immField w).extractLsb' 8 8 == 0) = true) :
    packWord op (bitsOf (numberOf (chField w))) 0 (((immField w).extractLsb' 0 8).setWidth 16) = w := by
  obtain ⟨hpid, hhigh⟩ : pidField w = 0 ∧ (immField w).extractLsb' 8 8 = 0 := by simpa using hz
  exact packWord_of_fields hop rfl hpid.symm (setWidth_low_byte hhigh)

theorem packWord_of_pidByte {w : Word} {op : BitVec 8} (hop : (opField w).toNat = op.toNat)
    (hz : (chField w == 0 && (immField w).extractLsb' 8 8 == 0) = true) :
    packWord op 0 (bitsOf (numberOf (pidField w))) (((immField w).extractLsb' 0 8).setWidth 16) = w := by
  obtain ⟨hch, hhigh⟩ : chField w = 0 ∧ (immField w).extractLsb' 8 8 = 0 := by simpa using hz
  exact packWord_of_fields hop hch.symm rfl (setWidth_low_byte hhigh)

theorem packWord_of_injection {w : Word} {op : BitVec 8} (hop : (opField w).toNat = op.toNat)
    (hz : (chField w == 0 && (immField w).extractLsb' 9 7 == 0 && (immField w).extractLsb' 2 6 == 0) = true) :
    packWord op 0 (bitsOf (numberOf (pidField w)))
      (injImm (selOf ((immField w).getLsbD 8)) ((immField w).extractLsb' 0 2)) = w := by
  obtain ⟨⟨hch, hhigh⟩, hmid⟩ : (chField w = 0 ∧ (immField w).extractLsb' 9 7 = 0) ∧
      (immField w).extractLsb' 2 6 = 0 := by simpa using hz
  exact packWord_of_fields hop hch.symm rfl (injImm_of_zeros hhigh hmid)

/-- What a word of the three word ports that decodes to `i` is: the word of `i`, which is a well-formed instruction of
one of these ports. -/
structure IsWordOf (w : Word) (i : Instr) : Prop where
  encode_eq : encode i = w
  wellFormed : i.wellFormed = true
  port_ne : i.port ≠ .hardware

theorem isWordOf_of_ifZero {w : Word} {z : Bool} {i j : Instr} (h : ifZero z j = .ok i)
    (hj : z = true → IsWordOf w j) : IsWordOf w i := by
  obtain ⟨hz, rfl⟩ := ifZero_ok.mp h
  exact hj hz

/-- Each row of the opcode map fixes the opcode and leaves no bit of the word open but the operands. -/
theorem isWordOf_of_decodeWord {w : Word} {i : Instr} (h : decodeWord w = .ok i) : IsWordOf w i := by
  simp only [decodeWord] at h
  split at h
  case h_1 hop =>
    cases h
    exact ⟨packWord_of_fields hop rfl rfl rfl, rfl, nofun⟩
  case h_2 hop | h_3 hop | h_5 hop | h_6 hop | h_7 hop | h_8 hop =>
    exact isWordOf_of_ifZero h fun hz => ⟨packWord_of_onlyCh hop hz, rfl, nofun⟩
  case h_4 hop =>
    exact isWordOf_of_ifZero h fun hz => ⟨packWord_of_chByte hop hz, rfl, nofun⟩
  case h_9 hop | h_10 hop =>
    exact isWordOf_of_ifZero h fun hz => ⟨packWord_of_onlyPid hop hz, rfl, nofun⟩
  case h_11 hop =>
    exact isWordOf_of_ifZero h fun hz => ⟨packWord_of_pidByte hop hz, rfl, nofun⟩
  case h_12 hop =>
    split at h
    · cases h
    · next hst =>
      have hst : ((immField w).extractLsb' 0 2 != 3) = true := by simpa using hst
      exact isWordOf_of_ifZero h fun hz => ⟨packWord_of_injection hop hz, hst, nofun⟩
  case h_13 => cases h

theorem encode_of_decodeRequest {q : Request} {i : Instr} (h : decodeRequest q = .ok i) :
    (encode i).setWidth 16 = q ∧ i.port = .hardware := by
  simp only [decodeRequest] at h
  split at h
  case h_1 hfn =>
    obtain ⟨hz, rfl⟩ := ifZero_ok.mp h
    exact ⟨(request_setWidth _).trans (packRequest_of_fields hfn (arg_of_nibble (beq_iff_eq.mp hz))), rfl⟩
  case h_2 hfn =>
    cases h
    exact ⟨(request_setWidth _).trans (packRequest_of_fields hfn rfl), rfl⟩
  case h_3 hfn | h_4 hfn =>
    obtain ⟨hz, rfl⟩ := ifZero_ok.mp h
    exact ⟨(request_setWidth _).trans (packRequest_of_fields hfn (beq_iff_eq.mp hz).symm), rfl⟩
  case h_5 => cases h

/-! ### The shape of the words that decode -/

theorem packWord_op (op : BitVec 8) : packWord op 0 0 0 = op.setWidth 32 <<< 24 := by
  apply BitVec.eq_of_toNat_eq
  have := op.isLt
  simp only [packWord, BitVec.toNat_append, BitVec.toNat_shiftLeft, BitVec.toNat_setWidth, Nat.shiftLeft_eq]
  simp only [BitVec.ofNat_eq_ofNat, BitVec.toNat_ofNat, Nat.zero_mod, Nat.or_zero]
  omega

/-- A mask that covers the opcode and no bit set in the operands leaves the opcode alone. -/
theorem packWord_and_mask {op : BitVec 8} {ch pid mch mpid : BitVec 4} {imm mimm : BitVec 16}
    (hch : ch &&& mch = 0) (hpid : pid &&& mpid = 0) (himm : imm &&& mimm = 0) :
    packWord op ch pid imm &&& packWord 0xFF mch mpid mimm =
      (opField (packWord op ch pid imm)).setWidth 32 <<< 24 := by
  have hop : op &&& 0xFF = op := BitVec.and_allOnes
  have fields : (op ++ ch ++ pid ++ imm) &&& ((0xFF : BitVec 8) ++ mch ++ mpid ++ mimm) =
      (op &&& 0xFF) ++ (ch &&& mch) ++ (pid &&& mpid) ++ (imm &&& mimm) := by
    simp only [BitVec.and_append]
  rw [hop, hch, hpid, himm] at fields
  rw [opField_packWord]
  exact fields.trans (packWord_op op)

theorem byte_and_high_mask (b : Byte) : b.setWidth 16 &&& 0xFF00 = 0 := by
  have parts : b.setWidth 16 = 0#8 ++ b := BitVec.setWidth_eq_append (by decide)
  have mask : (0xFF00 : BitVec 16) = 0xFF#8 ++ 0#8 := by decide
  rw [parts, mask, BitVec.and_append, BitVec.zero_and, BitVec.and_zero]
  decide

theorem injImm_and_mask (sel : InjSel) (st : BitVec 2) : injImm sel st &&& 0xFEFC = 0 := by
  cases sel <;> revert st <;> decide

/-- The mask of a format, field by field: the fields the format leaves to operands are masked out, and the bits it
keeps beside the opcode are zero in the word. -/
theorem encode_and_mask {i : Instr} (hp : i.port ≠ .hardware) :
    encode i &&& i.format.mask = (opField (encode i)).setWidth 32 <<< 24 := by
  cases i with
  | hwReceiveArm | hwTransmitByte | hwIsReady | hwUnlockAndAbortReceive => exact absurd rfl hp
  | construct =>
    exact packWord_and_mask (mch := 0) (mpid := 0) (mimm := 0) BitVec.and_zero BitVec.and_zero BitVec.and_zero
  | beginCh | read | avail | rcount | flushRx | flushTx =>
    exact packWord_and_mask (mch := 0) (mpid := 0xF) (mimm := 0xFFFF) BitVec.and_zero BitVec.zero_and BitVec.zero_and
  | write c b =>
    exact packWord_and_mask (mch := 0) (mpid := 0xF) (mimm := 0xFF00) BitVec.and_zero BitVec.zero_and
      (byte_and_high_mask b)
  | irqRx | irqTx =>
    exact packWord_and_mask (mch := 0xF) (mpid := 0) (mimm := 0xFFFF) BitVec.zero_and BitVec.and_zero BitVec.zero_and
  | hwrxd k b =>
    exact packWord_and_mask (mch := 0xF) (mpid := 0) (mimm := 0xFF00) BitVec.zero_and BitVec.and_zero
      (byte_and_high_mask b)
  | hwinj k sel st =>
    exact packWord_and_mask (mch := 0xF) (mpid := 0) (mimm := 0xFEFC) BitVec.zero_and BitVec.and_zero
      (injImm_and_mask sel st)

/-! ### The obligations -/

/-- Settles O3: the hardware port takes the request word, and each of the others its own instructions' words. -/
theorem decodeOfEncodeIsTheInstruction : Obligations.DecodeOfEncodeIsTheInstruction := by
  intro i hw
  by_cases hp : i.port = .hardware
  · rw [hp]
    exact decodeRequest_encode hp
  · exact (decodeOn_ok hp).mpr ⟨decodeWord_encode hw hp, rfl⟩

/-- Settles O4: a word port reads with `decodeWord`, and refuses what belongs to another port. -/
theorem onlyEncodedWordsDecode : Obligations.OnlyEncodedWordsDecode := by
  refine ⟨fun p w i hp h => ?_, fun q i h => encode_of_decodeRequest h⟩
  obtain ⟨hd, hi⟩ := (decodeOn_ok hp).mp h
  obtain ⟨hw, hwf, -⟩ := isWordOf_of_decodeWord hd
  exact ⟨hw, hwf, hi⟩

/-- Settles O5: a word that decodes is packed field by field, and the mask acts field by field. -/
theorem decodedWordsHaveTheirFormatsShape : Obligations.DecodedWordsHaveTheirFormatsShape := by
  intro w i h
  obtain ⟨rfl, -, hp⟩ := isWordOf_of_decodeWord h
  exact encode_and_mask hp

end Sys2Proof
end

