-- ==== Sys2Proof/Proofs/PortWords.lean ====
section
/-! Words on their ports: a word that decodes is placed where the next step runs it, an illegal one changes nothing
(30_encoding.md R90, R95), and the words of the tables decode (R94, R99). -/

namespace Sys2Proof.Machine

/-! ### Illegal words -/

theorem commandWord_of_error {w : Word} {e : DecodeError} (h : decodeOn .command w = .error e) (s : State) :
    commandWord w s = .next { s with results := s.results ++ [0x05000000] } := by
  have code : resultWord .illegal 0 = 0x05000000 := by decide
  simp only [commandWord, h, State.putResult, code]

theorem eventWord_of_error {p : Port} {w : Word} {e : DecodeError} (h : decodeOn p w = .error e) (s : State) :
    eventWord p w s = .next s := by
  simp only [eventWord, h]

/-! ### Where a placed word stands -/

theorem portField (i : Instr) : Laws.PortField.Statement i := by
  cases i with
  | construct => exact Laws.PortField.construct ..
  | beginCh => exact Laws.PortField.beginCh _
  | read => exact Laws.PortField.read _
  | write => exact Laws.PortField.write ..
  | avail => exact Laws.PortField.avail _
  | rcount => exact Laws.PortField.rcount _
  | flushRx => exact Laws.PortField.flushRx _
  | flushTx => exact Laws.PortField.flushTx _
  | irqRx => exact Laws.PortField.irqRx _
  | irqTx => exact Laws.PortField.irqTx _
  | hwrxd => exact Laws.PortField.hwrxd ..
  | hwinj => exact Laws.PortField.hwinj ..
  | hwReceiveArm => exact Laws.PortField.hwReceiveArm ..
  | hwTransmitByte => exact Laws.PortField.hwTransmitByte ..
  | hwIsReady => exact Laws.PortField.hwIsReady _
  | hwUnlockAndAbortReceive => exact Laws.PortField.hwUnlockAndAbortReceive _

theorem decodeTableWord_request {w : Nat} {i : Instr} (h : decodeTableWord 16 w = some i) :
    decodeRequest (BitVec.ofNat 16 w) = .ok i := by
  simp only [decodeTableWord, if_true] at h
  split at h
  · next hd => cases h; exact hd
  · cases h

theorem decodeTableWord_word {w : Nat} {i : Instr} (h : decodeTableWord 32 w = some i) :
    decodeWord (BitVec.ofNat 32 w) = .ok i := by
  simp only [decodeTableWord, Nat.reduceEqDiff, if_false] at h
  split at h
  · next hd => cases h; exact hd
  · cases h

theorem faulted_withFetchWord (s : State) (nbits w : Nat) : (s.withFetchWord nbits w).faulted = s.faulted := by
  unfold State.withFetchWord placeWord
  split
  · rfl
  · dsimp only
    split <;> rfl

/-- `s` with a word put where the next step takes it from the port `p`; `withFetchWord_eq_placedOn` ties it to the
model. -/
def State.placedOn (s : State) (w : Word) : Port → State
  | .command | .hardware => { s with upc := .idle, cmdQ := .word w :: s.cmdQ, turns := .normal :: s.turns }
  | .interrupt => { s with turns := .interrupt w :: s.turns }
  | .environment => { s with turns := .environment w :: s.turns }

/-- The opcode of an instruction's word names the instruction's port, and the word is placed there. -/
theorem withFetchWord_eq_placedOn {i : Instr} {w : Nat} (s : State) (he : encode i = BitVec.ofNat 32 w)
    (hp : i.port ≠ .hardware) : s.withFetchWord 32 w = s.placedOn (BitVec.ofNat 32 w) i.port := by
  have field := portField i
  rw [Laws.PortField.Statement, he] at field
  cases hi : i.port with
  | hardware => exact absurd hi hp
  | command | interrupt | environment =>
    simp only [hi] at field
    simp [State.withFetchWord, placeWord, State.placedOn, field]

/-! ### The obligations -/

/-- Settles O2: sixteen closed words, each decoded by evaluation. -/
theorem wordsDecodeAsTheTablesSay : Obligations.WordsDecodeAsTheTablesSay := by
  unfold Obligations.WordsDecodeAsTheTablesSay
  decide

/-- Settles O6: the turn takes the word from the queue or the turn list, and the decoder refuses it. -/
theorem illegalWordsChangeNothing : Obligations.IllegalWordsChangeNothing := by
  intro s w e ts hf
  refine ⟨fun q hw hu hq ht => ?command, fun hw ht => ?interrupt, fun hw ht => ?environment⟩
  case command =>
    rw [step_of_normalTurn hf ht, normalTurn_of_word (s := { s with turns := ts }) hu hq, commandWord_of_error hw]
  case interrupt => rw [step_of_interrupt hf ht, eventWord_of_error hw]
  case environment => rw [step_of_environment hf ht, eventWord_of_error hw]

/-- Settles O8: a word that decodes is its instruction's word, so it is placed on its instruction's port; the step then
runs what the placed word decodes to. -/
theorem placedWordIsRunByTheNextStep : Obligations.PlacedWordIsRunByTheNextStep := by
  intro s nbits w i hf hn hd
  obtain ⟨command, -, interrupt, environment, hardware⟩ := stepRunsTheDecodedInstruction (s.withFetchWord nbits w) i
    s.turns ((faulted_withFetchWord s nbits w).trans hf)
  rcases hn with rfl | rfl
  · have hw := decodeTableWord_word hd
    obtain ⟨he, -, hne⟩ := isWordOf_of_decodeWord hw
    have on {p : Port} (hp : i.port = p) : decodeOn p (BitVec.ofNat 32 w) = .ok i :=
      (decodeOn_ok (hp ▸ hne)).mpr ⟨hw, hp⟩
    rw [withFetchWord_eq_placedOn s he hne] at command interrupt environment ⊢
    cases hp : i.port with
    | command =>
      rw [hp] at command
      exact command _ s.cmdQ (on hp) rfl rfl (.inr rfl)
    | interrupt =>
      rw [hp] at interrupt
      exact interrupt _ (on hp) rfl
    | environment =>
      rw [hp] at environment
      exact environment _ (on hp) rfl
    | hardware => exact absurd hp hne
  · have hq := decodeTableWord_request hd
    obtain ⟨-, hp⟩ := encode_of_decodeRequest hq
    rw [hp]
    exact hardware _ hq rfl

end Sys2Proof.Machine
end

