-- ==== Sys2Proof/Proofs/Writen.lean ====
section
/-! The issuer's turns of WRITEN while no command is in progress (41_channel_commands.md R145). -/

namespace Sys2Proof.Machine

/-- The status field of a result word is its top byte (30_encoding.md R97), and OK is 0. -/
theorem statusField_eq_ok_iff {r : Word} : statusField r = Status.ok.code ↔ r >>> 24 = 0 := by
  rw [← BitVec.toNat_inj, ← BitVec.toNat_inj]
  have := r.isLt
  simp [statusField, Status.code, Nat.shiftRight_eq_div_pow]
  omega

theorem lastOk_iff {s : State} {rs : List Word} {r : Word} (h : s.results = rs ++ [r]) :
    s.lastOk = true ↔ r >>> 24 = 0 := by
  rw [State.lastOk, h, List.getLast?_concat]
  simp [statusField_eq_ok_iff]

section
variable {s : State} {c : Slot} {b : Byte} {bs : List Byte} {n : Nat} {q : List Issue}

theorem normalTurn_of_writen (hu : s.upc = .idle) (hq : s.cmdQ = .writen c bs n :: q) :
    normalTurn s = issueWriten c bs n q s := by
  simp only [normalTurn, Upc.command_eq_none.mpr hu, issueNext, hq]

theorem normalTurn_of_writenAsked_ok (hu : s.upc = .idle) (hq : s.cmdQ = .writenAsked c bs n :: q)
    (ho : s.lastOk = true) : normalTurn s = issueWriten c bs (n + 1) q s := by
  simp only [normalTurn, Upc.command_eq_none.mpr hu, issueNext, hq, if_pos ho]

theorem normalTurn_of_writenAsked_failed (hu : s.upc = .idle) (hq : s.cmdQ = .writenAsked c bs n :: q)
    (ho : ¬ s.lastOk = true) : normalTurn s = endWriten n q s := by
  simp only [normalTurn, Upc.command_eq_none.mpr hu, issueNext, hq, if_neg ho]

theorem issueWriten_nil : issueWriten c [] n q s = .next { s with cmdQ := q, counts := s.counts ++ [n] } := rfl

theorem issueWriten_cons (hu : s.upc = .idle) :
    issueWriten c (b :: bs) n q s = .next { s with cmdQ := .writenAsked c bs n :: q, upc := .write1 c b } :=
  runCommand_of_idle (s := { s with cmdQ := .writenAsked c bs n :: q }) hu

end

/-- Settles O26: the step is the issuer's turn, which issues the next WRITE or ends with the count; an entry that waits
for an answer takes the way the last result word names. -/
theorem writenIssuesUntilTheFirstFailure : Obligations.WritenIssuesUntilTheFirstFailure := by
  intro s c n b bs r rs q ts hf hu ht
  rw [step_of_normalTurn hf ht]
  have idle : ({ s with turns := ts } : State).upc = .idle := hu
  refine ⟨fun hq => ?ends, fun hq => ?issues, fun hq hr hok => ?goesOn, fun hq hr hok => ?endsAfterOk,
    fun hq hr hne => ?stops⟩
  case ends => rw [normalTurn_of_writen idle hq, issueWriten_nil]
  case issues => rw [normalTurn_of_writen idle hq, issueWriten_cons idle]
  case goesOn =>
    rw [normalTurn_of_writenAsked_ok idle hq ((lastOk_iff hr).mpr hok), issueWriten_cons idle]
  case endsAfterOk =>
    rw [normalTurn_of_writenAsked_ok idle hq ((lastOk_iff hr).mpr hok), issueWriten_nil]
  case stops =>
    rw [normalTurn_of_writenAsked_failed idle hq (mt (lastOk_iff hr).mp hne)]
    rfl

end Sys2Proof.Machine
end

