-- ==== Sys2Proof/Proofs/BufferQueue.lean ====
section
/-! A buffer refines a queue (20_memory.md R79): `push` appends and `pop` takes the oldest byte (40_buffer_engine.md
R121, R122), so over every sequence of complete primitives the bytes come out in the order they went in (R129). -/

namespace Sys2Proof.Machine

section
variable {s t : State} {b : Buf}

/-! ### FULL and EMPTY in terms of the queue -/

theorem isFullAt_iff_length_contents (h : s.bufOk b = true) :
    isFullAt (s.head b) (s.tail b) (s.cap b.c) = true ↔ ¬(contents b s).length + 1 < (s.cap b.c).toNat := by
  have hh := head_lt_cap h
  obtain ⟨-, -, hle, -, hfull⟩ := occupancyIsBetweenEmptyAndFull _ _ _ hh (tail_lt_cap h)
  rw [contents_length, ← hfull]
  omega

theorem contents_eq_nil_iff (h : s.bufOk b = true) : contents b s = [] ↔ s.head b = s.tail b := by
  obtain ⟨-, -, -, hempty, -⟩ := occupancyIsBetweenEmptyAndFull _ _ _ (head_lt_cap h) (tail_lt_cap h)
  rw [← List.length_eq_zero_iff, contents_length, hempty, isEmptyAt, beq_iff_eq]

theorem length_contents_le (h : s.bufOk b = true) : (contents b s).length ≤ (s.cap b.c).toNat - 1 := by
  have := occupancyAt_lt (head_lt_cap h) (tail_lt_cap h)
  rw [contents_length]
  omega

/-! ### The queue over one complete primitive -/

/-- A push that completes appends its byte where it is accepted, and leaves the queue as it is where it is not. -/
theorem contents_of_push {v : Byte} {r : Bool} (h : push b v s = .ok (r, t)) :
    contents b t = contents b s ++ (if r then [some v] else []) ∧ t.bufOk b = true ∧ t.cap b.c = s.cap b.c := by
  obtain ⟨hb, ⟨-, rfl, rfl⟩ | ⟨hf, rfl, rfl⟩⟩ := push_ok h
  · exact ⟨by simp, hb, rfl⟩
  · obtain ⟨hq, hok, hcap, -⟩ := contents_pushed hb hf
    exact ⟨hq, hok, hcap _⟩

/-- A pop that completes takes the byte it answers off the front of the queue. -/
theorem contents_of_pop {r : Option Byte} (h : pop b s = .ok (r, t)) :
    contents b s = r.toList.map some ++ contents b t ∧ t.bufOk b = true ∧ t.cap b.c = s.cap b.c := by
  obtain ⟨hb, ⟨-, rfl, rfl⟩ | ⟨hne, v, hv, rfl, rfl⟩⟩ := pop_ok h
  · exact ⟨rfl, hb, rfl⟩
  · obtain ⟨hq, hok, hcap, -⟩ := contents_popped hb hne
    exact ⟨by rw [hq, hv]; rfl, hok, hcap _⟩

/-! ### The queue over a sequence of complete primitives -/

variable {ops : List BufOp} {accepted popped : List Byte}

theorem runBuf_push_ok {v : Byte} (h : runBuf b (.push v :: ops) s = .ok (accepted, popped, t)) :
    ∃ r u rest, push b v s = .ok (r, u) ∧ runBuf b ops u = .ok (rest, popped, t) ∧
      accepted = (if r then [v] else []) ++ rest := by
  simp only [runBuf, bind, Except.bind, pure, Except.pure] at h
  split at h
  · cases h
  · next p hp =>
    split at h
    · cases h
    · next q hq =>
      cases h
      exact ⟨p.1, p.2, q.1, hp, hq, by split <;> rfl⟩

theorem runBuf_pop_ok (h : runBuf b (.pop :: ops) s = .ok (accepted, popped, t)) :
    ∃ r u rest, pop b s = .ok (r, u) ∧ runBuf b ops u = .ok (accepted, rest, t) ∧ popped = r.toList ++ rest := by
  simp only [runBuf, bind, Except.bind, pure, Except.pure] at h
  split at h
  · cases h
  · next p hp =>
    split at h
    · cases h
    · next q hq =>
      cases h
      exact ⟨p.1, p.2, q.2.1, hp, hq, rfl⟩

/-- The refinement, by induction on the sequence: each primitive keeps "held, then accepted, is popped, then held", and
the indices in range of an unchanged capacity. -/
theorem contents_of_runBuf (hb : s.bufOk b = true) (h : runBuf b ops s = .ok (accepted, popped, t)) :
    contents b s ++ accepted.map some = popped.map some ++ contents b t ∧ t.bufOk b = true ∧
      t.cap b.c = s.cap b.c := by
  induction ops generalizing s accepted popped with
  | nil =>
    cases h
    exact ⟨by simp, hb, rfl⟩
  | cons op ops ih =>
    cases op with
    | push v =>
      obtain ⟨r, u, rest, hpush, hrun, rfl⟩ := runBuf_push_ok h
      obtain ⟨hu, hub, hucap⟩ := contents_of_push hpush
      obtain ⟨hq, htb, hcap⟩ := ih hub hrun
      refine ⟨?_, htb, hcap.trans hucap⟩
      calc contents b s ++ ((if r then [v] else []) ++ rest).map some
          = contents b u ++ rest.map some := by rw [hu]; cases r <;> simp
        _ = popped.map some ++ contents b t := hq
    | pop =>
      obtain ⟨r, u, rest, hpop, hrun, rfl⟩ := runBuf_pop_ok h
      obtain ⟨hu, hub, hucap⟩ := contents_of_pop hpop
      obtain ⟨hq, htb, hcap⟩ := ih hub hrun
      refine ⟨?_, htb, hcap.trans hucap⟩
      calc contents b s ++ accepted.map some
          = r.toList.map some ++ (contents b u ++ accepted.map some) := by rw [hu, List.append_assoc]
        _ = (r.toList ++ rest).map some ++ contents b t := by rw [hq, List.map_append, List.append_assoc]

end

/-! ### The obligations -/

/-- Settles O45: the refinement of a queue holds over the whole sequence, and indices in range hold at most `N - 1`
bytes. -/
theorem buffersAreFifoQueues : Obligations.BuffersAreFifoQueues := by
  intro b ops s t accepted popped hb h
  obtain ⟨hq, htb, hcap⟩ := contents_of_runBuf hb h
  exact ⟨hq, htb, hcap ▸ length_contents_le htb⟩

/-- Settles O44: the number of bytes held decides between FULL and not, EMPTY and not; what the primitive then does to
the queues is the law of the state it leaves. -/
theorem pushAppendsAndPopTakesTheOldest : Obligations.PushAppendsAndPopTakesTheOldest := by
  intro s b v hb
  refine ⟨fun hroom => ?room, fun hfull => ?full, fun w rest hq => ?oldest, fun hq => ?empty⟩
  case room =>
    have hf := mt (isFullAt_iff_length_contents hb).mp (not_not.mpr hroom)
    obtain ⟨happ, hok, -, hothers⟩ := contents_pushed (v := v) hb (Bool.eq_false_iff.mpr hf)
    exact ⟨_, by rw [push_of_bufOk v hb, if_neg hf], happ, hok, hothers⟩
  case full => rw [push_of_bufOk v hb, if_pos ((isFullAt_iff_length_contents hb).mpr hfull)]
  case oldest =>
    have hne : s.head b ≠ s.tail b := fun he => by simp [(contents_eq_nil_iff hb).mpr he] at hq
    obtain ⟨hcons, hok, -, hothers⟩ := contents_popped hb hne
    obtain ⟨hw, hrest⟩ := List.cons.inj (hcons.symm.trans hq)
    exact ⟨_, pop_of_written hb hne hw, hrest, hok, setTail_mem .., hothers⟩
  case empty => exact pop_of_empty hb ((contents_eq_nil_iff hb).mp hq)

end Sys2Proof.Machine
end

