-- ==== Sys2Proof/Proofs/ChannelSelection.lean ====
section
/-! The turn of a command in progress by its micro-step, and the refusal of a slot that holds no channel
(41_channel_commands.md R140). -/

namespace Sys2Proof.Machine

/-! ### A turn that ends its micro-step, and turns in a row -/

theorem runCommand_of_micro {i : Instr} {first : Upc} {micro : State → Except Stop State} {s t : State}
    (hc : s.upc.command = some i) (hm : micro s = .ok t) : runCommand i first micro s = .next t := by
  rw [runCommand_of_running hc, hm]
  rfl

/-- A micro-step of one access: the access answers `a`, and `t` is what follows. -/
theorem runCommand_of_access {α : Type} {i : Instr} {first : Upc} {micro : State → Except Stop State}
    {x : Except Stop α} {f : α → Except Stop State} {a : α} {s t : State} (hc : s.upc.command = some i)
    (hm : micro s = x >>= f) (hx : x = .ok a) (hf : f a = .ok t) : runCommand i first micro s = .next t :=
  runCommand_of_micro hc (by rw [hm, hx]; exact hf)

/-- The same for a first micro-step, which selects its channel before the access. -/
theorem runCommand_of_selected {α : Type} {i : Instr} {first : Upc} {micro : State → Except Stop State}
    {x : Except Stop α} {f : α → Except Stop State} {a : α} {s t : State} {c : Slot} (hs : s.selects c = true)
    (hc : s.upc.command = some i) (hm : micro s = selecting c (x >>= f) s) (hx : x = .ok a) (hf : f a = .ok t) :
    runCommand i first micro s = .next t :=
  runCommand_of_access hc (hm.trans (selecting_of_selects _ hs)) hx hf

/-- `n` turns, and `m` turns after them. -/
theorem turnsOf_add {i : Instr} {n m : Nat} {s t : State} {r : Res} (h : turnsOf i n s = .next t)
    (hr : turnsOf i m t = r) : turnsOf i (m + n) s = r := by
  induction n generalizing s with
  | zero =>
    cases h
    exact hr
  | succ n ih =>
    cases he : exec i s with
    | next u =>
      simp only [turnsOf, he] at h
      exact turnsOf_succ he (ih h)
    | fault f => simp [turnsOf, he] at h
    | refused x => simp [turnsOf, he] at h

/-- From `UPC = idle`, a result word is all that the end of a command leaves. -/
theorem endCommand_of_idle {s : State} (h : s.upc = .idle) (st : Status) (v : BitVec 16) :
    s.endCommand st v = { s with results := s.results ++ [resultWord st v] } := by
  show { s with upc := .idle, results := s.results ++ [resultWord st v] } = _
  rw [← h]

/-! ### No channel in the slot -/

theorem selects_eq_false_iff (s : State) (c : Slot) :
    s.selects c = false ↔ s.par.nch ≤ c.val ∨ (s.chan c).valid = false := by
  rw [← Bool.not_eq_true, selects_iff, not_and_or, Nat.not_lt, Bool.not_eq_true]

/-- A first micro-step that selects its channel ends with NOCHAN where there is none, whatever would follow. -/
theorem runCommand_nochan {i : Instr} {first : Upc} {micro : State → Except Stop State} {k : Except Stop State}
    {s : State} {c : Slot} (hs : s.selects c = false) (hc : s.upc.command = some i)
    (hm : micro s = selecting c k s) : runCommand i first micro s = .next (s.endCommand .nochan 0) :=
  runCommand_of_micro hc (by simp [hm, selecting, hs])

/-- Settles O10: the first micro-step of each of the seven commands is channel selection. -/
theorem commandsOnNoChannelAreRefused : Obligations.CommandsOnNoChannelAreRefused := by
  intro s c b hno
  have hs := (selects_eq_false_iff s c).mpr hno
  refine ⟨fun hu => ?begin, fun hu => ?read, fun hu => ?write, fun hu => ?avail, fun hu => ?rcount,
    fun hu => ?flushRx, fun hu => ?flushTx⟩
  case begin => exact runCommand_nochan hs (by rw [hu]; rfl) (by rw [beginMicro, hu])
  case read => exact runCommand_nochan hs (by rw [hu]; rfl) (by rw [readMicro, hu])
  case write => exact runCommand_nochan hs (by rw [hu]; rfl) (by rw [writeMicro, hu])
  case avail => exact runCommand_nochan hs (by rw [hu]; rfl) (by rw [availMicro, hu])
  case rcount => exact runCommand_nochan hs (by rw [hu]; rfl) (by rw [rcountMicro, hu])
  case flushRx => exact runCommand_nochan hs (by rw [hu]; rfl) (by rw [flushRxMicro, hu])
  case flushTx => exact runCommand_nochan hs (by rw [hu]; rfl) (by rw [flushTxMicro, hu])

end Sys2Proof.Machine
end

