-- ==== Sys2Proof/Proofs/ConstructBegin.lean ====
section
/-! CONSTRUCT and BEGIN, each at its one micro-step (41_channel_commands.md R141, R142). -/

namespace Sys2Proof.Machine

/-! ### CONSTRUCT -/

/-- The state a construction leaves before the command ends: the slot's registers and the registry entry. -/
def constructed (c : Slot) (k : Pid) (n : Idx) (s : State) : State :=
  register k c (s.setChan c { valid := true, handle := k, cap := n, rxh := 0, rxt := 0, txh := 0, txt := 0 })

theorem exec_construct_of_construct1 {s : State} {c : Slot} {k : Pid} {n : Idx} (hu : s.upc = .construct1 c k n) :
    exec (.construct c k n) s = .next (if constructRejected c k n s then s.endCommand .rejected 0
      else (constructed c k n s).endCommand .ok 0) := by
  refine runCommand_of_micro (by rw [hu]; rfl) ?_
  rw [constructMicro, hu]
  exact (apply_ite Except.ok _ _ _).symm

theorem constructRejected_iff {c : Slot} {k : Pid} {n : Idx} {s : State} :
    constructRejected c k n s = true ↔
      s.par.nch ≤ c.val ∨ (s.chan c).valid = true ∨ s.par.np ≤ k.val ∨ n = 0 := by
  simp [constructRejected, or_assoc]

/-- Settles O11: the four refusals decide, and the frame is that of two register writes. -/
theorem constructBuildsTheChannelOrIsRejected : Obligations.ConstructBuildsTheChannelOrIsRejected := by
  intro s c k n hu
  rw [exec_construct_of_construct1 hu]
  refine ⟨fun hc hv hk hn => ?built, fun hr => ?rejected⟩
  case built =>
    have hpos : 0 < n.toNat := Nat.pos_of_ne_zero fun h0 => hn (BitVec.eq_of_toNat_eq h0)
    rw [constructRejected_eq_false.mpr ⟨hc, hv, hk, hpos⟩]
    exact ⟨_, rfl, chan_setChan_same .., fun d hd => chan_setChan_ne _ _ hd, regAt_setReg_same ..,
      fun j hj => regAt_setReg_ne _ _ hj, rfl, rfl, fun _ _ => rfl, ⟨rfl, rfl, rfl, rfl⟩, ⟨rfl, rfl, rfl, rfl⟩⟩
  case rejected =>
    rw [if_pos (constructRejected_iff.mpr hr)]
    rfl

/-! ### BEGIN -/

/-- BEGIN on a constructed channel returns OK once its arm request has an answer, whatever the answer is. -/
theorem exec_begin_of_answer {s t : State} {c : Slot} {st : HwStatus} (hu : s.upc = .begin1 c)
    (hs : s.selects c = true) (ha : hwReceiveArm (s.chan c).handle c s = .ok (st, t)) :
    exec (.beginCh c) s = .next (t.endCommand .ok 0) :=
  runCommand_of_selected hs (by rw [hu]; rfl) (by rw [beginMicro, hu]) ha (by rfl)

/-- Settles O12: with nothing armed and no failure forced the request arms. -/
theorem beginArmsTheScratchByte : Obligations.BeginArmsTheScratchByte := by
  intro s c rest hu hc hv hp hm harm hf
  have ha := hwReceiveArm_arms (c := c) (answersByReference_of hp hm) (takeForced_none.mpr hf) harm
  exact ⟨_, exec_begin_of_answer hu (selects_of hc hv) ha, rfl, periph_setPeriph_same ..,
    fun q hq => periph_setPeriph_ne _ _ hq, rfl, rfl, rfl, rfl, rfl, rfl, fun _ _ => rfl, ⟨rfl, rfl, rfl, rfl⟩⟩

/-- A free layer answers an arm request, and a forced failure is an answer. -/
theorem hwReceiveArm_answers {s : State} {p : Pid} {c : Slot}
    (h : s.par.hwModel = .free ∨ ∃ st rest, (s.periph p).injRx = st :: rest ∧ st ≠ .ok) :
    ∃ st t, hwReceiveArm p c s = .ok (st, t) := by
  cases hr : s.answersByReference p with
  | false => exact ⟨_, _, hwReceiveArm_free hr⟩
  | true =>
    rcases h with hm | ⟨st, rest, hi, hst⟩
    · rw [answersByReference_free hm] at hr
      cases hr
    · exact ⟨_, _, hwReceiveArm_forced hr hi hst⟩

/-- Settles O13: the answer, whichever it is, goes into the record and nowhere else. -/
theorem beginReturnsOkWhateverTheLayerAnswers : Obligations.BeginReturnsOkWhateverTheLayerAnswers := by
  intro s c hu hc hv h
  obtain ⟨st, t, ha⟩ := hwReceiveArm_answers (c := c) h
  obtain ⟨hl, -⟩ := hwReceiveArm_ok ha
  refine ⟨t.endCommand .ok 0, st, exec_begin_of_answer hu (selects_of hc hv) ha, ?_, rfl, ?_, hl.block.chans, hl.block.reg,
    hl.byteAt⟩
  · rw [endCommand_hwlog, hwReceiveArm_hwlog ha]
  · rw [endCommand_results, hl.results]
    rfl

end Sys2Proof.Machine
end

