-- ==== Sys2Proof/Proofs/ReceiveCommands.lean ====
section
/-! READ, AVAIL and RCOUNT: one equation per micro-step (41_channel_commands.md R143, R146, R147), then the commands
with nothing in between as runs of these equations. -/

namespace Sys2Proof.Machine

section
variable {s : State} {c : Slot}

/-! ### READ, step by step -/

theorem isEmptyAt_iff_eq {h t : Idx} : isEmptyAt h t = true ↔ h = t := beq_iff_eq

theorem exec_read_loads_head (hu : s.upc = .read1 c) (hs : s.selects c = true) (hb : s.bufOk ⟨c, .rx⟩ = true) :
    exec (.read c) s = .next (s.setUpc (.read2 c (s.chan c).rxh)) :=
  runCommand_of_selected hs (by rw [hu]; rfl) (by rw [readMicro, hu]) (loadHead_of_bufOk hb) (by rfl)

theorem exec_read_loads_tail {h : Idx} (hu : s.upc = .read2 c h) (hb : s.bufOk ⟨c, .rx⟩ = true) :
    exec (.read c) s = .next (if isEmptyAt h (s.chan c).rxt then s.endCommand .empty 0
      else s.setUpc (.read3 c h (s.chan c).rxt)) :=
  runCommand_of_access (by rw [hu]; rfl) (by rw [readMicro, hu]) (loadTail_of_bufOk hb) (by rfl)

theorem exec_read_empty {h : Idx} (hu : s.upc = .read2 c h) (hb : s.bufOk ⟨c, .rx⟩ = true)
    (he : h = (s.chan c).rxt) : exec (.read c) s = .next (s.endCommand .empty 0) := by
  rw [exec_read_loads_tail hu hb, if_pos (isEmptyAt_iff_eq.mpr he)]

theorem exec_read_nonEmpty {h : Idx} (hu : s.upc = .read2 c h) (hb : s.bufOk ⟨c, .rx⟩ = true)
    (hne : h ≠ (s.chan c).rxt) : exec (.read c) s = .next (s.setUpc (.read3 c h (s.chan c).rxt)) := by
  rw [exec_read_loads_tail hu hb, if_neg (mt isEmptyAt_iff_eq.mp hne)]

theorem exec_read_loads_byte {h t : Idx} {v : Byte} (hu : s.upc = .read3 c h t) (hb : s.bufOk ⟨c, .rx⟩ = true)
    (ht : t.toNat < (s.chan c).cap.toNat) (hv : s.byteAt (.rxmem c) t = some v) :
    exec (.read c) s = .next (s.setUpc (.read4 c h t v)) := by
  rw [exec_read_of_read3 hu, loadByte_ok.mpr ⟨hb, ht, hv⟩]
  rfl

theorem exec_read_advances_tail {h t : Idx} {v : Byte} (hu : s.upc = .read4 c h t v)
    (hb : s.bufOk ⟨c, .rx⟩ = true) : exec (.read c) s =
      .next ((s.setTail ⟨c, .rx⟩ (idxSucc t (s.cap c))).endCommand .ok (v.setWidth 16)) :=
  runCommand_of_access (by rw [hu]; rfl) (by rw [readMicro, hu]) (advanceTail_ok.mpr ⟨hb, rfl⟩) (by rfl)

/-! ### READ with nothing in between -/

/-- The five turns of READ on a non-empty buffer: the start, both indices, the byte, and the store of `RXT`. -/
theorem turnsOf_read_of_written {v : Byte} (hu : s.upc = .idle) (hs : s.selects c = true)
    (hb : s.bufOk ⟨c, .rx⟩ = true) (hne : (s.chan c).rxh ≠ (s.chan c).rxt)
    (hv : s.byteAt (.rxmem c) (s.chan c).rxt = some v) :
    turnsOf (.read c) 5 s = .next ((popped ⟨c, .rx⟩ s).endCommand .ok (v.setWidth 16)) :=
  turnsOf_succ (runCommand_of_idle hu) <|
    turnsOf_succ (exec_read_loads_head rfl hs hb) <|
      turnsOf_succ (exec_read_nonEmpty rfl hb hne) <|
        turnsOf_succ (exec_read_loads_byte rfl hb (tail_lt_cap hb) hv) <|
          turnsOf_succ (exec_read_advances_tail rfl hb) rfl

/-- The three turns of READ on an empty buffer. -/
theorem turnsOf_read_of_empty (hu : s.upc = .idle) (hs : s.selects c = true) (hb : s.bufOk ⟨c, .rx⟩ = true)
    (he : (s.chan c).rxh = (s.chan c).rxt) : turnsOf (.read c) 3 s = .next (s.endCommand .empty 0) :=
  turnsOf_succ (runCommand_of_idle hu) <|
    turnsOf_succ (exec_read_loads_head rfl hs hb) <|
      turnsOf_succ (exec_read_empty rfl hb he) rfl

/-- READ is `pop` on the RX buffer, and returns what `pop` answers. -/
theorem turnsOf_read_of_pop {t : State} {v : Byte} (hu : s.upc = .idle) (hs : s.selects c = true)
    (h : pop ⟨c, .rx⟩ s = .ok (some v, t)) :
    turnsOf (.read c) 5 s = .next { t with results := s.results ++ [v.setWidth 32] } := by
  obtain ⟨hb, ⟨-, hr, -⟩ | ⟨hne, w, hw, hr, rfl⟩⟩ := pop_ok h
  · cases hr
  · cases hr
    have hi : (popped ⟨c, .rx⟩ s).upc = .idle := hu
    rw [turnsOf_read_of_written hu hs hb hne hw, endCommand_of_idle hi, resultWord_ok_byte]
    rfl

theorem turnsOf_read_of_pop_none {t : State} (hu : s.upc = .idle) (hs : s.selects c = true)
    (h : pop ⟨c, .rx⟩ s = .ok (none, t)) :
    turnsOf (.read c) 3 s = .next { t with results := s.results ++ [0x02000000] } := by
  obtain ⟨hb, ⟨he, -, rfl⟩ | ⟨-, w, -, hr, -⟩⟩ := pop_ok h
  · rw [turnsOf_read_of_empty hu hs hb he, endCommand_of_idle hu]
    rfl
  · cases hr

/-! ### AVAIL -/

theorem exec_avail_loads_head (hu : s.upc = .avail1 c) (hs : s.selects c = true) (hb : s.bufOk ⟨c, .rx⟩ = true) :
    exec (.avail c) s = .next (s.setUpc (.avail2 c (s.chan c).rxh)) :=
  runCommand_of_selected hs (by rw [hu]; rfl) (by rw [availMicro, hu]) (loadHead_of_bufOk hb) (by rfl)

theorem exec_avail_answers {h : Idx} (hu : s.upc = .avail2 c h) (hb : s.bufOk ⟨c, .rx⟩ = true) :
    exec (.avail c) s = .next (s.endCommand .ok (if isEmptyAt h (s.chan c).rxt then 0 else 1)) :=
  runCommand_of_access (by rw [hu]; rfl) (by rw [availMicro, hu]) (loadTail_of_bufOk hb) (by rfl)

theorem resultWord_nonEmpty (h t : Idx) :
    resultWord .ok (if isEmptyAt h t then 0 else 1) = if h ≠ t then 0x00000001 else 0x00000000 := by
  by_cases he : h = t <;> simp [isEmptyAt, he] <;> rfl

/-! ### RCOUNT -/

theorem exec_rcount_loads_head (hu : s.upc = .rcount1 c) (hs : s.selects c = true) (hb : s.bufOk ⟨c, .rx⟩ = true) :
    exec (.rcount c) s = .next (s.setUpc (.rcount2 c (s.chan c).rxh)) :=
  runCommand_of_selected hs (by rw [hu]; rfl) (by rw [rcountMicro, hu]) (loadHead_of_bufOk hb) (by rfl)

theorem exec_rcount_answers {h : Idx} (hu : s.upc = .rcount2 c h) (hb : s.bufOk ⟨c, .rx⟩ = true) :
    exec (.rcount c) s = .next (s.endCommand .ok (occupancyAt h (s.chan c).rxt (s.chan c).cap)) :=
  runCommand_of_access (by rw [hu]; rfl) (by rw [rcountMicro, hu]) (loadTail_of_bufOk hb) (by rfl)

/-- The occupancy fits its sixteen bits, so the result word holds the integer itself. -/
theorem resultWord_occupancyAt {h t n : Idx} (hh : h.toNat < n.toNat) (ht : t.toNat < n.toNat) :
    resultWord .ok (occupancyAt h t n) = BitVec.ofInt 32 (((h.toNat : Int) - t.toNat + n.toNat) % n.toNat) := by
  obtain ⟨hocc, -⟩ := occupancyIsBetweenEmptyAndFull h t n hh ht
  rw [← hocc, resultWord_ok, BitVec.ofInt_natCast, BitVec.ofNat_toNat]

end

/-! ### The obligations -/

/-- Settles O15: the equations of the four micro-steps. -/
theorem readFollowsItsStepList : Obligations.ReadFollowsItsStepList := by
  intro s c hb
  refine ⟨fun hu hc hv => exec_read_loads_head hu (selects_of hc hv) hb, fun h hu he => exec_read_empty hu hb he,
    fun h hu hne => exec_read_nonEmpty hu hb hne, fun h t v hu ht hv => exec_read_loads_byte hu hb ht hv,
    fun h t v hu => ?last⟩
  case last =>
    rw [exec_read_advances_tail hu hb, ← resultWord_ok_byte]
    rfl

/-- Settles O16: READ with nothing in between is `pop` on the RX buffer. -/
theorem readReturnsTheOldestByteOrEmpty : Obligations.ReadReturnsTheOldestByteOrEmpty := by
  intro s c hu hc hv hb
  have hs := selects_of hc hv
  exact ⟨fun v hne hw => turnsOf_read_of_pop hu hs (pop_of_written hb hne hw),
    fun he => turnsOf_read_of_pop_none hu hs (pop_of_empty hb he)⟩

/-- Settles O17: the answer is whether the two loaded indices differ. -/
theorem availTellsWhetherTheBufferIsNonEmpty : Obligations.AvailTellsWhetherTheBufferIsNonEmpty := by
  intro s c hb
  refine ⟨fun hu hc hv => exec_avail_loads_head hu (selects_of hc hv) hb, fun h hu => ?answer,
    fun hu hc hv => ?run⟩
  case answer =>
    rw [exec_avail_answers hu hb, ← resultWord_nonEmpty]
    rfl
  case run =>
    rw [← resultWord_nonEmpty, ← endCommand_of_idle hu]
    exact turnsOf_succ (runCommand_of_idle hu) <|
      turnsOf_succ (exec_avail_loads_head rfl (selects_of hc hv) hb) <|
        turnsOf_succ (exec_avail_answers rfl hb) rfl

/-- Settles O18: the occupancy at the two loaded indices, over the integers. -/
theorem rcountReturnsTheOccupancy : Obligations.RcountReturnsTheOccupancy := by
  intro s c hb
  have ht : (s.chan c).rxt.toNat < (s.chan c).cap.toNat := tail_lt_cap hb
  refine ⟨fun hu hc hv => exec_rcount_loads_head hu (selects_of hc hv) hb, fun h hu hh => ?answer,
    fun hu hc hv => ?run⟩
  case answer =>
    rw [exec_rcount_answers hu hb, ← resultWord_occupancyAt hh ht]
    rfl
  case run =>
    have hh : (s.chan c).rxh.toNat < (s.chan c).cap.toNat := head_lt_cap hb
    rw [← resultWord_occupancyAt hh ht, ← endCommand_of_idle hu]
    exact turnsOf_succ (runCommand_of_idle hu) <|
      turnsOf_succ (exec_rcount_loads_head rfl (selects_of hc hv) hb) <|
        turnsOf_succ (exec_rcount_answers rfl hb) rfl

end Sys2Proof.Machine
end

