-- ==== Sys2Proof/Proofs/FlushCommands.lean ====
section
/-! FLUSHRX and FLUSHTX, for both sides at once: the two stores of a buffer reset as two micro-steps
(41_channel_commands.md R148, R149). -/

namespace Sys2Proof.Machine

/-! ### The two stores -/

/-- What the first store of a buffer reset leaves (40_buffer_engine.md R126, step Z.1). -/
def afterFirstStore (b : Buf) (s : State) : State :=
  match s.par.flushOrder with
  | .headFirst => s.setHead b 0
  | .tailFirst => s.setTail b 0

/-- What the second store of a buffer reset leaves (40_buffer_engine.md R126, step Z.2). -/
def afterSecondStore (b : Buf) (s : State) : State :=
  match s.par.flushOrder with
  | .headFirst => s.setTail b 0
  | .tailFirst => s.setHead b 0

theorem resetFirst_of_bufOk {s : State} {b : Buf} (h : s.bufOk b = true) :
    resetFirst b s = .ok (afterFirstStore b s) :=
  resetFirst_ok.mpr ⟨h, rfl⟩

theorem resetSecond_of_bufOk {s : State} {b : Buf} (h : s.bufOk b = true) :
    resetSecond b s = .ok (afterSecondStore b s) :=
  resetSecond_ok.mpr ⟨h, rfl⟩

theorem afterFirstStore_setUpc (b : Buf) (u : Upc) (s : State) :
    afterFirstStore b (s.setUpc u) = (afterFirstStore b s).setUpc u := by
  rcases b with ⟨c, side⟩
  unfold afterFirstStore
  rw [setUpc_par]
  cases s.par.flushOrder <;> cases side <;> rfl

theorem afterSecondStore_setUpc (b : Buf) (u : Upc) (s : State) :
    afterSecondStore b (s.setUpc u) = (afterSecondStore b s).setUpc u := by
  rcases b with ⟨c, side⟩
  unfold afterSecondStore
  rw [setUpc_par]
  cases s.par.flushOrder <;> cases side <;> rfl

theorem bufOk_afterFirstStore {s : State} {b : Buf} (h : s.bufOk b = true) : (afterFirstStore b s).bufOk b = true := by
  unfold afterFirstStore
  split
  · exact bufOk_setHead b b (cap_pos h) h
  · exact bufOk_setTail b b (cap_pos h) h

@[simp] theorem setChan_setChan (s : State) (c : Slot) (x y : Chan) :
    (s.setChan c x).setChan c y = s.setChan c y := by
  simp [State.setChan]

theorem setTail_setHead (s : State) (b : Buf) (x y : Idx) :
    (s.setHead b x).setTail b y = (s.setTail b y).setHead b x := by
  rcases b with ⟨c, side⟩
  cases side <;> simp [State.setHead, State.setTail]

theorem setTail_setHead_rx (s : State) (c : Slot) (x y : Idx) :
    (s.setHead ⟨c, .rx⟩ x).setTail ⟨c, .rx⟩ y = s.setChan c { s.chan c with rxh := x, rxt := y } := by
  simp [State.setHead, State.setTail]

theorem setTail_setHead_tx (s : State) (c : Slot) (x y : Idx) :
    (s.setHead ⟨c, .tx⟩ x).setTail ⟨c, .tx⟩ y = s.setChan c { s.chan c with txh := x, txt := y } := by
  simp [State.setHead, State.setTail]

/-- In either order the two stores leave both indices 0. -/
theorem afterSecondStore_afterFirstStore (b : Buf) (s : State) :
    afterSecondStore b (afterFirstStore b s) = (s.setHead b 0).setTail b 0 := by
  unfold afterSecondStore afterFirstStore
  cases ho : s.par.flushOrder with
  | headFirst => simp only [setHead_par, ho]
  | tailFirst => simp only [setTail_par, ho, setTail_setHead]

/-! ### The flush of one side, step by step -/

/-- The first micro-step of the flush of one side. -/
def flushUpc1 (side : Side) (c : Slot) : Upc :=
  match side with
  | .rx => .flushRx1 c
  | .tx => .flushTx1 c

/-- The second micro-step of the flush of one side. -/
def flushUpc2 (side : Side) (c : Slot) : Upc :=
  match side with
  | .rx => .flushRx2 c
  | .tx => .flushTx2 c

section
variable {s : State} {c : Slot} {side : Side}

theorem exec_flush_starts (hu : s.upc = .idle) : exec (flushOf side c) s = .next (s.setUpc (flushUpc1 side c)) := by
  cases side <;> exact runCommand_of_idle hu

theorem exec_flush_first (hu : s.upc = flushUpc1 side c) (hs : s.selects c = true) (hb : s.bufOk ⟨c, side⟩ = true) :
    exec (flushOf side c) s = .next ((afterFirstStore ⟨c, side⟩ s).setUpc (flushUpc2 side c)) := by
  cases side with
  | rx =>
    exact runCommand_of_selected hs (by rw [hu]; rfl) (by rw [flushRxMicro, hu]; rfl) (resetFirst_of_bufOk hb) (by rfl)
  | tx =>
    exact runCommand_of_selected hs (by rw [hu]; rfl) (by rw [flushTxMicro, hu]; rfl) (resetFirst_of_bufOk hb) (by rfl)

theorem exec_flush_second (hu : s.upc = flushUpc2 side c) (hb : s.bufOk ⟨c, side⟩ = true) :
    exec (flushOf side c) s = .next ((afterSecondStore ⟨c, side⟩ s).endCommand .ok 0) := by
  cases side with
  | rx => exact runCommand_of_access (by rw [hu]; rfl) (by rw [flushRxMicro, hu]; rfl) (resetSecond_of_bufOk hb) (by rfl)
  | tx => exact runCommand_of_access (by rw [hu]; rfl) (by rw [flushTxMicro, hu]; rfl) (resetSecond_of_bufOk hb) (by rfl)

/-- The flush with nothing in between. -/
theorem turnsOf_flush (hu : s.upc = .idle) (hs : s.selects c = true) (hb : s.bufOk ⟨c, side⟩ = true) :
    turnsOf (flushOf side c) 3 s = .next (((s.setHead ⟨c, side⟩ 0).setTail ⟨c, side⟩ 0).endCommand .ok 0) := by
  refine turnsOf_succ (exec_flush_starts hu) <|
    turnsOf_succ (exec_flush_first rfl hs hb) <|
      turnsOf_succ (exec_flush_second rfl (bufOk_afterFirstStore hb)) ?_
  rw [← afterSecondStore_afterFirstStore]
  simp only [turnsOf, afterFirstStore_setUpc, afterSecondStore_setUpc]
  rfl

end

/-! ### The obligations -/

/-- Settles O19: the flush of the RX side. -/
theorem flushRxStoresZeroTwiceInFlushOrder : Obligations.FlushRxStoresZeroTwiceInFlushOrder := by
  intro s c hb
  refine ⟨fun hu hc hv => ?first, fun hu => ?second, fun hu hc hv => ?run⟩
  case first =>
    refine (exec_flush_first (side := .rx) hu (selects_of hc hv) hb).trans ?_
    unfold afterFirstStore
    cases s.par.flushOrder <;> rfl
  case second =>
    refine (exec_flush_second (side := .rx) hu hb).trans ?_
    unfold afterSecondStore
    cases s.par.flushOrder <;> rfl
  case run =>
    refine (turnsOf_flush (side := .rx) hu (selects_of hc hv) hb).trans ?_
    rw [setTail_setHead_rx, endCommand_of_idle (s := s.setChan c _) hu]
    rfl

/-- Settles O20: the flush of the TX side. -/
theorem flushTxStoresZeroTwiceInFlushOrder : Obligations.FlushTxStoresZeroTwiceInFlushOrder := by
  intro s c hb
  refine ⟨fun hu hc hv => ?first, fun hu => ?second, fun hu hc hv => ?run⟩
  case first =>
    refine (exec_flush_first (side := .tx) hu (selects_of hc hv) hb).trans ?_
    unfold afterFirstStore
    cases s.par.flushOrder <;> rfl
  case second =>
    refine (exec_flush_second (side := .tx) hu hb).trans ?_
    unfold afterSecondStore
    cases s.par.flushOrder <;> rfl
  case run =>
    refine (turnsOf_flush (side := .tx) hu (selects_of hc hv) hb).trans ?_
    rw [setTail_setHead_tx, endCommand_of_idle (s := s.setChan c _) hu]
    rfl

end Sys2Proof.Machine
end

