-- ==== Sys2Proof/Proofs/WriteCommand.lean ====
section
/-! WRITE: one equation per micro-step (41_channel_commands.md R144), its push and its submission run on their own, and
the command with nothing in between under the reference layer. -/

namespace Sys2Proof.Machine

section
variable {s : State} {c : Slot} {b : Byte} {h t h2 t2 : Idx} {r : Bool} {v : Byte}

/-! ### The push, steps W.1 to W.4 -/

theorem exec_write_loads_head (hu : s.upc = .write1 c b) (hs : s.selects c = true) (hb : s.bufOk ⟨c, .tx⟩ = true) :
    exec (.write c b) s = .next (s.setUpc (.write2 c b (s.chan c).txh)) :=
  runCommand_of_selected hs (by rw [hu]; rfl) (by rw [writeMicro, hu]) (loadHead_of_bufOk hb) (by rfl)

theorem exec_write_loads_tail (hu : s.upc = .write2 c b h) (hb : s.bufOk ⟨c, .tx⟩ = true) :
    exec (.write c b) s = .next (if isFullAt h (s.chan c).txt (s.chan c).cap then s.endCommand .full 0
      else s.setUpc (.write3 c b h (s.chan c).txt)) :=
  runCommand_of_access (by rw [hu]; rfl) (by rw [writeMicro, hu]) (loadTail_of_bufOk hb) (by rfl)

theorem exec_write_full (hu : s.upc = .write2 c b h) (hb : s.bufOk ⟨c, .tx⟩ = true)
    (hf : isFullAt h (s.chan c).txt (s.chan c).cap = true) :
    exec (.write c b) s = .next (s.endCommand .full 0) := by
  rw [exec_write_loads_tail hu hb, if_pos hf]

theorem exec_write_notFull (hu : s.upc = .write2 c b h) (hb : s.bufOk ⟨c, .tx⟩ = true)
    (hf : isFullAt h (s.chan c).txt (s.chan c).cap ≠ true) :
    exec (.write c b) s = .next (s.setUpc (.write3 c b h (s.chan c).txt)) := by
  rw [exec_write_loads_tail hu hb, if_neg hf]

theorem exec_write_stores_byte (hu : s.upc = .write3 c b h t) (hb : s.bufOk ⟨c, .tx⟩ = true)
    (hh : h.toNat < (s.chan c).cap.toNat) : exec (.write c b) s =
      .next (({ s with mem := s.mem.write ((Space.txmem c).addr h) b } : State).setUpc (.write4 c b h t)) :=
  runCommand_of_access (by rw [hu]; rfl) (by rw [writeMicro, hu]) (storeByte_ok.mpr ⟨hb, hh, rfl⟩) (by rfl)

theorem exec_write_advances_head (hu : s.upc = .write4 c b h t) (hb : s.bufOk ⟨c, .tx⟩ = true) :
    exec (.write c b) s = .next ((s.setHead ⟨c, .tx⟩ (idxSucc h (s.cap c))).setUpc (.write5 c b h t)) :=
  runCommand_of_access (by rw [hu]; rfl) (by rw [writeMicro, hu]) (advanceHead_ok.mpr ⟨hb, rfl⟩) (by rfl)

/-! ### The submission, steps W.5 to W.10 -/

theorem exec_write_asks_ready (hu : s.upc = .write5 c b h t) :
    exec (.write c b) s = .next (if (hwIsReady (s.chan c).handle s).1 = true
      then (hwIsReady (s.chan c).handle s).2.setUpc (.write6 c b h t (hwIsReady (s.chan c).handle s).1)
      else (hwIsReady (s.chan c).handle s).2.endCommand .ok 0) :=
  runCommand_of_micro (by rw [hu]; rfl) (by rw [writeMicro, hu])

theorem exec_write_notReady (hu : s.upc = .write5 c b h t) (hr : (hwIsReady (s.chan c).handle s).1 = false) :
    exec (.write c b) s = .next ((hwIsReady (s.chan c).handle s).2.endCommand .ok 0) := by
  rw [exec_write_asks_ready hu, hr, if_neg Bool.false_ne_true]

theorem exec_write_ready (hu : s.upc = .write5 c b h t) (hr : (hwIsReady (s.chan c).handle s).1 = true) :
    exec (.write c b) s = .next ((hwIsReady (s.chan c).handle s).2.setUpc (.write6 c b h t true)) := by
  rw [exec_write_asks_ready hu, hr, if_pos rfl]

theorem exec_write_loads_head_again (hu : s.upc = .write6 c b h t r) (hb : s.bufOk ⟨c, .tx⟩ = true) :
    exec (.write c b) s = .next (s.setUpc (.write7 c b h t r (s.chan c).txh)) :=
  runCommand_of_access (by rw [hu]; rfl) (by rw [writeMicro, hu]) (loadHead_of_bufOk hb) (by rfl)

theorem exec_write_loads_tail_again (hu : s.upc = .write7 c b h t r h2) (hb : s.bufOk ⟨c, .tx⟩ = true) :
    exec (.write c b) s = .next (if isEmptyAt h2 (s.chan c).txt then s.endCommand .ok 0
      else s.setUpc (.write8 c b h t r h2 (s.chan c).txt)) :=
  runCommand_of_access (by rw [hu]; rfl) (by rw [writeMicro, hu]) (loadTail_of_bufOk hb) (by rfl)

theorem exec_write_empty (hu : s.upc = .write7 c b h t r h2) (hb : s.bufOk ⟨c, .tx⟩ = true)
    (he : h2 = (s.chan c).txt) : exec (.write c b) s = .next (s.endCommand .ok 0) := by
  rw [exec_write_loads_tail_again hu hb, if_pos (isEmptyAt_iff_eq.mpr he)]

theorem exec_write_nonEmpty (hu : s.upc = .write7 c b h t r h2) (hb : s.bufOk ⟨c, .tx⟩ = true)
    (hne : h2 ≠ (s.chan c).txt) :
    exec (.write c b) s = .next (s.setUpc (.write8 c b h t r h2 (s.chan c).txt)) := by
  rw [exec_write_loads_tail_again hu hb, if_neg (mt isEmptyAt_iff_eq.mp hne)]

theorem exec_write_loads_byte (hu : s.upc = .write8 c b h t r h2 t2) (hb : s.bufOk ⟨c, .tx⟩ = true)
    (ht : t2.toNat < (s.chan c).cap.toNat) (hv : s.byteAt (.txmem c) t2 = some v) :
    exec (.write c b) s = .next (s.setUpc (.write9 c b h t r h2 t2 v)) := by
  rw [exec_write_of_write8 hu, loadByte_ok.mpr ⟨hb, ht, hv⟩]
  rfl

theorem exec_write_advances_tail (hu : s.upc = .write9 c b h t r h2 t2 v) (hb : s.bufOk ⟨c, .tx⟩ = true) :
    exec (.write c b) s =
      .next ((s.setTail ⟨c, .tx⟩ (idxSucc t2 (s.cap c))).setUpc (.write10 c b h t r h2 t2 v)) :=
  runCommand_of_access (by rw [hu]; rfl) (by rw [writeMicro, hu]) (advanceTail_ok.mpr ⟨hb, rfl⟩) (by rfl)

theorem exec_write_submits (hu : s.upc = .write10 c b h t r h2 t2 v) :
    exec (.write c b) s = .next ((hwTransmitByte (s.chan c).handle v s).2.endCommand .ok 0) :=
  runCommand_of_micro (by rw [hu]; rfl) (by rw [writeMicro, hu])

/-! ### The push with nothing in between -/

/-- The five turns of WRITE up to its question to the layer: the start, both indices, the byte, and the store of
`TXH`. -/
theorem turnsOf_write_of_notFull (hu : s.upc = .idle) (hs : s.selects c = true) (hb : s.bufOk ⟨c, .tx⟩ = true)
    (hf : isFullAt (s.chan c).txh (s.chan c).txt (s.chan c).cap ≠ true) : turnsOf (.write c b) 5 s =
      .next ((pushed ⟨c, .tx⟩ b s).setUpc (.write5 c b (s.chan c).txh (s.chan c).txt)) :=
  turnsOf_succ (runCommand_of_idle hu) <|
    turnsOf_succ (exec_write_loads_head rfl hs hb) <|
      turnsOf_succ (exec_write_notFull rfl hb hf) <|
        turnsOf_succ (exec_write_stores_byte rfl hb (head_lt_cap hb)) <|
          turnsOf_succ (exec_write_advances_head rfl hb) rfl

/-- The three turns of WRITE on a full buffer. -/
theorem turnsOf_write_of_full (hu : s.upc = .idle) (hs : s.selects c = true) (hb : s.bufOk ⟨c, .tx⟩ = true)
    (hf : isFullAt (s.chan c).txh (s.chan c).txt (s.chan c).cap = true) :
    turnsOf (.write c b) 3 s = .next (s.endCommand .full 0) :=
  turnsOf_succ (runCommand_of_idle hu) <|
    turnsOf_succ (exec_write_loads_head rfl hs hb) <|
      turnsOf_succ (exec_write_full rfl hb hf) rfl

/-! ### The submission with nothing in between -/

/-- The five turns of WRITE on a non-empty buffer once the layer has said that it is ready: both indices, the oldest
byte, the store of `TXT`, and the request, whose answer is discarded. -/
theorem turnsOf_write_of_ready (hu : s.upc = .write6 c b h t r) (hb : s.bufOk ⟨c, .tx⟩ = true)
    (hne : (s.chan c).txh ≠ (s.chan c).txt) (hv : s.byteAt (.txmem c) (s.chan c).txt = some v) :
    turnsOf (.write c b) 5 s = .next ((hwTransmitByte (s.chan c).handle v
      ((popped ⟨c, .tx⟩ s).setUpc (.write10 c b h t r (s.chan c).txh (s.chan c).txt v))).2.endCommand .ok 0) := by
  have hh : ((popped ⟨c, .tx⟩ s).chan c).handle = (s.chan c).handle := setTail_handle ..
  rw [← hh]
  exact turnsOf_succ (exec_write_loads_head_again hu hb) <|
    turnsOf_succ (exec_write_nonEmpty rfl hb hne) <|
      turnsOf_succ (exec_write_loads_byte rfl hb (tail_lt_cap hb) hv) <|
        turnsOf_succ (exec_write_advances_tail rfl hb) <|
          turnsOf_succ (exec_write_submits rfl) rfl

/-! ### What the push and the pop of the TX buffer leave -/

theorem bufOk_pushed {B : Buf} {s : State} (x : Byte) (h : s.bufOk B = true) : (pushed B x s).bufOk B = true :=
  bufOk_setHead B B (idxSucc_lt (head_lt_cap h)) h

theorem sameMemoryBut_pushed (B : Buf) (x : Byte) (s : State) : SameMemoryBut B.space (s.head B) s (pushed B x s) := by
  intro sp i hne
  rw [pushed, setHead_byteAt, byteAt_write, if_neg hne]

theorem popped_pushed_tx (c : Slot) (b : Byte) (s : State) :
    popped ⟨c, .tx⟩ (pushed ⟨c, .tx⟩ b s) =
      ({ s with mem := s.mem.write ((Space.txmem c).addr (s.chan c).txh) b } : State).setChan c { s.chan c with
        txh := idxSucc (s.chan c).txh (s.chan c).cap, txt := idxSucc (s.chan c).txt (s.chan c).cap } := by
  rw [popped, pushed, tail_setHead, setHead_cap, setTail_setHead_tx]
  rfl

/-- The oldest byte after a push is the oldest byte of before, or the pushed byte where the buffer was empty. -/
theorem byteAt_tail_pushed_tx (hempty : (s.chan c).txh = (s.chan c).txt → v = b)
    (hold : (s.chan c).txh ≠ (s.chan c).txt → s.byteAt (.txmem c) (s.chan c).txt = some v) :
    (pushed ⟨c, .tx⟩ b s).byteAt (.txmem c) (s.chan c).txt = some v := by
  by_cases he : (s.chan c).txh = (s.chan c).txt
  · rw [hempty he, ← he]
    exact byteAt_pushed ⟨c, .tx⟩ b s
  · rw [← hold he]
    exact sameMemoryBut_pushed ⟨c, .tx⟩ b s _ _ fun hsame => he hsame.2.symm

/-! ### The question to the reference layer, and its answer 1 -/

/-- The state WRITE has reached when it asks whether the layer is ready (step W.5). -/
def queued (c : Slot) (b : Byte) (s : State) : State :=
  (pushed ⟨c, .tx⟩ b s).setUpc (.write5 c b (s.chan c).txh (s.chan c).txt)

theorem handle_queued (c : Slot) (b : Byte) (s : State) : ((queued c b s).chan c).handle = (s.chan c).handle :=
  setHead_handle ..

theorem hwIsReady_queued (hm : s.par.hwModel = .reference) (hp : (s.chan c).handle.val < s.par.np) :
    hwIsReady ((queued c b s).chan c).handle (queued c b s) =
      (!(s.periph (s.chan c).handle).txBusy,
        (queued c b s).log (.isReady (s.chan c).handle (!(s.periph (s.chan c).handle).txBusy))) := by
  rw [handle_queued]
  exact hwIsReady_reference (s := queued c b s) (answersByReference_of hp hm)

/-- The state WRITE has reached when the layer has answered that it is ready (step W.6). -/
def answeredReady (c : Slot) (b : Byte) (s : State) : State :=
  ((queued c b s).log (.isReady (s.chan c).handle true)).setUpc (.write6 c b (s.chan c).txh (s.chan c).txt true)

theorem chan_answeredReady (c : Slot) (b : Byte) (s : State) :
    (answeredReady c b s).chan c = { s.chan c with txh := idxSucc (s.chan c).txh (s.chan c).cap } :=
  chan_setChan_same ..

theorem handle_answeredReady (c : Slot) (b : Byte) (s : State) :
    ((answeredReady c b s).chan c).handle = (s.chan c).handle := by rw [chan_answeredReady]

/-- The advanced head differs from the tail, because the buffer was not full. -/
theorem nonEmpty_answeredReady (hnf : isFullAt (s.chan c).txh (s.chan c).txt (s.chan c).cap ≠ true) :
    ((answeredReady c b s).chan c).txh ≠ ((answeredReady c b s).chan c).txt := by
  rw [chan_answeredReady]
  exact fun he => hnf (beq_iff_eq.mpr he)

theorem oldest_answeredReady (hempty : (s.chan c).txh = (s.chan c).txt → v = b)
    (hold : (s.chan c).txh ≠ (s.chan c).txt → s.byteAt (.txmem c) (s.chan c).txt = some v) :
    (answeredReady c b s).byteAt (.txmem c) ((answeredReady c b s).chan c).txt = some v := by
  rw [chan_answeredReady]
  exact byteAt_tail_pushed_tx hempty hold

/-- The request after the pop starts a transmission: the peripheral is as it was when WRITE began. -/
theorem hwTransmitByte_answeredReady (u : Upc) (hm : s.par.hwModel = .reference)
    (hp : (s.chan c).handle.val < s.par.np) (hidle : (s.periph (s.chan c).handle).txBusy = false)
    (hinj : (s.periph (s.chan c).handle).injTx = []) :
    hwTransmitByte (s.chan c).handle v ((popped ⟨c, .tx⟩ (answeredReady c b s)).setUpc u) =
      (.ok, (((popped ⟨c, .tx⟩ (answeredReady c b s)).setUpc u).setPeriph (s.chan c).handle
        { s.periph (s.chan c).handle with txBusy := true, txCur := v }).log
          (.transmitByte (s.chan c).handle v .ok)) := by
  have hnone : takeForced (s.periph (s.chan c).handle).injTx = (none, (s.periph (s.chan c).handle).injTx) := by
    rw [hinj]
    rfl
  exact hwTransmitByte_starts (s := (popped ⟨c, .tx⟩ (answeredReady c b s)).setUpc u) (answersByReference_of hp hm)
    hnone hidle

end

/-! ### The obligations on the step list and the primitives -/

/-- Settles O21: the equations of W.1 to W.4; a byte written reads back at its place and nowhere else. -/
theorem writePushFollowsItsStepList : Obligations.WritePushFollowsItsStepList := by
  intro s c b hb
  have full : ∀ h : Idx, isFullAt h (s.chan c).txt (s.chan c).cap = true ↔
      (h.toNat + 1) % (s.chan c).cap.toNat = (s.chan c).txt.toNat := fun h => isFullAt_iff (cap_pos hb)
  refine ⟨fun hu hc hv => exec_write_loads_head hu (selects_of hc hv) hb,
    fun h hu hf => exec_write_full hu hb ((full h).mpr hf), fun h hu hf => exec_write_notFull hu hb (mt (full h).mp hf),
    fun h t hu hh => ⟨_, exec_write_stores_byte hu hb hh, ?stored, fun sp i hne => ?other, rfl⟩,
    fun h t hu => exec_write_advances_head hu hb⟩
  case stored => rw [setUpc_byteAt, byteAt_write, if_pos ⟨rfl, rfl⟩]
  case other => rw [setUpc_byteAt, byteAt_write, if_neg hne]

/-- Settles O22: the equations of W.5 to W.10. -/
theorem writeKickOffFollowsItsStepList : Obligations.WriteKickOffFollowsItsStepList := by
  intro s c b h t r
  refine ⟨fun hu hr => ?notReady, fun hu hr => exec_write_ready hu hr,
    fun hu hb => exec_write_loads_head_again hu hb, fun h2 hu hb he => exec_write_empty hu hb he,
    fun h2 hu hb hne => exec_write_nonEmpty hu hb hne, fun h2 t2 v hu hb ht hv => exec_write_loads_byte hu hb ht hv,
    fun h2 t2 v hu hb => exec_write_advances_tail hu hb, fun h2 t2 v hu => ?submits⟩
  case notReady =>
    have hl := layerStep_isReady (s.chan c).handle s
    rw [exec_write_notReady hu hr, ← hl.results]
    rfl
  case submits =>
    have hl := layerStep_transmit (s.chan c).handle v s
    rw [exec_write_submits hu, ← hl.results]
    rfl

/-- Settles O46: READ is `pop` on the RX buffer; up to its question to the layer WRITE is `push` on the TX buffer. -/
theorem commandsRunTheBufferPrimitives : Obligations.CommandsRunTheBufferPrimitives := by
  refine ⟨fun s t c v hu hs hp => turnsOf_read_of_pop hu hs hp, fun s t c hu hs hp => turnsOf_read_of_pop_none hu hs hp,
    fun s t c b hu hs hp => ?pushes, fun s t c b hu hs hp => ?full⟩
  case pushes =>
    obtain ⟨hb, ⟨-, hr, -⟩ | ⟨hf, -, rfl⟩⟩ := push_ok hp
    · cases hr
    · exact turnsOf_write_of_notFull hu hs hb (Bool.eq_false_iff.mp hf)
  case full =>
    obtain ⟨hb, ⟨hf, -, rfl⟩ | ⟨-, hr, -⟩⟩ := push_ok hp
    · rw [turnsOf_write_of_full hu hs hb hf, endCommand_of_idle hu]
      rfl
    · cases hr

/-! ### The obligations on WRITE with nothing in between -/

/-- Settles O24: the push, and the question answered 0. -/
theorem writeQueuesTheByteWhileBusy : Obligations.WriteQueuesTheByteWhileBusy := by
  intro s c b hu hc hv hb hf hm hp hbusy
  have hpush := turnsOf_write_of_notFull (b := b) hu (selects_of hc hv) hb (mt (isFullAt_iff (cap_pos hb)).mp hf)
  have hready := hwIsReady_queued (b := b) hm hp
  rw [hbusy, Bool.not_true] at hready
  have hask : exec (.write c b) (queued c b s) =
      .next (((queued c b s).log (.isReady (s.chan c).handle false)).endCommand .ok 0) := by
    rw [exec_write_notReady rfl (congrArg Prod.fst hready), hready]
  exact ⟨_, turnsOf_add hpush (turnsOf_succ hask rfl), chan_setChan_same .., fun d hd => chan_setChan_ne _ _ hd, rfl,
    rfl, byteAt_pushed ⟨c, .tx⟩ b s, sameMemoryBut_pushed ⟨c, .tx⟩ b s, rfl, rfl, rfl, rfl, rfl, ⟨rfl, rfl, rfl, rfl⟩⟩

/-- Settles O25: the push, the question answered 1, and the submission of the oldest byte to an idle peripheral. -/
theorem writeSubmitsTheOldestByteWhenIdle : Obligations.WriteSubmitsTheOldestByteWhenIdle := by
  intro s c b v hu hc hv hb hf hm hp hidle hinj hempty hold
  have hnf := mt (isFullAt_iff (cap_pos hb)).mp hf
  have hpush := turnsOf_write_of_notFull (b := b) hu (selects_of hc hv) hb hnf
  have hready := hwIsReady_queued (b := b) hm hp
  rw [hidle, Bool.not_false] at hready
  have hask : exec (.write c b) (queued c b s) = .next (answeredReady c b s) := by
    rw [exec_write_ready rfl (congrArg Prod.fst hready), hready]
    rfl
  have hsubmit := turnsOf_write_of_ready (s := answeredReady c b s) rfl (bufOk_pushed b hb)
    (nonEmpty_answeredReady hnf) (oldest_answeredReady hempty hold)
  rw [handle_answeredReady, hwTransmitByte_answeredReady _ hm hp hidle hinj] at hsubmit
  have hpop := popped_pushed_tx c b s
  exact ⟨_, turnsOf_add hpush (turnsOf_succ hask hsubmit), (congrArg (·.chan c) hpop).trans (chan_setChan_same ..),
    fun d hd => (congrArg (·.chan d) hpop).trans (chan_setChan_ne _ _ hd), rfl, rfl, byteAt_pushed ⟨c, .tx⟩ b s,
    sameMemoryBut_pushed ⟨c, .tx⟩ b s, rfl, List.append_assoc .., periph_setPeriph_same ..,
    fun p hne => periph_setPeriph_ne _ _ hne, rfl, rfl, ⟨rfl, rfl, rfl, rfl⟩⟩

end Sys2Proof.Machine
end

