-- ==== Sys2Proof/Proofs/CommandEnds.lean ====
section
/-! A command in progress, left alone, ends: each of its steps ends it, faults, or moves it to its next micro-step, and
no command has more than ten (41_channel_commands.md R150). -/

namespace Sys2Proof.Machine

theorem Upc.stepNumber_le (u : Upc) : u.stepNumber ≤ 10 := by
  cases u <;> simp [Upc.stepNumber]

theorem Upc.stepNumber_pos {u : Upc} (h : u ≠ .idle) : 1 ≤ u.stepNumber := by
  cases u with
  | idle => exact absurd rfl h
  | _ => exact Nat.succ_le_succ (Nat.zero_le _)

/-- Where a command left alone ends: on a byte nothing has written, with `UPC` idle, or in a double arm. -/
def Ended (r : Res) : Prop :=
  r = .fault .unwrittenByte ∨ ∃ t : State, r = .next t ∧ (t.upc = .idle ∨ t.faulted = true)

/-- From a state that meets the invariant, the step of a command left alone ends it or moves it to its next
micro-step. -/
theorem step_of_command {s : State} (hs : Inv s) (hf : s.faulted = false) (hu : s.upc ≠ .idle) (ht : s.turns = []) :
    Ended (step s) ∨ ∃ t, step s = .next t ∧ t.faulted = false ∧ t.upc ≠ .idle ∧ t.turns = [] ∧
      t.upc.stepNumber = s.upc.stepNumber + 1 := by
  obtain ⟨i, hc⟩ := Option.ne_none_iff_exists'.mp (mt Upc.command_eq_none.mp hu)
  rw [step_of_running hf hc ht]
  cases he : exec i s with
  | refused x => exact absurd he (exec_ne_refused i s x)
  | fault f =>
    rcases exec_fault he with rfl | rfl
    · exact Or.inl (Or.inl rfl)
    · exact absurd he (exec_ne_indexOutOfRange hs i)
  | next t =>
    obtain ⟨hin, hidle | hcont | ⟨-, henv, hm⟩⟩ := exec_micro hc he
    · exact Or.inl (Or.inr ⟨t, rfl, Or.inl hidle⟩)
    · cases hft : t.faulted with
      | true => exact Or.inl (Or.inr ⟨t, rfl, Or.inr hft⟩)
      | false =>
        have hrunning : t.upc ≠ .idle := by
          rw [ne_eq, ← Upc.command_eq_none, hcont.command, hc]
          exact Option.some_ne_none i
        exact Or.inr ⟨t, rfl, hft, hrunning, hin.turns.trans ht, hcont.stepNumber⟩
    · refine Or.inl (Or.inr ⟨t, rfl, Or.inr ?_⟩)
      simp [State.faulted, henv, hin.par, hm]

/-- Within as many steps as micro-steps are left, by induction on their number. -/
theorem run_ended_of_command {m : Nat} {s : State} (hs : Inv s) (hf : s.faulted = false) (hu : s.upc ≠ .idle)
    (ht : s.turns = []) (hm : 11 ≤ s.upc.stepNumber + m) : ∃ n, n ≤ m ∧ Ended (Sys2Proof.core.run n s) := by
  induction m generalizing s with
  | zero =>
    have := s.upc.stepNumber_le
    omega
  | succ m ih =>
    rcases step_of_command hs hf hu ht with hend | ⟨t, hstep, hft, hut, htt, hnum⟩
    · refine ⟨1, by omega, ?_⟩
      rcases hend with hfault | ⟨t, hnext, ht⟩
      · exact Or.inl (run_fault hfault 0)
      · exact Or.inr ⟨t, run_next hnext 0, ht⟩
    · obtain ⟨n, hn, hend⟩ := ih (everyStepKeepsTheInvariant s t hs hstep) hft hut htt (by omega)
      exact ⟨n + 1, by omega, by rw [run_next hstep]; exact hend⟩

/-- Settles O57: at its first micro-step a command has at most ten left. -/
theorem commandsEndWithinTenMicroSteps : Obligations.CommandsEndWithinTenMicroSteps := by
  intro s hs hf hu ht
  have := Upc.stepNumber_pos hu
  exact run_ended_of_command hs hf hu ht (by omega)

end Sys2Proof.Machine
end

