-- ==== Sys2Proof/Proofs/InterruptHandlers.lean ====
section
/-! The two completion handlers as their events run them (42_interrupt_handlers.md R170 to R172): IRQRX pushes the
scratch byte or drops it and then re-arms, with one retry after a failure; IRQTX pops the oldest byte and submits it. -/

namespace Sys2Proof.Machine

section
variable {p k : Pid} {c : Slot} {v : Byte} {s l t : State} {st : HwStatus} {rest : List HwStatus}

/-! ### The inputs through several operations -/

theorem SameInputs.trans (h : SameInputs s l) (h' : SameInputs l t) : SameInputs s t :=
  ⟨h'.par.trans h.par, h'.counts.trans h.counts, h'.cmdQ.trans h.cmdQ, h'.turns.trans h.turns⟩

/-! ### The layer's part in IRQRX -/

theorem layerRx_hwlog (k : Pid) (s : State) : (layerRx k s).hwlog = s.hwlog := by
  unfold layerRx
  split <;> rfl

theorem layerRx_draws (k : Pid) (s : State) : (layerRx k s).draws = s.draws := by
  unfold layerRx
  split <;> rfl

/-- Consuming a pending completion touches neither what is armed nor the forced answers, of any peripheral. -/
theorem layerRx_arm (k p : Pid) (s : State) : ((layerRx k s).periph p).rxArm = (s.periph p).rxArm ∧
    ((layerRx k s).periph p).injRx = (s.periph p).injRx := by
  unfold layerRx
  split
  · rw [periph_setPeriph]
    split
    · next hp => subst hp; exact ⟨rfl, rfl⟩
    · exact ⟨rfl, rfl⟩
  · exact ⟨rfl, rfl⟩

/-! ### The push of the scratch byte -/

/-- The state in which the handler re-arms: the byte is pushed, or dropped where the RX buffer is full. -/
def received (c : Slot) (v : Byte) (s : State) : State :=
  if isFullAt (s.head ⟨c, .rx⟩) (s.tail ⟨c, .rx⟩) (s.cap c) then s else pushed ⟨c, .rx⟩ v s

theorem onReceiveComplete_eq_rearm (hv : s.byteAt (.scr c) 0 = some v) (hb : s.bufOk ⟨c, .rx⟩ = true) :
    onReceiveComplete c s = rearm (s.chan c).handle c (received c v s) := by
  rw [onReceiveComplete_eq hv hb, received]
  split <;> rfl

theorem sameLayer_received (c : Slot) (v : Byte) (s : State) : SameLayer s (received c v s) := by
  unfold received
  split <;> exact ⟨rfl, rfl, rfl, rfl⟩

theorem sameInputs_received (c : Slot) (v : Byte) (s : State) : SameInputs s (received c v s) := by
  unfold received
  split <;> exact ⟨rfl, rfl, rfl, rfl⟩

/-- The push writes neither the registry nor `UPC`, and returns nothing. -/
theorem received_control (c : Slot) (v : Byte) (s : State) : (received c v s).reg = s.reg ∧
    (received c v s).upc = s.upc ∧ (received c v s).results = s.results := by
  unfold received
  split <;> exact ⟨rfl, rfl, rfl⟩

/-- The push reads and writes the channels and the memory only. -/
theorem received_congr (hc : l.chans = s.chans) (hm : l.mem = s.mem) (c : Slot) (v : Byte) :
    (received c v l).chans = (received c v s).chans ∧ (received c v l).mem = (received c v s).mem := by
  unfold received
  rw [head_congr hc, tail_congr hc, cap_chan, cap_chan, chan_congr hc]
  split
  · exact ⟨hc, hm⟩
  · exact pushed_congr hc hm _ v

/-- IRQRX of a registered identity, its scratch byte and its RX indices being in order, is its re-arm. -/
theorem execIrqRx_eq_rearm (hk : k.val < s.par.np) (hr : s.regAt k = some c) (hb : s.bufOk ⟨c, .rx⟩ = true)
    (hv : s.byteAt (.scr c) 0 = some v) :
    exec (.irqRx k) s = finish (rearm (s.chan c).handle c (received c v (layerRx k s))) := by
  have hl := layerStep_layerRx k s
  rw [execIrqRx_of_registered hk hr,
    onReceiveComplete_eq_rearm ((hl.byteAt _ _).trans hv) ((bufOk_congr hl.block.chans _).trans hb),
    chan_congr hl.block.chans]

/-- An IRQRX of a registered identity that goes on had its scratch byte and its RX indices in order. -/
theorem execIrqRx_next (hk : k.val < s.par.np) (hr : s.regAt k = some c) (h : exec (.irqRx k) s = .next t) :
    ∃ v, finish (rearm (s.chan c).handle c (received c v (layerRx k s))) = .next t := by
  have hl := layerStep_layerRx k s
  rw [execIrqRx_of_registered hk hr] at h
  rcases onReceiveComplete_cases c (layerRx k s) with he | ⟨he, -⟩ | ⟨v, hv, hb⟩
  · rw [he] at h; cases h
  · rw [he] at h; cases h
  · rw [onReceiveComplete_eq_rearm hv hb, chan_congr hl.block.chans] at h
    exact ⟨v, h⟩

/-- IRQRX pushes or drops whatever the layer answers: its re-arm leaves the block alone. -/
theorem execIrqRx_receives (hk : k.val < s.par.np) (hr : s.regAt k = some c) (hb : s.bufOk ⟨c, .rx⟩ = true)
    (hv : s.byteAt (.scr c) 0 = some v) :
    ∃ t, exec (.irqRx k) s = .next t ∧ t.chans = (received c v s).chans ∧ t.mem = (received c v s).mem ∧
      t.reg = s.reg ∧ t.upc = s.upc ∧ t.results = s.results ∧ SameInputs s t := by
  have hl := layerStep_layerRx k s
  obtain ⟨hreg, hupc, hres⟩ := received_control c v (layerRx k s)
  obtain ⟨hchans, hmem⟩ := received_congr hl.block.chans hl.block.mem c v
  have hin := sameInputs_received c v (layerRx k s)
  obtain ⟨t, ht⟩ := rearm_goes_on (s.chan c).handle c (received c v (layerRx k s))
  obtain ⟨tchans, treg, tmem, tupc, tres, tin, -⟩ := rearm_next ht
  exact ⟨t, (execIrqRx_eq_rearm hk hr hb hv).trans ht, tchans.trans hchans, tmem.trans hmem,
    treg.trans (hreg.trans hl.block.reg), tupc.trans (hupc.trans hl.block.upc), tres.trans (hres.trans hl.results),
    (hl.inputs.trans hin).trans tin⟩

/-! ### One arm request -/

theorem answersByReference_iff : s.answersByReference p = true ↔ s.par.hwModel = .reference ∧ p.val < s.par.np := by
  simp [State.answersByReference]

/-- The reference layer answers ok only with nothing armed, and a failure only where that failure was forced. -/
theorem hwReceiveArm_ok_reference (h : hwReceiveArm p c s = .ok (st, t)) (hr : s.answersByReference p = true) :
    (st = .ok → (s.periph p).rxArm = none) ∧ (st ≠ .ok → ∃ rest, (s.periph p).injRx = st :: rest) := by
  rcases hwReceiveArm_cases (c := c) hr with ⟨st', rest, hi, hs, e⟩ | ⟨rest, -, ha, e⟩ | ⟨rest, -, -, e⟩ <;> rw [e] at h
  · obtain ⟨rfl, -⟩ := Prod.mk.inj (Except.ok.inj h)
    exact ⟨fun hok => absurd hok hs, fun _ => ⟨rest, hi⟩⟩
  · obtain ⟨rfl, -⟩ := Prod.mk.inj (Except.ok.inj h)
    exact ⟨fun _ => ha, fun hne => absurd rfl hne⟩
  · cases h

/-- An arm request without an answer is the double arm: the reference layer, with no failure forced and a receive
armed; no call is logged. -/
theorem hwReceiveArm_error_double {e : Stop} (h : hwReceiveArm p c s = .error e) :
    s.answersByReference p = true ∧ (s.periph p).rxArm ≠ none ∧ (∃ rest, NoFailureForced (s.periph p).injRx rest) ∧
      ∃ u, e = .envFault u ∧ u.hwlog = s.hwlog := by
  cases hr : s.answersByReference p with
  | false =>
    rw [hwReceiveArm_free hr] at h
    cases h
  | true =>
    rcases hwReceiveArm_cases (c := c) hr with ⟨_, _, _, _, e'⟩ | ⟨_, _, _, e'⟩ | ⟨rest, hf, ha, e'⟩ <;> rw [e'] at h
    · cases h
    · cases h
    · cases h
      exact ⟨rfl, ha, ⟨rest, hf⟩, _, rfl, rfl⟩

/-! ### The re-arm -/

theorem rearm_of_ok (h : hwReceiveArm p c s = .ok (.ok, t)) : rearm p c s = .ok t := by
  simp only [rearm, h, bind, Except.bind, pure, Except.pure, if_true]

theorem rearm_of_error {e : Stop} (h : hwReceiveArm p c s = .error e) : rearm p c s = .error e := by
  simp only [rearm, h, bind, Except.bind]

/-- A failed arm is unlocked and aborted, and the answer of the one retry ends the re-arm, whatever it is. -/
theorem rearm_of_failure {st1 st2 : HwStatus} {u : State} (h : hwReceiveArm p c s = .ok (st1, u)) (hs : st1 ≠ .ok)
    (h2 : hwReceiveArm p c (hwUnlockAndAbortReceive p u) = .ok (st2, t)) : rearm p c s = .ok t := by
  simp only [rearm, h, h2, bind, Except.bind, pure, Except.pure, if_neg hs]

theorem unlock_hwlog (p : Pid) (s : State) :
    (hwUnlockAndAbortReceive p s).hwlog = s.hwlog ++ [.unlockAndAbortReceive p] := by
  rw [hwUnlockAndAbortReceive, log_hwlog, setRxArm_hwlog]

theorem unlock_periph (hp : p.val < s.par.np) :
    (hwUnlockAndAbortReceive p s).periph p = { s.periph p with rxArm := none } := by
  rw [hwUnlockAndAbortReceive, log_periph, State.setRxArm, if_pos hp, periph_setPeriph_same]

/-- The retry after an unlock is answered: it finds nothing armed, so it is no double arm. -/
theorem hwReceiveArm_after_unlock (p : Pid) (c : Slot) (s : State) :
    ∃ st t, hwReceiveArm p c (hwUnlockAndAbortReceive p s) = .ok (st, t) := by
  cases h : hwReceiveArm p c (hwUnlockAndAbortReceive p s) with
  | ok r => exact ⟨r.1, r.2, rfl⟩
  | error e =>
    obtain ⟨hr, ha, -⟩ := hwReceiveArm_error_double h
    have hp := (answersByReference_iff.mp hr).2
    rw [(layerStep_unlock p s).inputs.par] at hp
    rw [unlock_periph hp] at ha
    exact absurd rfl ha

/-- Everything the re-arm can do: stop in a double arm at its first call, end on a first answer ok, or fail, unlock and
abort, and end on the answer of its one retry. -/
theorem rearm_cases (p : Pid) (c : Slot) (s : State) :
    (∃ e, hwReceiveArm p c s = .error e ∧ rearm p c s = .error e) ∨
    (∃ t, hwReceiveArm p c s = .ok (.ok, t) ∧ rearm p c s = .ok t) ∨
    ∃ st1 st2 u t, st1 ≠ .ok ∧ hwReceiveArm p c s = .ok (st1, u) ∧
      hwReceiveArm p c (hwUnlockAndAbortReceive p u) = .ok (st2, t) ∧ rearm p c s = .ok t := by
  cases h : hwReceiveArm p c s with
  | error e => exact Or.inl ⟨e, rfl, rearm_of_error h⟩
  | ok r =>
    obtain ⟨st1, u⟩ := r
    by_cases hs : st1 = .ok
    · subst hs
      exact Or.inr (Or.inl ⟨u, rfl, rearm_of_ok h⟩)
    · obtain ⟨st2, t, h2⟩ := hwReceiveArm_after_unlock p c u
      exact Or.inr (Or.inr ⟨st1, st2, u, t, hs, rfl, h2, rearm_of_failure h hs h2⟩)

/-- The records of a failed arm, the unlock and the retry. -/
theorem hwlog_of_failure {st1 st2 : HwStatus} {u : State} (h : hwReceiveArm p c s = .ok (st1, u))
    (h2 : hwReceiveArm p c (hwUnlockAndAbortReceive p u) = .ok (st2, t)) :
    t.hwlog = s.hwlog ++ [.receiveArm p c st1, .unlockAndAbortReceive p, .receiveArm p c st2] := by
  rw [hwReceiveArm_hwlog h2, unlock_hwlog, hwReceiveArm_hwlog h]
  simp only [List.append_assoc, List.cons_append, List.nil_append]

/-- A first arm that meets a forced failure: the re-arm is the retry in a state with nothing armed. -/
theorem rearm_of_forced (hr : s.answersByReference p = true) (hi : (s.periph p).injRx = st :: rest) (hs : st ≠ .ok) :
    ∃ u, u.answersByReference p = true ∧ u.periph p = { s.periph p with injRx := rest, rxArm := none } ∧
      ∀ st2 t, hwReceiveArm p c u = .ok (st2, t) → rearm p c s = .ok t ∧
        t.hwlog = s.hwlog ++ [.receiveArm p c st, .unlockAndAbortReceive p, .receiveArm p c st2] := by
  obtain ⟨hm, hp⟩ := answersByReference_iff.mp hr
  have hfail := hwReceiveArm_forced (c := c) hr hi hs
  refine ⟨_, answersByReference_iff.mpr ?_, ?_, fun st2 t hretry =>
    ⟨rearm_of_failure hfail hs hretry, hwlog_of_failure hfail hretry⟩⟩
  · rw [(layerStep_unlock ..).inputs.par]
    exact ⟨hm, hp⟩
  · rw [unlock_periph (by exact hp), log_periph, periph_setPeriph_same]

/-! ### What the re-arm of IRQRX finds -/

theorem received_layerRx_par (k : Pid) (c : Slot) (v : Byte) (s : State) :
    (received c v (layerRx k s)).par = s.par :=
  (sameInputs_received ..).par.trans (layerStep_layerRx k s).inputs.par

theorem received_layerRx_hwlog (k : Pid) (c : Slot) (v : Byte) (s : State) :
    (received c v (layerRx k s)).hwlog = s.hwlog :=
  (sameLayer_received ..).hwlog.trans (layerRx_hwlog k s)

theorem received_layerRx_draws (k : Pid) (c : Slot) (v : Byte) (s : State) :
    (received c v (layerRx k s)).draws = s.draws :=
  (sameLayer_received ..).draws.trans (layerRx_draws k s)

theorem received_layerRx_envFault (k : Pid) (c : Slot) (v : Byte) (s : State) :
    (received c v (layerRx k s)).envFault = s.envFault :=
  (sameLayer_received ..).envFault.trans (layerStep_layerRx k s).envFault

theorem received_layerRx_periph (k p : Pid) (c : Slot) (v : Byte) (s : State) :
    (received c v (layerRx k s)).periph p = (layerRx k s).periph p :=
  periph_congr (sameLayer_received ..).periphs p

theorem received_layerRx_answersByReference (k p : Pid) (c : Slot) (v : Byte) (s : State) :
    (received c v (layerRx k s)).answersByReference p = s.answersByReference p := by
  simp only [State.answersByReference, received_layerRx_par]

/-- IRQRX on a channel whose handle is the event's identity: its re-arm moves that peripheral only. -/
theorem execIrqRx_of_rearm_ok (hk : k.val < s.par.np) (hr : s.regAt k = some c) (hh : (s.chan c).handle = k)
    (hb : s.bufOk ⟨c, .rx⟩ = true) (hv : s.byteAt (.scr c) 0 = some v)
    (h : rearm k c (received c v (layerRx k s)) = .ok t) :
    exec (.irqRx k) s = .next t ∧ SamePeriphsBut k s t ∧ t.envFault = s.envFault := by
  have hl := rearm_ok h
  refine ⟨?_, fun q hq => ?_, hl.envFault.trans (received_layerRx_envFault k c v s)⟩
  · rw [execIrqRx_eq_rearm hk hr hb hv, hh, h]
    rfl
  · rw [hl.periphs q hq, received_layerRx_periph, (layerStep_layerRx k s).periphs q hq]

end

/-! ### The obligations on IRQRX -/

/-- Settles O30: the three cases of the re-arm, with what the layer's answers say of the state before. -/
theorem irqRxMakesOneOfTwoCallSequences : Obligations.IrqRxMakesOneOfTwoCallSequences := by
  intro s t k c hf hk hr h
  obtain ⟨v, hv⟩ := execIrqRx_next hk hr h
  have hlog := received_layerRx_hwlog k c v s
  have henv := (received_layerRx_envFault k c v s).trans hf
  have href := received_layerRx_answersByReference k (s.chan c).handle c v s
  have hview := received_layerRx_periph k (s.chan c).handle c v s
  obtain ⟨harm, hinj⟩ := layerRx_arm k (s.chan c).handle s
  rw [← hview] at harm hinj
  rw [← harm, ← hinj, ← hlog]
  rcases rearm_cases (s.chan c).handle c (received c v (layerRx k s)) with
    ⟨e, h1, hre⟩ | ⟨u, h1, hre⟩ | ⟨st1, st2, u, w, hs, h1, h2, hre⟩ <;> rw [hre] at hv
  · obtain ⟨hans, ha, hno, u, rfl, hulog⟩ := hwReceiveArm_error_double h1
    cases hv
    obtain ⟨hm, hp⟩ := answersByReference_iff.mp (href.symm.trans hans)
    exact Or.inl ⟨hm, hp, ha, hno, rfl, hulog⟩
  · cases hv
    exact Or.inr (Or.inl ⟨(rearm_ok hre).envFault.trans henv, hwReceiveArm_hwlog h1, fun hm hp =>
      (hwReceiveArm_ok_reference h1 (href.trans (answersByReference_of hp hm))).1 rfl⟩)
  · cases hv
    exact Or.inr (Or.inr ⟨(rearm_ok hre).envFault.trans henv, st1, st2, hs, hwlog_of_failure h1 h2, fun hm hp =>
      (hwReceiveArm_ok_reference h1 (href.trans (answersByReference_of hp hm))).2 hs⟩)

/-- Settles O28: the first arm finds nothing armed and no failure forced. -/
theorem irqRxRearmsUnconditionally : Obligations.IrqRxRearmsUnconditionally := by
  intro s k c v rest hk hr hh hb hv hm ha hf
  have hperiph := (received_layerRx_periph k k c v s).trans (layerRx_periph hk hm)
  have hans := (received_layerRx_answersByReference k k c v s).trans (answersByReference_of hk hm)
  have harm := rearm_of_ok (hwReceiveArm_arms (c := c) hans (by rw [hperiph]; exact takeForced_none.mpr hf)
    (by rw [hperiph]; exact ha))
  obtain ⟨hexec, hothers, henv⟩ := execIrqRx_of_rearm_ok hk hr hh hb hv harm
  refine ⟨_, hexec, ?_, ?_, hothers, henv, ?_⟩
  · rw [log_hwlog, setPeriph_hwlog, received_layerRx_hwlog]
  · rw [log_periph, periph_setPeriph_same, hperiph]
  · rw [log_draws, setPeriph_draws, received_layerRx_draws]

/-- Settles O27: the push stands or is dropped before the re-arm, which leaves the block alone. -/
theorem irqRxPushesTheScratchByte : Obligations.IrqRxPushesTheScratchByte := by
  intro s k c v hk hr hb hv
  have hfull : isFullAt (s.head ⟨c, .rx⟩) (s.tail ⟨c, .rx⟩) (s.cap c) = true ↔
      ((s.chan c).rxh.toNat + 1) % (s.chan c).cap.toNat = (s.chan c).rxt.toNat := isFullAt_iff (cap_pos hb)
  obtain ⟨t, hexec, hchans, hmem, hreg, hupc, hres, hin⟩ := execIrqRx_receives hk hr hb hv
  refine ⟨t, hexec, fun d hd => ?others, hreg, hupc, hres, hin, fun hf => ?dropped, fun hnf => ?pushed⟩
  case others =>
    rw [chan_congr hchans, received]
    split
    · rfl
    · rw [pushed_chan, if_neg hd]
  case dropped =>
    rw [received, if_pos (hfull.mpr hf)] at hchans hmem
    exact ⟨chan_congr hchans c, byteAt_congr hin.par hmem⟩
  case pushed =>
    rw [received, if_neg (mt hfull.mp hnf)] at hchans hmem
    have hbyte : ∀ sp i, t.byteAt sp i = (pushed ⟨c, .rx⟩ v s).byteAt sp i := byteAt_congr hin.par hmem
    refine ⟨?_, (hbyte ..).trans (byteAt_pushed ⟨c, .rx⟩ v s), fun sp i hne => ?_⟩
    · rw [chan_congr hchans, pushed_chan, if_pos rfl]
      rfl
    · exact (hbyte sp i).trans (sameMemoryBut_pushed ⟨c, .rx⟩ v s sp i hne)

/-- Settles O29: the forced failure is answered, the unlock leaves nothing armed, and the retry arms or meets the second
forced failure. -/
theorem failedRearmIsRetriedExactlyOnce : Obligations.FailedRearmIsRetriedExactlyOnce := by
  intro s k c v st1 rest rest2 hk hr hh hb hv hm hi hs1
  have hperiph := (received_layerRx_periph k k c v s).trans (layerRx_periph hk hm)
  have hans := (received_layerRx_answersByReference k k c v s).trans (answersByReference_of hk hm)
  obtain ⟨u, hu, hup, hretry⟩ := rearm_of_forced (c := c) hans (by rw [hperiph]; exact hi) hs1
  rw [hperiph] at hup
  rw [received_layerRx_hwlog] at hretry
  refine ⟨fun hf => ?arms, fun st2 hrest hs2 => ?fails⟩
  case arms =>
    have harm := hwReceiveArm_arms (c := c) hu (by rw [hup]; exact takeForced_none.mpr hf) (by rw [hup])
    obtain ⟨hre, hlog⟩ := hretry _ _ harm
    obtain ⟨hexec, hothers, henv⟩ := execIrqRx_of_rearm_ok hk hr hh hb hv hre
    exact ⟨_, hexec, hlog, by rw [log_periph, periph_setPeriph_same, hup], hothers, henv⟩
  case fails =>
    have hfail := hwReceiveArm_forced (c := c) hu (by rw [hup]; exact hrest) hs2
    obtain ⟨hre, hlog⟩ := hretry _ _ hfail
    obtain ⟨hexec, hothers, henv⟩ := execIrqRx_of_rearm_ok hk hr hh hb hv hre
    exact ⟨_, hexec, hlog, by rw [log_periph, periph_setPeriph_same, hup], hothers, henv⟩

/-! ### The obligation on IRQTX -/

/-- Settles O31: the handler pops in the state the layer's part leaves, and the request leaves the block alone. -/
theorem irqTxPopsTheOldestByte : Obligations.IrqTxPopsTheOldestByte := by
  intro s k c hk hr hb
  have hl := layerStep_layerTx k s
  have hexec := execIrqTx_of_registered hk hr
  have hb' := (bufOk_congr hl.block.chans _).trans hb
  have hhead := head_congr hl.block.chans ⟨c, .tx⟩
  have htail := tail_congr hl.block.chans ⟨c, .tx⟩
  refine ⟨fun v hne hv => ?pops, fun he => ?empty⟩
  case pops =>
    rw [onTransmitComplete_of_written hb' (by rw [hhead, htail]; exact hne) (by rw [htail, hl.byteAt]; exact hv),
      chan_congr hl.block.chans] at hexec
    obtain ⟨t, st, ht, hlog⟩ := execIrqTx_submits hk hr hb hne hv
    obtain rfl := Host.Outcome.next.inj (hexec.symm.trans ht)
    have hsub := layerStep_transmit (s.chan c).handle v (popped ⟨c, .tx⟩ (layerTx k s))
    have hchans := hsub.block.chans.trans (popped_congr hl.block.chans ⟨c, .tx⟩)
    have hmem := hsub.block.mem.trans hl.block.mem
    have hin : SameInputs s (popped ⟨c, .tx⟩ (layerTx k s)) := hl.inputs.trans ⟨rfl, rfl, rfl, rfl⟩
    refine ⟨_, st, ht, ?_, fun d hd => ?_, hsub.block.reg.trans hl.block.reg, hsub.block.upc.trans hl.block.upc,
      byteAt_congr (hin.trans hsub.inputs).par hmem, hsub.results.trans hl.results, hin.trans hsub.inputs,
      hsub.envFault.trans hl.envFault, hlog⟩
    · rw [chan_congr hchans, popped_chan, if_pos rfl]
      rfl
    · rw [chan_congr hchans, popped_chan, if_neg hd]
  case empty =>
    rw [onTransmitComplete_of_empty hb' (by rw [hhead, htail]; exact he)] at hexec
    exact ⟨_, hexec, hl.block.chans, hl.block.reg, hl.block.upc, hl.byteAt, hl.results, hl.inputs, hl.envFault,
      layerTx_hwlog k s⟩

end Sys2Proof.Machine
end

