-- ==== Sys2Proof/Proofs/RegistryDispatch.lean ====
section
/-! What a dispatched event writes of the slots: the registers of the one slot registered for its identity, and for
IRQRX one byte of that slot's RX storage (43_registry_dispatch.md R195). -/

namespace Sys2Proof.Machine

section
variable {s t : State} {k : Pid} {c : Slot}

/-- The registry names at most one channel for an identity. -/
theorem eq_of_lookup_of_regAt {c' : Slot} (hk : lookup k s = some c') (hr : s.regAt k = some c) : c' = c :=
  Option.some.inj ((lookup_eq_some.mp hk).2.symm.trans hr)

theorem Effect.sameChansBut_of_irqRx (h : Effect s t (.irqRx k)) (hr : s.regAt k = some c) : SameChansBut c s t := by
  intro d hd
  cases h with
  | nothing _ hc => exact chan_congr hc d
  | flushHead _ _ side hi | flushTail _ _ side hi => cases side <;> cases hi
  | receive _ c' v hk ok hc =>
    obtain rfl := eq_of_lookup_of_regAt hk hr
    rw [chan_congr hc, pushed_chan, if_neg hd]

theorem Effect.sameChansBut_of_irqTx (h : Effect s t (.irqTx k)) (hr : s.regAt k = some c) : SameChansBut c s t := by
  intro d hd
  cases h with
  | nothing _ hc => exact chan_congr hc d
  | flushHead _ _ side hi | flushTail _ _ side hi => cases side <;> cases hi
  | transmit _ c' hk ok hc =>
    obtain rfl := eq_of_lookup_of_regAt hk hr
    rw [chan_congr hc, popped_chan, if_neg hd]

/-- The one byte that IRQRX writes lies in the RX storage of the registered channel. -/
theorem Effect.byteAt_of_irqRx (h : Effect s t (.irqRx k)) (hp : t.par = s.par) (hr : s.regAt k = some c) {sp : Space}
    (hsp : sp ≠ .rxmem c) (x : Idx) : t.byteAt sp x = s.byteAt sp x := by
  rcases effect_bytes h with hm | ⟨sp', y, v, hm, ⟨_, _, hi, _⟩ | ⟨_, c', hi, hk, hsp', _⟩ | ⟨_, _, _, hi, _⟩⟩
  · exact byteAt_congr hp hm sp x
  · cases hi
  · cases hi
    obtain rfl := eq_of_lookup_of_regAt hk hr
    rw [byteAt_of_write hp hm, if_neg fun e => hsp (e.1.trans hsp')]
  · cases hi

/-- IRQTX writes no byte. -/
theorem Effect.sameMemory_of_irqTx (h : Effect s t (.irqTx k)) (hp : t.par = s.par) : SameMemory s t := by
  rcases effect_bytes h with hm | ⟨_, _, _, _, ⟨_, _, hi, _⟩ | ⟨_, _, hi, _⟩ | ⟨_, _, _, hi, _⟩⟩
  · exact byteAt_congr hp hm
  all_goals cases hi

/-- What either event leaves as it was: the other slots' registers, and every byte outside the registered channel's RX
storage. -/
theorem event_frame (hr : s.regAt k = some c) (h : exec (.irqRx k) s = .next t ∨ exec (.irqTx k) s = .next t) :
    SameChansBut c s t ∧ ∀ sp, sp ≠ .rxmem c → ∀ x, t.byteAt sp x = s.byteAt sp x := by
  rcases h with h | h
  · have he := exec_effect h
    exact ⟨he.sameChansBut_of_irqRx hr, fun _ hsp => he.byteAt_of_irqRx (exec_upc h).1.par hr hsp⟩
  · have he := exec_effect h
    exact ⟨he.sameChansBut_of_irqTx hr, fun sp _ => he.sameMemory_of_irqTx (exec_upc h).1.par sp⟩

end

/-- Settles O51: another slot's storage and scratch byte are no byte of the registered channel's RX storage. -/
theorem dispatchTouchesOnlyTheRegisteredChannel : Obligations.DispatchTouchesOnlyTheRegisteredChannel := by
  intro s t k c d hr hd h
  obtain ⟨hchans, hbyte⟩ := event_frame hr h
  have hrx : Space.rxmem d ≠ .rxmem c := fun e => hd (Space.rxmem.inj e)
  exact ⟨hchans d hd, fun x => ⟨hbyte _ hrx x, hbyte (.txmem d) nofun x, hbyte (.scr d) nofun x⟩⟩

end Sys2Proof.Machine
end

