-- ==== Sys2Proof/Proofs/HardwareRequests.lean ====
section
/-! The four request words as steps of the hardware layer, answered by the reference layer, by a free one, and for an
identity the layer does not have (44_hardware_layer.md R216 to R221; log 9, log 10). -/

namespace Sys2Proof.Machine

section
variable {p : Pid} {c : Slot} {b : Byte} {s t : State} {st : HwStatus}

/-! ### A request word is its call, the answer going into the record only -/

theorem exec_hwReceiveArm_of_answer (h : hwReceiveArm p c s = .ok (st, t)) : exec (.hwReceiveArm p c) s = .next t := by
  simp only [exec, execHwReceiveArm, h, bind, Except.bind, pure, Except.pure, finish]

theorem exec_hwTransmitByte_of_answer (h : hwTransmitByte p b s = (st, t)) :
    exec (.hwTransmitByte p b) s = .next t := by
  simp only [exec, execHwTransmitByte, h]

theorem exec_hwIsReady_of_answer {r : Bool} (h : hwIsReady p s = (r, t)) : exec (.hwIsReady p) s = .next t := by
  simp only [exec, execHwIsReady, h]

/-! ### What `RXARM` takes -/

theorem setRxArm_of_supported (hp : p.val < s.par.np) (v : Option Slot) :
    s.setRxArm p v = s.setPeriph p { s.periph p with rxArm := v } := if_pos hp

theorem setRxArm_of_absent (hp : s.par.np ≤ p.val) (v : Option Slot) : s.setRxArm p v = s := if_neg (Nat.not_lt.mpr hp)

theorem exec_unlock_of_supported (hp : p.val < s.par.np) :
    exec (.hwUnlockAndAbortReceive p) s = .next { s.setPeriph p { s.periph p with rxArm := none } with
      hwlog := s.hwlog ++ [.unlockAndAbortReceive p] } := by
  simp only [exec, execHwUnlockAndAbortReceive, hwUnlockAndAbortReceive, setRxArm_of_supported hp]
  rfl

theorem exec_unlock_of_absent (hp : s.par.np ≤ p.val) :
    exec (.hwUnlockAndAbortReceive p) s = .next { s with hwlog := s.hwlog ++ [.unlockAndAbortReceive p] } := by
  simp only [exec, execHwUnlockAndAbortReceive, hwUnlockAndAbortReceive, setRxArm_of_absent hp]
  rfl

/-! ### A free answer to an arm request -/

theorem freeArm_of_ok (h : (freeArm p c s).1 = .ok) :
    (freeArm p c s).2 = { s with draws := s.draws + 1 }.setRxArm p (some c) := if_pos h

theorem freeArm_of_failure (h : (freeArm p c s).1 ≠ .ok) : (freeArm p c s).2 = { s with draws := s.draws + 1 } :=
  if_neg h

theorem freeArm_periph_of_ok (hp : p.val < s.par.np) (h : (freeArm p c s).1 = .ok) :
    (freeArm p c s).2.periph p = { s.periph p with rxArm := some c } := by
  rw [freeArm_of_ok h, setRxArm_of_supported (by exact hp), periph_setPeriph_same]
  rfl

theorem freeArm_periphs_of_failure (h : (freeArm p c s).1 ≠ .ok) : (freeArm p c s).2.periphs = s.periphs := by
  rw [freeArm_of_failure h]

theorem freeArm_periphs_of_absent (hp : s.par.np ≤ p.val) : (freeArm p c s).2.periphs = s.periphs := by
  by_cases h : (freeArm p c s).1 = .ok
  · rw [freeArm_of_ok h, setRxArm_of_absent (by exact hp)]
  · exact freeArm_periphs_of_failure h

/-! ### The requests where no rule fixes the answer -/

theorem exec_hwReceiveArm_free (h : s.answersByReference p = false) :
    ∃ t, exec (.hwReceiveArm p c) s = .next t ∧ t.hwlog = s.hwlog ++ [.receiveArm p c (freeArm p c s).1] ∧
      t.periphs = (freeArm p c s).2.periphs ∧ LayerStep p s t := by
  have ha := hwReceiveArm_free (c := c) h
  exact ⟨_, exec_hwReceiveArm_of_answer ha, hwReceiveArm_hwlog ha, rfl, (hwReceiveArm_ok ha).1⟩

theorem exec_hwTransmitByte_free (h : s.answersByReference p = false) (b : Byte) :
    ∃ t st, exec (.hwTransmitByte p b) s = .next t ∧ t.hwlog = s.hwlog ++ [.transmitByte p b st] ∧
      t.periphs = s.periphs ∧ SameBlock s t ∧ SameInputs s t ∧ t.results = s.results ∧ t.envFault = s.envFault :=
  ⟨_, _, exec_hwTransmitByte_of_answer (hwTransmitByte_free h), rfl, rfl, ⟨rfl, rfl, rfl, rfl⟩, ⟨rfl, rfl, rfl, rfl⟩,
    rfl, rfl⟩

theorem exec_hwIsReady_free (h : s.answersByReference p = false) :
    ∃ t r, exec (.hwIsReady p) s = .next t ∧ t.hwlog = s.hwlog ++ [.isReady p r] ∧
      t.periphs = s.periphs ∧ SameBlock s t ∧ SameInputs s t ∧ t.results = s.results ∧ t.envFault = s.envFault :=
  ⟨_, _, exec_hwIsReady_of_answer (hwIsReady_free h), rfl, rfl, ⟨rfl, rfl, rfl, rfl⟩, ⟨rfl, rfl, rfl, rfl⟩, rfl, rfl⟩

end

/-! ### The obligations on the reference answers -/

/-- Settles O37: the forced failure is answered; with no failure forced and nothing armed the request arms. -/
theorem armRequestAnswersAsTheReference : Obligations.ArmRequestAnswersAsTheReference := by
  intro s p c hp hm
  have hr := answersByReference_of hp hm
  refine ⟨fun st rest hi hs => ?forced, fun rest hi ha => ?forcedOk, fun hi ha => ?natural⟩
  case forced => exact exec_hwReceiveArm_of_answer (hwReceiveArm_forced hr hi hs)
  case forcedOk => exact exec_hwReceiveArm_of_answer (hwReceiveArm_arms hr (takeForced_none.mpr (.inr hi)) ha)
  case natural =>
    have harm := hwReceiveArm_arms (c := c) hr (takeForced_none.mpr (.inl ⟨hi, rfl⟩)) ha
    rw [← hi] at harm
    exact exec_hwReceiveArm_of_answer harm

/-- Settles O38: the forced failure is answered; with none forced the answer is whether a transmit is in flight. -/
theorem transmitRequestAnswersAsTheReference : Obligations.TransmitRequestAnswersAsTheReference := by
  intro s p b hp hm
  have hr := answersByReference_of hp hm
  refine ⟨fun st rest hi hs => ?forced, fun rest hf => ⟨fun hb => ?busy, fun hb => ?starts⟩⟩
  case forced => exact exec_hwTransmitByte_of_answer (hwTransmitByte_forced hr hi hs)
  case busy => exact exec_hwTransmitByte_of_answer (hwTransmitByte_busy hr (takeForced_none.mpr hf) hb)
  case starts => exact exec_hwTransmitByte_of_answer (hwTransmitByte_starts hr (takeForced_none.mpr hf) hb)

/-- Settles O39: the answer is read off `TXBUSY`, and the unlock writes `RXARM`. -/
theorem readyAndUnlockRequestsAnswerAsTheReference : Obligations.ReadyAndUnlockRequestsAnswerAsTheReference := by
  intro s p hp hm
  exact ⟨exec_hwIsReady_of_answer (hwIsReady_reference (answersByReference_of hp hm)), exec_unlock_of_supported hp⟩

/-! ### The obligations on free answers -/

/-- Settles O40: of the answers only an ok to an arm request writes a peripheral, and so does the unlock. -/
theorem everyRequestCompletesUnderAFreeLayer : Obligations.EveryRequestCompletesUnderAFreeLayer := by
  intro s p hp hm
  have hr : s.answersByReference p = false := answersByReference_free hm
  refine ⟨fun c => ?arm, exec_hwTransmitByte_free hr, exec_hwIsReady_free hr, exec_unlock_of_supported hp⟩
  case arm =>
    obtain ⟨t, hexec, hlog, hperiphs, hl⟩ := exec_hwReceiveArm_free (c := c) hr
    exact ⟨t, _, hexec, hlog, fun hok => (periph_congr hperiphs p).trans (freeArm_periph_of_ok hp hok),
      fun hfail => hperiphs.trans (freeArm_periphs_of_failure hfail), hl.periphs, hl.block, hl.inputs, hl.results,
      hl.envFault⟩

/-- Settles O41: the answers are free ones, and there is no `RXARM` to write. -/
theorem requestsForAbsentPeripheralsChangeNothing : Obligations.RequestsForAbsentPeripheralsChangeNothing := by
  intro s p c b hp
  have hr : s.answersByReference p = false := answersByReference_absent hp
  refine ⟨?arm, exec_hwTransmitByte_free hr b, exec_hwIsReady_free hr, exec_unlock_of_absent hp⟩
  case arm =>
    obtain ⟨t, hexec, hlog, hperiphs, hl⟩ := exec_hwReceiveArm_free (c := c) hr
    exact ⟨t, _, hexec, hlog, hperiphs.trans (freeArm_periphs_of_absent hp), hl.block, hl.inputs, hl.results,
      hl.envFault⟩

end Sys2Proof.Machine
end

