-- ==== Sys2Proof/Proofs/HardwareEvents.lean ====
section
/-! The environment words HWRXD and HWINJ, the reference layer's part in IRQTX, and the double arm (44_hardware_layer.md
R218, R219, R222 to R225). -/

namespace Sys2Proof.Machine

section
variable {k p : Pid} {c : Slot} {b v : Byte} {s u : State} {rest : List HwStatus}

/-! ### HWRXD -/

/-- The state a delivery leaves: the scratch byte written, the peripheral disarmed, and under the reference layer a
completion pending. -/
def delivered (k : Pid) (c : Slot) (b : Byte) (s : State) : State :=
  { s.setPeriph k { s.periph k with
      rxArm := none, rxDone := if s.par.hwModel = .reference then true else (s.periph k).rxDone } with
    mem := s.mem.write ((Space.scr c).addr 0) b }

/-- A completion is pending after a delivery under the reference layer; a free layer keeps the bit. -/
theorem rxDone_or_reference (done : Bool) (m : Config.HwModel) :
    (done || decide (m = .reference)) = if m = .reference then true else done := by
  cases m
  · exact Bool.or_false done
  · exact Bool.or_true done

theorem exec_hwrxd_of_armed (hk : k.val < s.par.np) (ha : (s.periph k).rxArm = some c) :
    exec (.hwrxd k b) s = .next (delivered k c b s) := by
  have hw := memWrite_of_size (s := s) (sp := .scr c) (i := 0) b Nat.one_pos
  simp only [exec, execHwrxd, deliver, if_pos hk, ha, hw, bind, Except.bind, pure, Except.pure, finish,
    rxDone_or_reference]
  rfl

theorem exec_hwrxd_of_dropped (h : s.par.np ≤ k.val ∨ (s.periph k).rxArm = none) : exec (.hwrxd k b) s = .next s := by
  simp only [exec, execHwrxd, deliver]
  rcases h with hk | ha
  · rw [if_neg (Nat.not_lt.mpr hk)]
    rfl
  · rw [ha, ite_self]
    rfl

theorem delivered_byteAt (k : Pid) (c : Slot) (b : Byte) (s : State) (sp : Space) (i : Idx) :
    (delivered k c b s).byteAt sp i = if sp = .scr c ∧ i = 0 then some b else s.byteAt sp i :=
  byteAt_write s (.scr c) sp 0 i b

theorem delivered_periph (k : Pid) (c : Slot) (b : Byte) (s : State) :
    (delivered k c b s).periph k = { s.periph k with
      rxArm := none, rxDone := if s.par.hwModel = .reference then true else (s.periph k).rxDone } :=
  periph_setPeriph_same ..

/-! ### HWINJ -/

theorem exec_hwinj_of_queued {sel : InjSel} {st : BitVec 2} (hr : s.answersByReference k = true) (hs : st ≠ 3) :
    exec (.hwinj k sel st) s = .next (inject k sel (HwStatus.ofBits st) s) := by
  simp only [exec, execHwinj, hr, bne_iff_ne.mpr hs, Bool.and_self, if_true]

theorem exec_hwinj_of_dropped {sel : InjSel} {st : BitVec 2} (hr : s.answersByReference k = false) :
    exec (.hwinj k sel st) s = .next s := by
  simp only [exec, execHwinj, hr, Bool.false_and]
  rfl

/-! ### The double arm -/

/-- From a state that differs from `s` in nothing the double arm is asked about, a double arm ends as one from `s`. -/
theorem endsInDoubleArm_of (hm : s.par.hwModel = .reference) (hpar : u.par = s.par)
    (ha : (u.periph p).rxArm = (s.periph p).rxArm) (hl : u.hwlog = s.hwlog) (hr : u.results = s.results) :
    EndsInDoubleArm p rest s { u.setPeriph p { u.periph p with injRx := rest } with envFault := true } where
  envFault := rfl
  injRx := congrArg Periph.injRx (periph_setPeriph_same u p _)
  rxArm := (congrArg Periph.rxArm (periph_setPeriph_same u p _)).trans ha
  hwlog := hl
  results := hr
  step := step_of_faulted (by simp [State.faulted, hpar, hm])

/-- An arm request with a receive armed and no failure forced stops, whatever slot it names. -/
theorem hwReceiveArm_of_armed (hp : p.val < s.par.np) (hm : s.par.hwModel = .reference) (ha : (s.periph p).rxArm ≠ none)
    (hf : NoFailureForced (s.periph p).injRx rest) :
    hwReceiveArm p c s = .error (.envFault (s.setPeriph p { s.periph p with injRx := rest })) := by
  obtain ⟨d, hd⟩ := Option.ne_none_iff_exists'.mp ha
  exact hwReceiveArm_double (answersByReference_of hp hm) (takeForced_none.mpr hf) hd

/-- BEGIN stops where its arm request does. -/
theorem exec_begin_of_double (hu : s.upc = .begin1 c) (hs : s.selects c = true)
    (ha : hwReceiveArm (s.chan c).handle c s = .error (.envFault u)) :
    exec (.beginCh c) s = .next { u with envFault := true } := by
  rw [exec_begin_of_running (by rw [hu]; rfl), beginMicro, hu]
  simp only [selecting_of_selects _ hs, ha, bind, Except.bind, finish]

theorem exec_hwReceiveArm_of_double (ha : hwReceiveArm p c s = .error (.envFault u)) :
    exec (.hwReceiveArm p c) s = .next { u with envFault := true } := by
  simp only [exec, execHwReceiveArm, ha, bind, Except.bind, finish]

/-- IRQRX stops where the first arm request of its re-arm does. -/
theorem exec_irqRx_of_double (hk : k.val < s.par.np) (hr : s.regAt k = some c) (hb : s.bufOk ⟨c, .rx⟩ = true)
    (hv : s.byteAt (.scr c) 0 = some v)
    (ha : hwReceiveArm (s.chan c).handle c (received c v (layerRx k s)) = .error (.envFault u)) :
    exec (.irqRx k) s = .next { u with envFault := true } := by
  rw [execIrqRx_eq_rearm hk hr hb hv, rearm_of_error ha, finish]

theorem received_layerRx_results (k : Pid) (c : Slot) (v : Byte) (s : State) :
    (received c v (layerRx k s)).results = s.results := by
  obtain ⟨-, -, hres⟩ := received_control c v (layerRx k s)
  exact hres.trans (layerStep_layerRx k s).results

/-! ### IRQTX after the layer's part -/

/-- On a non-empty TX buffer IRQTX is the request for the oldest byte, in the state the layer's part and the pop
leave. -/
theorem exec_irqTx_of_oldest (hk : k.val < s.par.np) (hr : s.regAt k = some c) (hb : s.bufOk ⟨c, .tx⟩ = true)
    (hne : (s.chan c).txh ≠ (s.chan c).txt) (hv : s.byteAt (.txmem c) (s.chan c).txt = some v) :
    exec (.irqTx k) s = .next (hwTransmitByte (s.chan c).handle v (popped ⟨c, .tx⟩ (layerTx k s))).2 := by
  have hl := layerStep_layerTx k s
  have hh := head_congr hl.block.chans ⟨c, .tx⟩
  have ht := tail_congr hl.block.chans ⟨c, .tx⟩
  rw [execIrqTx_of_registered hk hr, onTransmitComplete_of_written ((bufOk_congr hl.block.chans _).trans hb)
    (by rw [hh, ht]; exact hne) (by rw [ht, hl.byteAt]; exact hv), chan_congr hl.block.chans]
  rfl

theorem exec_irqTx_of_empty (hk : k.val < s.par.np) (hr : s.regAt k = some c) (hb : s.bufOk ⟨c, .tx⟩ = true)
    (he : (s.chan c).txh = (s.chan c).txt) : exec (.irqTx k) s = .next (layerTx k s) := by
  have hl := layerStep_layerTx k s
  rw [execIrqTx_of_registered hk hr, onTransmitComplete_of_empty ((bufOk_congr hl.block.chans _).trans hb)
    (by rw [head_congr hl.block.chans, tail_congr hl.block.chans]; exact he)]
  rfl

/-- The line after the layer's part, named by its two cases. -/
theorem layerTx_periph_of_line {line : List Byte} (hk : k.val < s.par.np) (hm : s.par.hwModel = .reference)
    (hbusy : (s.periph k).txBusy = true → line = (s.periph k).line ++ [(s.periph k).txCur])
    (hidle : (s.periph k).txBusy = false → line = (s.periph k).line) :
    (layerTx k s).periph k = { s.periph k with line := line, txBusy := false } := by
  rw [layerTx_periph hk hm]
  cases hb : (s.periph k).txBusy with
  | true => rw [hbusy hb]; rfl
  | false => rw [hidle hb]; rfl

theorem popped_layerTx_periph (k q : Pid) (c : Slot) (s : State) :
    (popped ⟨c, .tx⟩ (layerTx k s)).periph q = (layerTx k s).periph q := setTail_periph ..

theorem popped_layerTx_hwlog (k : Pid) (c : Slot) (s : State) : (popped ⟨c, .tx⟩ (layerTx k s)).hwlog = s.hwlog :=
  layerTx_hwlog k s

theorem popped_layerTx_answersByReference (k p : Pid) (c : Slot) (s : State) :
    (popped ⟨c, .tx⟩ (layerTx k s)).answersByReference p = s.answersByReference p := by
  rw [State.answersByReference, popped, setTail_par, (layerStep_layerTx k s).inputs.par, State.answersByReference]

/-- IRQTX on a channel whose handle is the event's identity moves that peripheral only, as its request does. -/
theorem exec_irqTx_of_answer {x : Periph} {st : HwStatus} (hk : k.val < s.par.np) (hr : s.regAt k = some c)
    (hh : (s.chan c).handle = k) (hb : s.bufOk ⟨c, .tx⟩ = true) (hne : (s.chan c).txh ≠ (s.chan c).txt)
    (hv : s.byteAt (.txmem c) (s.chan c).txt = some v)
    (ha : hwTransmitByte k v (popped ⟨c, .tx⟩ (layerTx k s)) =
      (st, ((popped ⟨c, .tx⟩ (layerTx k s)).setPeriph k x).log (.transmitByte k v st))) :
    ∃ t, exec (.irqTx k) s = .next t ∧ t.periph k = x ∧ SamePeriphsBut k s t ∧
      t.hwlog = s.hwlog ++ [.transmitByte k v st] := by
  rw [exec_irqTx_of_oldest hk hr hb hne hv, hh, ha]
  refine ⟨_, rfl, periph_setPeriph_same .., fun q hq => ?_, ?_⟩
  · rw [log_periph, periph_setPeriph_ne _ x hq, popped_layerTx_periph, (layerStep_layerTx k s).periphs q hq]
  · rw [log_hwlog, setPeriph_hwlog, popped_layerTx_hwlog]

end

/-! ### The obligations -/

/-- Settles O35: an armed slot is written whether or not it holds a channel. -/
theorem hwrxdDeliversIntoTheArmedSlot : Obligations.HwrxdDeliversIntoTheArmedSlot := by
  intro s k b
  refine ⟨fun c hk ha => ?delivered, exec_hwrxd_of_dropped⟩
  case delivered =>
    refine ⟨delivered k c b s, exec_hwrxd_of_armed hk ha, ?_, fun sp i hne => ?_, delivered_periph k c b s,
      fun q hq => periph_setPeriph_ne _ _ hq, rfl, rfl, rfl, rfl, rfl, rfl, rfl, ⟨rfl, rfl, rfl, rfl⟩⟩
    · rw [delivered_byteAt, if_pos ⟨rfl, rfl⟩]
    · rw [delivered_byteAt, if_neg hne]

/-- Settles O36: the three legal statuses are the codes of the three answers. -/
theorem hwinjQueuesAForcedAnswer : Obligations.HwinjQueuesAForcedAnswer := by
  intro s k sel st answer hst
  obtain ⟨hanswer, hlegal⟩ : HwStatus.ofBits st = answer ∧ st ≠ 3 := by
    rcases hst with ⟨rfl, rfl⟩ | ⟨rfl, rfl⟩ | ⟨rfl, rfl⟩ <;> decide
  refine ⟨fun hk hm => ?queued, fun hdrop => exec_hwinj_of_dropped ?dropped⟩
  case queued =>
    rw [exec_hwinj_of_queued (answersByReference_of hk hm) hlegal, hanswer]
    cases sel <;> rfl
  case dropped => exact hdrop.elim answersByReference_absent answersByReference_free

/-- Settles O14: each of the three ways of arming ends where its first arm request stops. -/
theorem doubleArmFaultsTheRun : Obligations.DoubleArmFaultsTheRun := by
  refine ⟨fun s hm he => step_of_faulted (by simp [State.faulted, he, hm]), fun s p c rest hp hm ha hf => ?_⟩
  have hstop := fun d => hwReceiveArm_of_armed (c := d) hp hm ha hf
  have hends := endsInDoubleArm_of (p := p) (rest := rest) hm rfl rfl rfl rfl
  refine ⟨fun hu hc hv hh => ?begin, fun k v hk hr hh hb hv => ?irqRx, ?request⟩
  case begin =>
    subst hh
    exact ⟨_, exec_begin_of_double hu (selects_of hc hv) (hstop c), rfl, hends⟩
  case irqRx =>
    subst hh
    obtain ⟨harm, hinj⟩ := layerRx_arm k (s.chan c).handle s
    rw [← received_layerRx_periph k _ c v] at harm hinj
    have hpar := received_layerRx_par k c v s
    refine ⟨_, exec_irqRx_of_double hk hr hb hv (hwReceiveArm_of_armed (rest := rest) ?_ ?_ ?_ ?_),
      endsInDoubleArm_of hm hpar harm (received_layerRx_hwlog k c v s) (received_layerRx_results k c v s)⟩
    · rw [hpar]; exact hp
    · rw [hpar]; exact hm
    · rw [harm]; exact ha
    · rw [hinj]; exact hf
  case request => exact ⟨_, exec_hwReceiveArm_of_double (hstop c), hends⟩

/-- Settles O32: the request is made in the state the layer's part and the pop leave, whose peripheral is idle. -/
theorem irqTxCompletesTheByteInFlight : Obligations.IrqTxCompletesTheByteInFlight := by
  intro s k c hk hr hh hb hm line hbusy hidle
  have hlayer := layerTx_periph_of_line hk hm hbusy hidle
  refine ⟨fun v rest hne hv => ?oldest, fun he => ?empty⟩
  case oldest =>
    have hans := (popped_layerTx_answersByReference k k c s).trans (answersByReference_of hk hm)
    have hperiph := (popped_layerTx_periph k k c s).trans hlayer
    refine ⟨fun hf => ?starts, fun st hi hs => ?forced⟩
    case starts =>
      have hsub := hwTransmitByte_starts (b := v) hans (by rw [hperiph]; exact takeForced_none.mpr hf) (by rw [hperiph])
      rw [hperiph] at hsub
      exact exec_irqTx_of_answer hk hr hh hb hne hv hsub
    case forced =>
      have hsub := hwTransmitByte_forced (b := v) hans (by rw [hperiph]; exact hi) hs
      rw [hperiph] at hsub
      exact exec_irqTx_of_answer hk hr hh hb hne hv hsub
  case empty =>
    exact ⟨_, exec_irqTx_of_empty hk hr hb he, hlayer, (layerStep_layerTx k s).periphs, layerTx_hwlog k s⟩

end Sys2Proof.Machine
end

