-- ==== Sys2Proof/Proofs/SurfacingConditions.lean ====
section
/-! The conditions that surface as a status: BufferFull at WRITE's step W.2 and BufferEmpty at READ's step R.2
(60_exceptions.md R241, R242), and no other micro-step of the two commands returns that status. -/

namespace Sys2Proof.Machine

section
variable {s t : State} {c : Slot} {b : Byte} {h : Idx} {st : Status}

/-! ### The status a turn returns -/

theorem statusField_resultWord (st : Status) (v : BitVec 16) : statusField (resultWord st v) = st.code := by
  rw [statusField, resultWord, BitVec.append_assoc]
  exact BitVec.extractLsb'_append_eq_left

/-- Between `s` and `t` no result word with the status `st` is returned. -/
def ReturnsNo (st : Status) (s t : State) : Prop := ∀ v, t.results ≠ s.results ++ [resultWord st v]

theorem ReturnsNo.of_same (hr : t.results = s.results) : ReturnsNo st s t := by
  intro v e
  simpa using hr.symm.trans e

theorem ReturnsNo.of_other {st' : Status} {v' : BitVec 16} (hr : t.results = s.results ++ [resultWord st' v'])
    (hne : st'.code ≠ st.code) : ReturnsNo st s t := by
  intro v e
  have hw := congrArg statusField (List.singleton_inj.mp (List.append_cancel_left (hr.symm.trans e)))
  rw [statusField_resultWord, statusField_resultWord] at hw
  exact hne hw

/-- A command's turn that does no micro-step returns nothing. -/
theorem runCommand_returnsNo {i : Instr} {first : Upc} {micro : State → Except Stop State}
    (hm : s.upc.command = some i → finish (micro s) = .next t → ReturnsNo st s t)
    (hr : runCommand i first micro s = .next t) : ReturnsNo st s t := by
  rcases runCommand_next hr with ⟨-, rfl⟩ | ⟨hc, hf⟩ | ⟨-, -, rfl⟩
  · exact .of_same rfl
  · exact hm hc hf
  · exact .of_same rfl

/-! ### WRITE -/

/-- Of the micro-steps of WRITE only W.2 returns FULL. -/
theorem writeMicro_returnsNo_full (hn : ∀ c b h, s.upc ≠ .write2 c b h) (hw : finish (writeMicro s) = .next t) :
    ReturnsNo .full s t := by
  unfold writeMicro at hw
  split at hw
  · rcases finish_selecting hw with ⟨-, hw⟩ | ⟨-, rfl⟩
    · obtain ⟨_, -, hw⟩ := finish_bind faultsOnly_loadHead hw
      cases hw
      exact .of_same rfl
    · exact .of_other rfl (by decide)
  · next hu => exact absurd hu (hn _ _ _)
  · obtain ⟨_, ha, hw⟩ := finish_bind faultsOnly_storeByte hw
    obtain ⟨-, -, rfl⟩ := storeByte_ok.mp ha
    cases hw
    exact .of_same rfl
  · obtain ⟨_, ha, hw⟩ := finish_bind faultsOnly_advanceHead hw
    obtain ⟨-, rfl⟩ := advanceHead_ok.mp ha
    cases hw
    exact .of_same rfl
  · next c _ _ _ _ =>
    have hl := (layerStep_isReady (s.chan c).handle s).results
    cases hw
    split
    · exact .of_same hl
    · exact .of_other (congrArg (· ++ _) hl) (by decide)
  · obtain ⟨_, -, hw⟩ := finish_bind faultsOnly_loadHead hw
    cases hw
    exact .of_same rfl
  · obtain ⟨_, -, hw⟩ := finish_bind faultsOnly_loadTail hw
    cases hw
    split
    · exact .of_other rfl (by decide)
    · exact .of_same rfl
  · obtain ⟨_, -, hw⟩ := finish_bind faultsOnly_loadByte hw
    cases hw
    exact .of_same rfl
  · obtain ⟨_, ha, hw⟩ := finish_bind faultsOnly_advanceTail hw
    obtain ⟨-, rfl⟩ := advanceTail_ok.mp ha
    cases hw
    exact .of_same rfl
  · next c _ _ _ _ _ _ v _ =>
    have hl := (layerStep_transmit (s.chan c).handle v s).results
    cases hw
    exact .of_other (congrArg (· ++ _) hl) (by decide)
  · cases hw
    exact .of_same rfl

/-- A turn of WRITE that is not its step W.2 returns no FULL. -/
theorem exec_write_returnsNo_full (hn : ∀ h, s.upc ≠ .write2 c b h) (hw : exec (.write c b) s = .next t) :
    ReturnsNo .full s t := by
  refine runCommand_returnsNo (fun hc hf => writeMicro_returnsNo_full (fun c' b' h hu => ?_) hf) hw
  rw [hu] at hc
  cases hc
  exact hn h hu

theorem writeConditions_of_write2 (hu : s.upc = .write2 c b h) (hb : s.bufOk ⟨c, .tx⟩ = true) :
    writeConditions c b s = if isFullAt h (s.chan c).txt (s.chan c).cap then [.bufferFull] else [] := by
  simp only [writeConditions, hu, loadTail_of_bufOk hb, true_and]
  rfl

theorem writeConditions_of_other (hn : ∀ h, s.upc ≠ .write2 c b h) : writeConditions c b s = [] := by
  unfold writeConditions
  split
  · next c' b' h hu =>
    split
    · exact if_neg fun ⟨hc, hb, _⟩ => hn h (by rw [hu, hc, hb])
    · rfl
  · rfl

/-- Step W.2 goes on only with the TX indices in range. -/
theorem bufOk_of_write2 (hu : s.upc = .write2 c b h) (hw : exec (.write c b) s = .next t) :
    s.bufOk ⟨c, .tx⟩ = true := by
  rw [exec_write_of_running (by rw [hu]; rfl), writeMicro, hu] at hw
  obtain ⟨_, ha, -⟩ := finish_bind faultsOnly_loadTail hw
  exact (loadTail_ok.mp ha).1

theorem returns_full_iff (hw : exec (.write c b) s = .next t) :
    t.results = s.results ++ [resultWord .full 0] ↔ Condition.bufferFull ∈ writeConditions c b s := by
  by_cases hu : ∃ h, s.upc = .write2 c b h
  · obtain ⟨h, hu⟩ := hu
    have hb := bufOk_of_write2 hu hw
    rw [writeConditions_of_write2 hu hb]
    rw [exec_write_loads_tail hu hb] at hw
    cases hw
    split
    · exact iff_of_true rfl (List.mem_singleton_self _)
    · exact iff_of_false (ReturnsNo.of_same rfl 0) List.not_mem_nil
  · have hn := not_exists.mp hu
    rw [writeConditions_of_other hn]
    exact iff_of_false (exec_write_returnsNo_full hn hw 0) List.not_mem_nil

/-! ### READ -/

/-- Of the micro-steps of READ only R.2 returns EMPTY. -/
theorem readMicro_returnsNo_empty (hn : ∀ c h, s.upc ≠ .read2 c h) (hr : finish (readMicro s) = .next t) :
    ReturnsNo .empty s t := by
  unfold readMicro at hr
  split at hr
  · rcases finish_selecting hr with ⟨-, hr⟩ | ⟨-, rfl⟩
    · obtain ⟨_, -, hr⟩ := finish_bind faultsOnly_loadHead hr
      cases hr
      exact .of_same rfl
    · exact .of_other rfl (by decide)
  · next hu => exact absurd hu (hn _ _)
  · obtain ⟨_, -, hr⟩ := finish_bind faultsOnly_loadByte hr
    cases hr
    exact .of_same rfl
  · obtain ⟨_, ha, hr⟩ := finish_bind faultsOnly_advanceTail hr
    obtain ⟨-, rfl⟩ := advanceTail_ok.mp ha
    cases hr
    exact .of_other rfl (by decide)
  · cases hr
    exact .of_same rfl

/-- A turn of READ that is not its step R.2 returns no EMPTY. -/
theorem exec_read_returnsNo_empty (hn : ∀ h, s.upc ≠ .read2 c h) (hr : exec (.read c) s = .next t) :
    ReturnsNo .empty s t := by
  refine runCommand_returnsNo (fun hc hf => readMicro_returnsNo_empty (fun c' h hu => ?_) hf) hr
  rw [hu] at hc
  cases hc
  exact hn h hu

theorem readConditions_of_read2 (hu : s.upc = .read2 c h) (hb : s.bufOk ⟨c, .rx⟩ = true) :
    readConditions c s = if isEmptyAt h (s.chan c).rxt then [.bufferEmpty] else [] := by
  simp only [readConditions, hu, loadTail_of_bufOk hb, true_and]
  rfl

theorem readConditions_of_other (hn : ∀ h, s.upc ≠ .read2 c h) : readConditions c s = [] := by
  unfold readConditions
  split
  · next c' h hu =>
    split
    · exact if_neg fun ⟨hc, _⟩ => hn h (by rw [hu, hc])
    · rfl
  · rfl

/-- Step R.2 goes on only with the RX indices in range. -/
theorem bufOk_of_read2 (hu : s.upc = .read2 c h) (hr : exec (.read c) s = .next t) : s.bufOk ⟨c, .rx⟩ = true := by
  rw [exec_read_of_running (by rw [hu]; rfl), readMicro, hu] at hr
  obtain ⟨_, ha, -⟩ := finish_bind faultsOnly_loadTail hr
  exact (loadTail_ok.mp ha).1

theorem returns_empty_iff (hr : exec (.read c) s = .next t) :
    t.results = s.results ++ [resultWord .empty 0] ↔ Condition.bufferEmpty ∈ readConditions c s := by
  by_cases hu : ∃ h, s.upc = .read2 c h
  · obtain ⟨h, hu⟩ := hu
    have hb := bufOk_of_read2 hu hr
    rw [readConditions_of_read2 hu hb]
    rw [exec_read_loads_tail hu hb] at hr
    cases hr
    split
    · exact iff_of_true rfl (List.mem_singleton_self _)
    · exact iff_of_false (ReturnsNo.of_same rfl 0) List.not_mem_nil
  · have hn := not_exists.mp hu
    rw [readConditions_of_other hn]
    exact iff_of_false (exec_read_returnsNo_empty hn hr 0) List.not_mem_nil

end

/-! ### The obligations -/

/-- Settles O58: `0x01000000` and `0x02000000` are the words FULL and EMPTY. -/
theorem surfacingConditionsAreTheStatusesReturned : Obligations.SurfacingConditionsAreTheStatusesReturned :=
  ⟨fun _ _ _ _ => returns_full_iff, fun _ _ _ => returns_empty_iff⟩

/-- Settles O23: the start, W.1, and W.2 on the full buffer. -/
theorem writeOnAFullBufferReturnsFull : Obligations.WriteOnAFullBufferReturnsFull := by
  intro s c b hu hc hv hb hf
  rw [turnsOf_write_of_full hu (selects_of hc hv) hb ((isFullAt_iff (cap_pos hb)).mpr hf), endCommand_of_idle hu]
  rfl

end Sys2Proof.Machine
end

