-- ==== Sys2Proof/Proofs/EventEntry.lean ====
section
/-! What the two events do to the block, whatever the hardware layer holds, and what every event, environment word and
request word leaves alone (60_exceptions.md R245, R251, R252). -/

namespace Sys2Proof.Machine

section
variable {s t l r : State} {k : Pid} {c : Slot} {v : Byte}

/-! ### Everything but the hardware layer -/

/-- Two states agree on everything but the hardware layer's state and its log. -/
structure SameButLayer (s t : State) : Prop where
  block : SameBlock s t
  inputs : SameInputs s t
  results : t.results = s.results

theorem SameButLayer.refl (s : State) : SameButLayer s s := ⟨⟨rfl, rfl, rfl, rfl⟩, ⟨rfl, rfl, rfl, rfl⟩, rfl⟩

theorem SameButLayer.trans (h : SameButLayer s l) (h' : SameButLayer l t) : SameButLayer s t :=
  ⟨⟨h'.block.chans.trans h.block.chans, h'.block.reg.trans h.block.reg, h'.block.mem.trans h.block.mem,
      h'.block.upc.trans h.block.upc⟩,
    h.inputs.trans h'.inputs, h'.results.trans h.results⟩

theorem LayerStep.sameButLayer {p : Pid} (h : LayerStep p s t) : SameButLayer s t := ⟨h.block, h.inputs, h.results⟩

theorem SameButLayer.lookup (h : SameButLayer s l) (k : Pid) : lookup k l = lookup k s :=
  lookup_congr h.inputs.par h.block.reg k

theorem SameButLayer.bufOk (h : SameButLayer s l) (b : Buf) : l.bufOk b = s.bufOk b := bufOk_congr h.block.chans b

theorem SameButLayer.byteAt (h : SameButLayer s l) (sp : Space) (i : Idx) : l.byteAt sp i = s.byteAt sp i :=
  byteAt_congr h.inputs.par h.block.mem sp i

theorem SameButLayer.received (h : SameButLayer s l) (c : Slot) (v : Byte) :
    SameButLayer (received c v s) (received c v l) := by
  unfold Machine.received
  rw [head_congr h.block.chans, tail_congr h.block.chans, cap_chan, cap_chan, chan_congr h.block.chans]
  split
  · exact h
  · obtain ⟨hchans, hmem⟩ := pushed_congr h.block.chans h.block.mem ⟨c, .rx⟩ v
    obtain ⟨⟨-, hreg, -, hupc⟩, ⟨hpar, hcounts, hcmdQ, hturns⟩, hres⟩ := h
    exact ⟨⟨hchans, hreg, hmem, hupc⟩, ⟨hpar, hcounts, hcmdQ, hturns⟩, hres⟩

theorem SameButLayer.popped (h : SameButLayer s l) (c : Slot) :
    SameButLayer (popped ⟨c, .tx⟩ s) (popped ⟨c, .tx⟩ l) := by
  have hchans := popped_congr h.block.chans ⟨c, .tx⟩
  obtain ⟨⟨-, hreg, hmem, hupc⟩, ⟨hpar, hcounts, hcmdQ, hturns⟩, hres⟩ := h
  exact ⟨⟨hchans, hreg, hmem, hupc⟩, ⟨hpar, hcounts, hcmdQ, hturns⟩, hres⟩

/-- A re-arm leaves everything but the layer alone, whether or not it ends in a double arm. -/
theorem sameButLayer_rearm {p : Pid} (h : finish (rearm p c s) = .next t) : SameButLayer s t := by
  obtain ⟨hchans, hreg, hmem, hupc, hres, hin, -⟩ := rearm_next h
  exact ⟨⟨hchans, hreg, hmem, hupc⟩, hin, hres⟩

/-! ### An event without a channel -/

theorem execIrqRx_of_unregistered (hk : lookup k s = none) : exec (.irqRx k) s = .next (layerRx k s) := by
  rw [execIrqRx_eq, hk]

theorem execIrqTx_of_unregistered (hk : lookup k s = none) : exec (.irqTx k) s = .next (layerTx k s) := by
  rw [execIrqTx_eq, hk]

theorem irqRxConditions_of_unregistered (hk : lookup k s = none) :
    conditions (.irqRx k) s = [.unregisteredPeripheral] := by
  simp only [conditions, irqRxConditions, hk]

theorem irqTxConditions_of_unregistered (hk : lookup k s = none) :
    conditions (.irqTx k) s = [.unregisteredPeripheral] := by
  simp only [conditions, irqTxConditions, hk]

/-! ### IRQRX on the block -/

/-- What IRQRX for `k` makes of the block of `s`: nothing without a registered channel, else the scratch byte of that
channel is pushed or dropped. -/
inductive ReceivedBy (k : Pid) (s : State) : State → Prop where
  | ignored (hk : lookup k s = none) : ReceivedBy k s s
  | handled {c : Slot} {v : Byte} (hk : lookup k s = some c) (hb : s.bufOk ⟨c, .rx⟩ = true)
      (hv : s.byteAt (.scr c) 0 = some v) : ReceivedBy k s (received c v s)

/-- IRQRX goes on wherever `ReceivedBy` says so, from every state of the layer. -/
theorem ReceivedBy.execIrqRx (h : ReceivedBy k s r) (hl : SameButLayer s l) :
    ∃ t, exec (.irqRx k) l = .next t ∧ SameButLayer r t := by
  have hlayer := (layerStep_layerRx k l).sameButLayer
  cases h with
  | ignored hk =>
    exact ⟨_, execIrqRx_of_unregistered ((hl.lookup k).trans hk), hl.trans hlayer⟩
  | @handled c v hk hb hv =>
    obtain ⟨hp, hr⟩ := lookup_eq_some.mp ((hl.lookup k).trans hk)
    obtain ⟨t, ht⟩ := rearm_goes_on (l.chan c).handle c (received c v (layerRx k l))
    exact ⟨t, (execIrqRx_eq_rearm hp hr ((hl.bufOk _).trans hb) ((hl.byteAt _ _).trans hv)).trans ht,
      ((hl.trans hlayer).received c v).trans (sameButLayer_rearm ht)⟩

/-- An IRQRX that goes on does one of the two. -/
theorem receivedBy_of_next (h : exec (.irqRx k) s = .next t) : ∃ r, ReceivedBy k s r ∧ SameButLayer r t := by
  have hr : ∃ r, ReceivedBy k s r := by
    cases hk : lookup k s with
    | none => exact ⟨s, .ignored hk⟩
    | some c =>
      obtain ⟨hp, hreg⟩ := lookup_eq_some.mp hk
      have hlayer := (layerStep_layerRx k s).sameButLayer
      rw [execIrqRx_of_registered hp hreg] at h
      rcases onReceiveComplete_cases c (layerRx k s) with he | ⟨he, -⟩ | ⟨v, hv, hb⟩
      · rw [he] at h; cases h
      · rw [he] at h; cases h
      · exact ⟨_, .handled hk ((hlayer.bufOk _).symm.trans hb) ((hlayer.byteAt _ _).symm.trans hv)⟩
  obtain ⟨r, hr⟩ := hr
  obtain ⟨t', ht', hsame⟩ := hr.execIrqRx (.refl s)
  obtain rfl := Host.Outcome.next.inj (h.symm.trans ht')
  exact ⟨r, hr, hsame⟩

/-! ### IRQTX on the block -/

/-- What IRQTX for `k` makes of the block of `s`: nothing without a registered channel or on an empty TX buffer, else
the oldest byte is popped. -/
inductive TransmittedBy (k : Pid) (s : State) : State → Prop where
  | ignored (hk : lookup k s = none) : TransmittedBy k s s
  | empty {c : Slot} (hk : lookup k s = some c) (hb : s.bufOk ⟨c, .tx⟩ = true)
      (he : s.head ⟨c, .tx⟩ = s.tail ⟨c, .tx⟩) : TransmittedBy k s s
  | handled {c : Slot} {v : Byte} (hk : lookup k s = some c) (hb : s.bufOk ⟨c, .tx⟩ = true)
      (he : s.head ⟨c, .tx⟩ ≠ s.tail ⟨c, .tx⟩) (hv : s.byteAt (.txmem c) (s.tail ⟨c, .tx⟩) = some v) :
      TransmittedBy k s (popped ⟨c, .tx⟩ s)

/-- IRQTX goes on wherever `TransmittedBy` says so, from every state of the layer. -/
theorem TransmittedBy.execIrqTx (h : TransmittedBy k s r) (hl : SameButLayer s l) :
    ∃ t, exec (.irqTx k) l = .next t ∧ SameButLayer r t := by
  have hlayer := (layerStep_layerTx k l).sameButLayer
  have hhead := head_congr hl.block.chans
  have htail := tail_congr hl.block.chans
  cases h with
  | ignored hk =>
    exact ⟨_, execIrqTx_of_unregistered ((hl.lookup k).trans hk), hl.trans hlayer⟩
  | empty hk hb he =>
    obtain ⟨hp, hr⟩ := lookup_eq_some.mp ((hl.lookup k).trans hk)
    rw [← hhead, ← htail] at he
    exact ⟨_, exec_irqTx_of_empty hp hr ((hl.bufOk _).trans hb) he, hl.trans hlayer⟩
  | handled hk hb he hv =>
    obtain ⟨hp, hr⟩ := lookup_eq_some.mp ((hl.lookup k).trans hk)
    rw [← hl.byteAt, ← htail] at hv
    rw [← hhead, ← htail] at he
    exact ⟨_, exec_irqTx_of_oldest hp hr ((hl.bufOk _).trans hb) he hv,
      ((hl.trans hlayer).popped _).trans (layerStep_transmit ..).sameButLayer⟩

/-- An IRQTX that goes on does one of the three. -/
theorem transmittedBy_of_next (h : exec (.irqTx k) s = .next t) : ∃ r, TransmittedBy k s r ∧ SameButLayer r t := by
  have hr : ∃ r, TransmittedBy k s r := by
    cases hk : lookup k s with
    | none => exact ⟨s, .ignored hk⟩
    | some c =>
      obtain ⟨hp, hreg⟩ := lookup_eq_some.mp hk
      have hlayer := (layerStep_layerTx k s).sameButLayer
      rw [execIrqTx_of_registered hp hreg] at h
      rcases onTransmitComplete_cases c (layerTx k s) with he | ⟨he, -⟩ | ⟨hb, hcase⟩
      · rw [he] at h; cases h
      · rw [he] at h; cases h
      · rw [hlayer.bufOk] at hb
        rw [head_congr hlayer.block.chans, tail_congr hlayer.block.chans] at hcase
        rcases hcase with he | ⟨v, he, hv⟩
        · exact ⟨_, .empty hk hb he⟩
        · exact ⟨_, .handled hk hb he ((hlayer.byteAt _ _).symm.trans hv)⟩
  obtain ⟨r, hr⟩ := hr
  obtain ⟨t', ht', hsame⟩ := hr.execIrqTx (.refl s)
  obtain rfl := Host.Outcome.next.inj (h.symm.trans ht')
  exact ⟨r, hr, hsame⟩

/-! ### What is kept of the normal context -/

/-- The preempted command and what it returns and takes are as they were: `UPC` with its locals, the results and the
inputs. -/
structure SameCommand (s t : State) : Prop where
  upc : t.upc = s.upc
  results : t.results = s.results
  inputs : SameInputs s t

theorem SameButLayer.sameCommand (h : SameButLayer s t) : SameCommand s t := ⟨h.block.upc, h.results, h.inputs⟩

theorem SameCommand.refl (s : State) : SameCommand s s := (SameButLayer.refl s).sameCommand

theorem SameCommand.trans (h : SameCommand s l) (h' : SameCommand l t) : SameCommand s t :=
  ⟨h'.upc.trans h.upc, h'.results.trans h.results, h.inputs.trans h'.inputs⟩

theorem ReceivedBy.sameCommand (h : ReceivedBy k s r) : SameCommand s r := by
  cases h with
  | ignored => exact .refl s
  | @handled c v =>
    obtain ⟨-, hupc, hres⟩ := received_control c v s
    exact ⟨hupc, hres, sameInputs_received c v s⟩

theorem TransmittedBy.sameCommand (h : TransmittedBy k s r) : SameCommand s r := by
  cases h with
  | ignored | empty => exact .refl s
  | handled => exact ⟨rfl, rfl, rfl, rfl, rfl, rfl⟩

theorem execHwrxd_sameCommand {b : Byte} (h : exec (.hwrxd k b) s = .next t) : SameCommand s t := by
  by_cases hd : s.par.np ≤ k.val ∨ (s.periph k).rxArm = none
  · rw [exec_hwrxd_of_dropped hd] at h
    cases h
    exact .refl s
  · obtain ⟨hk, ha⟩ := not_or.mp hd
    obtain ⟨c, hc⟩ := Option.ne_none_iff_exists'.mp ha
    rw [exec_hwrxd_of_armed (Nat.not_le.mp hk) hc] at h
    cases h
    exact ⟨rfl, rfl, rfl, rfl, rfl, rfl⟩

theorem execHwinj_sameCommand {sel : InjSel} {st : BitVec 2} (h : exec (.hwinj k sel st) s = .next t) :
    SameCommand s t := by
  change execHwinj k sel st s = .next t at h
  unfold execHwinj at h
  split at h
  · cases h
    cases sel <;> exact (layerStep_setPeriph ..).sameButLayer.sameCommand
  · cases h
    exact .refl s

theorem execHwReceiveArm_sameCommand (h : exec (.hwReceiveArm k c) s = .next t) : SameCommand s t := by
  cases ha : hwReceiveArm k c s with
  | ok answer =>
    rw [exec_hwReceiveArm_of_answer (st := answer.1) (t := answer.2) ha] at h
    cases h
    exact (hwReceiveArm_ok (st := answer.1) ha).1.sameButLayer.sameCommand
  | error e =>
    obtain ⟨u, rfl, hl⟩ := hwReceiveArm_error ha
    rw [exec_hwReceiveArm_of_double ha] at h
    cases h
    exact hl.sameButLayer.sameCommand.trans ⟨rfl, rfl, rfl, rfl, rfl, rfl⟩

/-- Only a command touches the command in progress, its results or its inputs. -/
theorem exec_sameCommand {i : Instr} (hi : i.port ≠ .command) (h : exec i s = .next t) : SameCommand s t := by
  cases i with
  | construct | beginCh | read | write | avail | rcount | flushRx | flushTx => exact absurd rfl hi
  | irqRx k =>
    obtain ⟨r, hr, hsame⟩ := receivedBy_of_next h
    exact hr.sameCommand.trans hsame.sameCommand
  | irqTx k =>
    obtain ⟨r, hr, hsame⟩ := transmittedBy_of_next h
    exact hr.sameCommand.trans hsame.sameCommand
  | hwrxd k b => exact execHwrxd_sameCommand h
  | hwinj k sel st => exact execHwinj_sameCommand h
  | hwReceiveArm p c => exact execHwReceiveArm_sameCommand h
  | hwTransmitByte p b => cases h; exact (layerStep_transmit ..).sameButLayer.sameCommand
  | hwIsReady p => cases h; exact (layerStep_isReady ..).sameButLayer.sameCommand
  | hwUnlockAndAbortReceive p => cases h; exact (layerStep_unlock ..).sameButLayer.sameCommand

end

/-! ### The obligations -/

/-- Settles O50: an instruction that is no command is an event, whose handler writes the block's buffers only, or a word
of the hardware layer. -/
theorem eventsLeaveThePreemptedCommandAlone : Obligations.EventsLeaveThePreemptedCommandAlone := by
  intro i s t hi h
  obtain ⟨hupc, hres, hin⟩ := exec_sameCommand hi h
  exact ⟨hupc, hres, hin⟩

/-- Settles O33: the layer's part is all that is left of the event. -/
theorem unregisteredEventsAreIgnored : Obligations.UnregisteredEventsAreIgnored := by
  intro s k hno
  have hk := lookup_eq_none.mpr hno
  have hrx := layerStep_layerRx k s
  have htx := layerStep_layerTx k s
  exact ⟨irqRxConditions_of_unregistered hk, irqTxConditions_of_unregistered hk,
    ⟨_, execIrqRx_of_unregistered hk, hrx.block, layerRx_hwlog k s, hrx.results, hrx.inputs⟩,
    ⟨_, execIrqTx_of_unregistered hk, htx.block, layerTx_hwlog k s, htx.results, htx.inputs⟩⟩

end Sys2Proof.Machine
end

