-- ==== Sys2Proof/Proofs/EventsCommute.lean ====
section
/-! IRQRX and IRQTX commute (60_exceptions.md R250): the push writes the head and one byte of an RX buffer, the pop the
tail of a TX buffer, and neither reads what the other writes. -/

namespace Sys2Proof.Machine

section
variable {s r q : State} {k j : Pid} {c d : Slot} {v : Byte}

/-! ### A push into an RX buffer and a pop from a TX buffer, of one slot or of two -/

theorem setChan_comm (h : c ≠ d) (x y : Chan) : (s.setChan c x).setChan d y = (s.setChan d y).setChan c x := by
  simp only [State.setChan, Vector.set_comm _ _ (Fin.val_ne_of_ne h)]

theorem setHead_rx_setTail_tx (s : State) (c d : Slot) (x y : Idx) :
    (s.setTail ⟨d, .tx⟩ y).setHead ⟨c, .rx⟩ x = (s.setHead ⟨c, .rx⟩ x).setTail ⟨d, .tx⟩ y := by
  by_cases h : c = d
  · subst h
    simp only [State.setHead, State.setTail, chan_setChan_same, setChan_setChan]
  · simp only [State.setHead, State.setTail, chan_setChan_ne _ _ h, chan_setChan_ne _ _ (Ne.symm h)]
    exact setChan_comm (Ne.symm h) _ _

theorem pushed_popped (c d : Slot) (v : Byte) (s : State) :
    pushed ⟨c, .rx⟩ v (popped ⟨d, .tx⟩ s) = popped ⟨d, .tx⟩ (pushed ⟨c, .rx⟩ v s) := by
  have hpop : popped ⟨d, .tx⟩ (pushed ⟨c, .rx⟩ v s) = (pushed ⟨c, .rx⟩ v s).setTail ⟨d, .tx⟩
      (idxSucc (s.tail ⟨d, .tx⟩) (s.cap d)) := by
    rw [popped, pushed, tail_setHead, setHead_cap]
    rfl
  rw [hpop, pushed, pushed, ← setHead_rx_setTail_tx, popped, head_setTail, setTail_cap]
  rfl

theorem received_popped (c d : Slot) (v : Byte) (s : State) :
    received c v (popped ⟨d, .tx⟩ s) = popped ⟨d, .tx⟩ (received c v s) := by
  have htail : (popped ⟨d, .tx⟩ s).tail ⟨c, .rx⟩ = s.tail ⟨c, .rx⟩ := by
    rw [popped, tail_setTail, if_neg nofun]
  unfold received
  rw [htail, popped, head_setTail, setTail_cap, ← popped]
  split
  · rfl
  · exact pushed_popped c d v s

/-! ### What each leaves of what the other reads -/

theorem received_tx (c d : Slot) (v : Byte) (s : State) :
    (received c v s).head ⟨d, .tx⟩ = s.head ⟨d, .tx⟩ ∧ (received c v s).tail ⟨d, .tx⟩ = s.tail ⟨d, .tx⟩ ∧
      (received c v s).cap d = s.cap d := by
  unfold received
  split
  · exact ⟨rfl, rfl, rfl⟩
  · rw [pushed, head_setHead, if_neg nofun, tail_setHead, setHead_cap]
    exact ⟨rfl, rfl, rfl⟩

theorem bufOk_received_tx (h : s.bufOk ⟨d, .tx⟩ = true) : (received c v s).bufOk ⟨d, .tx⟩ = true := by
  obtain ⟨hhead, htail, hcap⟩ := received_tx c d v s
  rw [bufOk_iff] at h ⊢
  rw [hhead, htail, hcap]
  exact h

theorem byteAt_received_txmem (c d : Slot) (v : Byte) (s : State) (i : Idx) :
    (received c v s).byteAt (.txmem d) i = s.byteAt (.txmem d) i := by
  unfold received
  split
  · rfl
  · exact sameMemoryBut_pushed ⟨c, .rx⟩ v s _ _ fun e => nomatch e.1

theorem lookup_received (j : Pid) (c : Slot) (v : Byte) (s : State) : lookup j (received c v s) = lookup j s :=
  lookup_congr (sameInputs_received c v s).par (received_control c v s).1 j

theorem TransmittedBy.lookup (h : TransmittedBy j s q) (k : Pid) : lookup k q = lookup k s := by
  cases h <;> rfl

theorem TransmittedBy.byteAt (h : TransmittedBy j s q) (sp : Space) (i : Idx) : q.byteAt sp i = s.byteAt sp i := by
  cases h <;> rfl

theorem TransmittedBy.bufOk_rx (h : TransmittedBy j s q) (hb : s.bufOk ⟨c, .rx⟩ = true) :
    q.bufOk ⟨c, .rx⟩ = true := by
  cases h with
  | ignored | empty => exact hb
  | handled _ ht => exact bufOk_setTail _ _ (idxSucc_lt (tail_lt_cap ht)) hb

/-! ### Each after the other -/

/-- What IRQTX does is the same after the push or drop of a byte. -/
theorem TransmittedBy.received (h : TransmittedBy j s q) (c : Slot) (v : Byte) :
    TransmittedBy j (received c v s) (received c v q) := by
  cases h with
  | ignored hk => exact .ignored ((lookup_received j c v s).trans hk)
  | @empty d hk hb he =>
    obtain ⟨hhead, htail, -⟩ := received_tx c d v s
    exact .empty ((lookup_received j c v s).trans hk) (bufOk_received_tx hb) (hhead.trans (he.trans htail.symm))
  | @handled d b hk hb he hv =>
    obtain ⟨hhead, htail, -⟩ := received_tx c d v s
    rw [received_popped]
    exact .handled ((lookup_received j c v s).trans hk) (bufOk_received_tx hb) (by rw [hhead, htail]; exact he)
      (by rw [htail, byteAt_received_txmem]; exact hv)

theorem ReceivedBy.diamond (h : ReceivedBy k s r) (h' : TransmittedBy j s q) :
    ∃ w, TransmittedBy j r w ∧ ReceivedBy k q w := by
  cases h with
  | ignored hk => exact ⟨q, h', .ignored ((h'.lookup k).trans hk)⟩
  | @handled c v hk hb hv =>
    exact ⟨_, h'.received c v, .handled ((h'.lookup k).trans hk) (h'.bufOk_rx hb) ((h'.byteAt _ _).trans hv)⟩

end

/-- Settles O52: on the block the two events close a diamond, and each runs from every state of the layer. -/
theorem receiveAndTransmitEventsCommute : Obligations.ReceiveAndTransmitEventsCommute := by
  intro s a b k j ha hb
  obtain ⟨r, hr, hra⟩ := receivedBy_of_next ha
  obtain ⟨q, hq, hqb⟩ := transmittedBy_of_next hb
  obtain ⟨w, htx, hrx⟩ := hr.diamond hq
  obtain ⟨u, hu, hwu⟩ := htx.execIrqTx hra
  obtain ⟨v, hv, hwv⟩ := hrx.execIrqRx hqb
  exact ⟨u, v, hu, hv, hwu.block.chans.trans hwv.block.chans.symm, hwu.block.reg.trans hwv.block.reg.symm,
    hwu.block.mem.trans hwv.block.mem.symm, hwu.block.upc.trans hwv.block.upc.symm, hwu.results.trans hwv.results.symm⟩

end Sys2Proof.Machine
end

