-- ==== Sys2Proof/Proofs/Reset.lean ====
section
/-! What reset leaves, for every choice of parameters, and that the block does nothing by itself
(70_reset_and_hazards.md R280, 10_state.md R40). -/

namespace Sys2Proof.Machine

section
variable (p : Config.Params)

/-! ### The fields of the state after reset -/

@[simp] theorem resetWith_regAt (k : Pid) : (State.resetWith p).regAt k = none := Vector.getElem_replicate ..

@[simp] theorem resetWith_chan (c : Slot) : (State.resetWith p).chan c = Chan.reset := Vector.getElem_replicate ..

@[simp] theorem resetWith_periph (q : Pid) : (State.resetWith p).periph q = Periph.start := Vector.getElem_replicate ..

end

/-! ### States in which nothing happens -/

/-- An idle block with nothing to issue and no turn listed waits (70_reset_and_hazards.md R280). -/
theorem step_of_waiting {s : State} (hf : s.faulted = false) (hu : s.upc = .idle) (hq : s.cmdQ = [])
    (ht : s.turns = []) : step s = .next s := by
  rw [step_of_not_faulted hf]
  simp only [takeTurn, ht, normalTurn, Upc.command_eq_none.mpr hu, issueNext, hq]

theorem layerRx_of_nothing_pending {k : Pid} {s : State} (h : (s.periph k).rxDone = false) : layerRx k s = s := by
  simp only [layerRx, h, Bool.and_false, Bool.false_eq_true, if_false]

theorem layerTx_of_nothing_in_flight {k : Pid} {s : State} (h : (s.periph k).txBusy = false) : layerTx k s = s := by
  simp only [layerTx, h, Bool.and_false, Bool.false_eq_true, if_false]

/-- Settles O1: the fields are the constants reset stores; with nothing to issue a step waits, and an event finds
neither a completion in the layer nor a channel in the registry. -/
theorem resetLeavesTheBlockEmptyAndIdle : Obligations.ResetLeavesTheBlockEmptyAndIdle := by
  intro p
  have unregistered (k : Pid) : lookup k (State.resetWith p) = none := lookup_eq_none.mpr (.inr (resetWith_regAt p k))
  refine ⟨resetWith_regAt p, fun c => ?valid, rfl, fun _ _ => rfl, fun q => ?layer, rfl, ?waits, fun k => ?irqRx,
    fun k => ?irqTx⟩
  case valid => rw [resetWith_chan]; rfl
  case layer => rw [resetWith_periph]; exact ⟨rfl, rfl, rfl, rfl, rfl, rfl⟩
  case waits => exact step_of_waiting rfl rfl rfl rfl
  case irqRx =>
    rw [execIrqRx_of_unregistered (unregistered k), layerRx_of_nothing_pending (by rw [resetWith_periph]; rfl)]
  case irqTx =>
    rw [execIrqTx_of_unregistered (unregistered k), layerTx_of_nothing_in_flight (by rw [resetWith_periph]; rfl)]

end Sys2Proof.Machine
end

