-- ==== Sys2Proof/Proofs/PreemptedCommands.lean ====
section
/-! IRQTX between two micro-steps of a command on the same TX buffer: between the two stores of FLUSHTX and within
WRITE's own pop (70_reset_and_hazards.md R285, R286). -/

namespace Sys2Proof.Machine

/-! ### The second store of a flush under `tail_first` -/

theorem idxSucc_zero {n : Idx} (h : 2 ≤ n.toNat) : idxSucc 0 n = 1 := by
  rw [idxSucc, show (0 : Idx).toNat + 1 = 1 from rfl, Nat.mod_eq_of_lt h]
  rfl

/-- Head 0 and tail 1 are the indices of a full buffer (40_buffer_engine.md R124, R125). -/
theorem occupancyAt_zero_one {n : Idx} (h : 2 ≤ n.toNat) : (occupancyAt 0 1 n).toNat = n.toNat - 1 := by
  have h0 : (0 : Idx).toNat = 0 := rfl
  have h1 : (1 : Idx).toNat = 1 := rfl
  rw [occupancyAt_toNat (by omega) (by omega), h0, h1, if_neg (by omega)]
  omega

theorem afterSecondStore_of_tailFirst {s : State} (b : Buf) (h : s.par.flushOrder = .tailFirst) :
    afterSecondStore b s = s.setHead b 0 := by
  simp only [afterSecondStore, h]

/-- Step G.2 under `tail_first` stores 0 in `TXH` and leaves `TXT` where it stands. -/
theorem exec_flushTx_clears_head {s : State} {c : Slot} (hu : s.upc = .flushTx2 c)
    (ho : s.par.flushOrder = .tailFirst) (hb : s.bufOk ⟨c, .tx⟩ = true) :
    exec (.flushTx c) s = .next ((s.setHead ⟨c, .tx⟩ 0).endCommand .ok 0) := by
  rw [← afterSecondStore_of_tailFirst ⟨c, .tx⟩ ho]
  exact exec_flush_second (side := .tx) hu hb

/-! ### The end of WRITE from a tail already loaded -/

/-- Steps W.8 to W.10 submit the byte at the tail that W.7 loaded and store that tail's successor, whatever `TXT` is by
now. -/
theorem turnsOf_write_of_loaded_tail {s : State} {c : Slot} {b v : Byte} {h t h2 t2 : Idx} {r : Bool}
    (hu : s.upc = .write8 c b h t r h2 t2) (hb : s.bufOk ⟨c, .tx⟩ = true) (ht : t2.toNat < (s.chan c).cap.toNat)
    (hv : s.byteAt (.txmem c) t2 = some v) :
    ∃ u st, turnsOf (.write c b) 3 s = .next u ∧ u.hwlog = s.hwlog ++ [.transmitByte (s.chan c).handle v st] ∧
      u.chans = (s.setTail ⟨c, .tx⟩ (idxSucc t2 (s.cap c))).chans ∧ u.upc = .idle := by
  rw [← setTail_handle s ⟨c, .tx⟩ (idxSucc t2 (s.cap c)) c]
  exact ⟨_, _, turnsOf_succ (exec_write_loads_byte hu hb ht hv) <|
    turnsOf_succ (exec_write_advances_tail rfl hb) <|
      turnsOf_succ (exec_write_submits rfl) rfl,
    hwTransmitByte_hwlog, (layerStep_transmit ..).block.chans, rfl⟩

/-! ### The obligations -/

/-- Settles O59: G.1 made the handler pop byte 0 and leave `TXT = 1`, which G.2 does not store again. -/
theorem flushTxPreemptedLooksFull : Obligations.FlushTxPreemptedLooksFull := by
  intro s k c v hu ho hk hr hb hcap ht hh hv
  obtain ⟨hpops, -⟩ := irqTxPopsTheOldestByte s k c hk hr hb
  obtain ⟨t, st, hexec, hchan, -, -, hupc, -, -, hin, -, hlog⟩ := hpops v (by rw [ht]; exact hh) (by rw [ht]; exact hv)
  have hbt : t.bufOk ⟨c, .tx⟩ = true := effect_bufOk (exec_effect hexec) _ hb nofun
  have hflush := exec_flushTx_clears_head (hupc.trans hu) (hin.par ▸ ho) hbt
  have hend : ((t.setHead ⟨c, .tx⟩ 0).endCommand .ok 0).chan c = { s.chan c with txh := 0, txt := 1 } := by
    rw [← idxSucc_zero hcap, endCommand_chan, State.setHead, chan_setChan_same, hchan, ht]
    rfl
  exact ⟨t, _, st, hexec, hlog, hflush, by rw [hend], by rw [hend], by rw [hend]; exact occupancyAt_zero_one hcap⟩

/-- Settles O60: W.9 stores the successor of the tail that W.7 loaded, which the handler has stored already. -/
theorem writePreemptedInItsPopSubmitsTwice : Obligations.WritePreemptedInItsPopSubmitsTwice := by
  intro s k c b h t r h2 t2 v hu hk hr hb ht hne hv
  subst ht
  obtain ⟨hpops, -⟩ := irqTxPopsTheOldestByte s k c hk hr hb
  obtain ⟨a, st, hexec, hchan, -, -, hupc, hmem, -, -, -, hlog⟩ := hpops v hne hv
  have hba : a.bufOk ⟨c, .tx⟩ = true := effect_bufOk (exec_effect hexec) _ hb nofun
  obtain ⟨u, st2, hturns, hlog2, hchans, hidle⟩ := turnsOf_write_of_loaded_tail (hupc.trans hu) hba
    (by rw [hchan]; exact tail_lt_cap hb) ((hmem _ _).trans hv)
  refine ⟨a, u, st, st2, hexec, hturns, ?log, ?tail, hidle⟩
  case log =>
    rw [hlog2, hlog, hchan, List.append_assoc]
    rfl
  case tail =>
    rw [chan_congr hchans, State.setTail, chan_setChan_same, cap_chan, hchan]
    rfl

end Sys2Proof.Machine
end
